-- ==== Sys2Proof/Word.lean ====
section
/-!
DEFINITION. The word types of the decoder core (spec 00_scope.md rules R7, R10).
-/

namespace Sys2Proof

/-- One payload or output byte, one scratch sample (u8). -/
abbrev Byte := BitVec 8

/-- One 32-bit payload word or host register (R7, R27). -/
abbrev Word := BitVec 32

/-- A packed 24-bit palette color: bits 23:16 Y, 15:8 Cb, 7:0 Cr (R10, R140). -/
abbrev Color := BitVec 24

end Sys2Proof
end

