-- ==== Sys2Proof/Config.lean ====
section
/-!
DEFINITION. What an implementation fixes (the parameters of spec 00_scope.md rule R8) and the free values: constants
without a body, of which nothing can be proved but their type.
-/

namespace Sys2Proof

/-- `BYTE_LANE_ORDER` (R8, R62): how four payload bytes form one 32-bit word. -/
inductive LaneOrder where
  | big
  | little
deriving DecidableEq, Repr

/-- `SLOT_ORDER` (R8, R143): order of the 2-bit index and the 1-bit update flag in a palette slot. -/
inductive SlotOrder where
  | indexFirst
  | flagFirst
deriving DecidableEq, Repr

/-- `COORD_FIELD_BITS` (R8, R83): 24 or 16. -/
inductive CoordBits where
  | bits24
  | bits16
deriving DecidableEq, Repr

/-- The parameters of R8 that have a default. A model instance fixes them once; no step changes them. -/
structure Params where
  laneOrder : LaneOrder
  slotOrder : SlotOrder
  coordBits : CoordBits
  /-- `MAX_DIM`: the largest accepted width or height (R235). -/
  maxDim    : Nat
deriving DecidableEq, Repr

/-- The default column of R8's table. -/
def Params.default : Params :=
  { laneOrder := .big, slotOrder := .indexFirst, coordBits := .bits24, maxDim := 4096 }

/-- The luminance or chrominance variant of a base table (R121, R123). -/
inductive Variant where
  | luma
  | chroma
deriving DecidableEq, Repr

/-- The four quantization-table builds of a DECODE (R128); `y1` has `SF_Y1`, and so on. -/
inductive Build where
  | y1
  | c1
  | y2
  | c2
deriving DecidableEq, Repr

namespace Config

/-- `BASE_TABLE[sel][var][k]`, the preset entry at zig-zag index `k` (R123): OPEN, no default (R8), so uninterpreted;
a byte by its type (R130). Log entry 2. -/
opaque baseTable : BitVec 3 → Variant → Nat → Byte

/-- `SF_Y1`, `SF_C1`, `SF_Y2`, `SF_C2` (R8): OPEN, no default, positive by their type (R130). Log entry 2. -/
opaque scaleFactor : Build → ℕ+

/-- What a payload byte that the host never wrote reads as, by its address: the spec gives no value. Log entry 8. -/
opaque unwrittenPayload : Nat → Byte

/-- `draw` of R238: byte `off` of the working buffer made by draw number `k`. Log entry 9. -/
opaque drawWork : (k off : Nat) → Byte

/-- `PAL[i]` after the DESTROY that took draw number `k`: undefined by R232. Log entry 10. -/
opaque drawPal : (k i : Nat) → Color

/-- `MAP[s]` after the DESTROY that took draw number `k`: undefined by R232. Log entry 10. -/
opaque drawMap : (k s : Nat) → BitVec 2

/-- `QT[t][i]` after the DESTROY that took draw number `k`: undefined by R232. Log entry 10. -/
opaque drawQt : (k t i : Nat) → BitVec 25

/-- `SCR[p]` after the DESTROY that took draw number `k`: undefined by R232. Log entry 10. -/
opaque drawScr : (k p : Nat) → Byte

end Config

end Sys2Proof
end

