-- ==== Sys2Proof/Syntax.lean ====
section
/-!
DEFINITION. The block syntax: one constructor of `Instr` per row of spec/opcode_table.json, with the operand fields
that follow its tag in the bitstream (spec 30_encoding.md rules R81 to R87).
-/

namespace Sys2Proof

/-- A palette slot (R84): the 2-bit register index, and the 24-bit color when the update flag `u` is 1. -/
structure Slot where
  idx   : BitVec 2
  color : Option Color
deriving DecidableEq, Repr

/-- An explicit-coordinate field (R83), in block units. `ignored` is `c[7:0]` of the 24-bit field, which the core
reads and ignores; a 16-bit field has no such bits. -/
structure Coord where
  bx      : Byte
  byy     : Byte
  ignored : Byte
deriving DecidableEq, Repr

/-- The blocks. The bitmap is the concatenation of its 64 fields, position 0 in the most significant bits (R86, R92).
A constructor whose name ends in `S` is the row with S = 1. -/
inductive Instr where
  | tc1
  | endTag
  | tc2
  | unk
  | tc1h
  | vq1 (s0 : Slot)
  | vq2 (s0 s1 : Slot) (bitmap : BitVec 64)
  | vq4 (s0 s1 s2 s3 : Slot) (bitmap : BitVec 128)
  | tc1S
  | endTagS
  | tc2S
  | unkS
  | tc1hS
  | vq1S (c : Coord) (s0 : Slot)
  | vq2S (c : Coord) (s0 s1 : Slot) (bitmap : BitVec 64)
  | vq4S (c : Coord) (s0 s1 s2 s3 : Slot) (bitmap : BitVec 128)
deriving DecidableEq, Repr

/-- Which field of a block a finite bit sequence cuts short: the names under which decoding rejects. -/
inductive DecodeError where
  | cutTag
  | cutCoordinates
  | cutSlot
  | cutBitmap
deriving DecidableEq, Repr

end Sys2Proof
end

