-- ==== Sys2Proof/WellFormed.lean ====
section
/-!
DEFINITION. Which blocks the bitstream can hold. The types carry every width; what is left to check is that a 16-bit
coordinate field has no ignored bits (spec 30_encoding.md rule R83: "with nothing ignored").
-/

namespace Sys2Proof

/-- A coordinate field as `COORD_FIELD_BITS` allows it (R83). -/
def Coord.wf (p : Params) (c : Coord) : Bool :=
  match p.coordBits with
  | .bits24 => true
  | .bits16 => c.ignored == 0

/-- A block that some bitstream encodes under the parameters `p`. -/
def Instr.wf (p : Params) (i : Instr) : Bool :=
  match i with
  | .tc1 | .endTag | .tc2 | .unk | .tc1h => true
  | .vq1 _ | .vq2 _ _ _ | .vq4 _ _ _ _ _ => true
  | .tc1S | .endTagS | .tc2S | .unkS | .tc1hS => true
  | .vq1S c _ => c.wf p
  | .vq2S c _ _ _ => c.wf p
  | .vq4S c _ _ _ _ _ => c.wf p

end Sys2Proof
end

