-- ==== Sys2Proof/Decode.lean ====
section
/-!
DEFINITION. Bits and fields, the decoder and the encoder (spec 30_encoding.md). Both work on the bitstream as a list
of bits, the first bit consumed first (R80, R88).
-/

namespace Sys2Proof

/-! ### Bit fields -/

/-- The bits of a field, most significant first (R88). -/
def bitsOf {n : Nat} (v : BitVec n) : List Bool := (List.range n).map v.getMsbD

/-- The unsigned number a bit sequence writes, first bit most significant (R88). -/
def natOfBits (bs : List Bool) : Nat := bs.foldl (fun a b => 2 * a + b.toNat) 0

/-- Take an `n`-bit field from the front of a bit sequence, or reject under the name `e` when it is cut. -/
def takeField (n : Nat) (e : DecodeError) (bs : List Bool) : Except DecodeError (BitVec n × List Bool) :=
  if bs.length < n then .error e else .ok (BitVec.ofNat n (natOfBits (bs.take n)), bs.drop n)

/-- The width of the explicit-coordinate field, `COORD_FIELD_BITS` (R8, R83). -/
def coordWidth (p : Params) : Nat :=
  match p.coordBits with
  | .bits24 => 24
  | .bits16 => 16

/-- The longest block, VQ4.S with four updates under a 24-bit coordinate field (R87). -/
def maxBlockBits : Nat := 264

/-! ### Decoder -/

/-- The explicit-coordinate field (R83): x, y and, when it has 24 bits, 8 ignored bits. -/
def decodeCoord (p : Params) (bs : List Bool) : Except DecodeError (Coord × List Bool) := do
  let (x, bs) ← takeField 8 .cutCoordinates bs
  let (y, bs) ← takeField 8 .cutCoordinates bs
  match p.coordBits with
  | .bits24 =>
    let (g, bs) ← takeField 8 .cutCoordinates bs
    return ({ bx := x, byy := y, ignored := g }, bs)
  | .bits16 => return ({ bx := x, byy := y, ignored := 0 }, bs)

/-- The index and the update flag of a slot, in the order `SLOT_ORDER` gives (R84, R143). -/
def decodeSlotHead (p : Params) (bs : List Bool) : Except DecodeError ((BitVec 2 × BitVec 1) × List Bool) :=
  match p.slotOrder with
  | .indexFirst => do
    let (idx, bs) ← takeField 2 .cutSlot bs
    let (u, bs) ← takeField 1 .cutSlot bs
    return ((idx, u), bs)
  | .flagFirst => do
    let (u, bs) ← takeField 1 .cutSlot bs
    let (idx, bs) ← takeField 2 .cutSlot bs
    return ((idx, u), bs)

/-- One palette slot (R84): the color follows only when the update flag is 1. -/
def decodeSlot (p : Params) (bs : List Bool) : Except DecodeError (Slot × List Bool) := do
  let ((idx, u), bs) ← decodeSlotHead p bs
  if u = 1#1 then
    let (c, bs) ← takeField 24 .cutSlot bs
    return ({ idx := idx, color := some c }, bs)
  else
    return ({ idx := idx, color := none }, bs)

/-- The operands of kind 101: one slot (R85, R86). -/
def decodeVq1 (p : Params) (bs : List Bool) : Except DecodeError (Slot × List Bool) := decodeSlot p bs

/-- The operands of kind 110: two slots and a bitmap of 64 1-bit fields (R85, R86). -/
def decodeVq2 (p : Params) (bs : List Bool) : Except DecodeError ((Slot × Slot × BitVec 64) × List Bool) := do
  let (a, bs) ← decodeSlot p bs
  let (b, bs) ← decodeSlot p bs
  let (m, bs) ← takeField 64 .cutBitmap bs
  return ((a, b, m), bs)

/-- The operands of kind 111: four slots and a bitmap of 64 2-bit fields (R85, R86). -/
def decodeVq4 (p : Params) (bs : List Bool) :
    Except DecodeError ((Slot × Slot × Slot × Slot × BitVec 128) × List Bool) := do
  let (a, bs) ← decodeSlot p bs
  let (b, bs) ← decodeSlot p bs
  let (c, bs) ← decodeSlot p bs
  let (d, bs) ← decodeSlot p bs
  let (m, bs) ← takeField 128 .cutBitmap bs
  return ((a, b, c, d, m), bs)

/-- The block at the front of a bit sequence and the bits after it. Every value of the tag is a block (R91), so the
only rejections are the fields that the sequence cuts short. The S bit brings a coordinate field for the VQ kinds
only (R89, R161). -/
def decode (p : Params) (bs : List Bool) : Except DecodeError (Instr × List Bool) := do
  let (tag, bs) ← takeField 4 .cutTag bs
  match tag.toNat with
  | 0 => return (.tc1, bs)
  | 1 => return (.endTag, bs)
  | 2 => return (.tc2, bs)
  | 3 => return (.unk, bs)
  | 4 => return (.tc1h, bs)
  | 5 =>
    let (s0, bs) ← decodeVq1 p bs
    return (.vq1 s0, bs)
  | 6 =>
    let ((s0, s1, m), bs) ← decodeVq2 p bs
    return (.vq2 s0 s1 m, bs)
  | 7 =>
    let ((s0, s1, s2, s3, m), bs) ← decodeVq4 p bs
    return (.vq4 s0 s1 s2 s3 m, bs)
  | 8 => return (.tc1S, bs)
  | 9 => return (.endTagS, bs)
  | 10 => return (.tc2S, bs)
  | 11 => return (.unkS, bs)
  | 12 => return (.tc1hS, bs)
  | 13 =>
    let (c, bs) ← decodeCoord p bs
    let (s0, bs) ← decodeVq1 p bs
    return (.vq1S c s0, bs)
  | 14 =>
    let (c, bs) ← decodeCoord p bs
    let ((s0, s1, m), bs) ← decodeVq2 p bs
    return (.vq2S c s0 s1 m, bs)
  | _ =>
    let (c, bs) ← decodeCoord p bs
    let ((s0, s1, s2, s3, m), bs) ← decodeVq4 p bs
    return (.vq4S c s0 s1 s2 s3 m, bs)

/-! ### Encoder, from the same tables -/

/-- The tag of a block (R82, R168 to R183; opcode_table.json). -/
def tagOf (i : Instr) : BitVec 4 :=
  match i with
  | .tc1 => 0x0
  | .endTag => 0x1
  | .tc2 => 0x2
  | .unk => 0x3
  | .tc1h => 0x4
  | .vq1 _ => 0x5
  | .vq2 _ _ _ => 0x6
  | .vq4 _ _ _ _ _ => 0x7
  | .tc1S => 0x8
  | .endTagS => 0x9
  | .tc2S => 0xA
  | .unkS => 0xB
  | .tc1hS => 0xC
  | .vq1S _ _ => 0xD
  | .vq2S _ _ _ _ => 0xE
  | .vq4S _ _ _ _ _ _ => 0xF

/-- The bits of a coordinate field (R83). -/
def encodeCoord (p : Params) (c : Coord) : List Bool :=
  match p.coordBits with
  | .bits24 => bitsOf c.bx ++ bitsOf c.byy ++ bitsOf c.ignored
  | .bits16 => bitsOf c.bx ++ bitsOf c.byy

/-- The update flag of a slot (R84). -/
def slotFlag (s : Slot) : BitVec 1 := if s.color.isSome then 1 else 0

/-- The bits of a palette slot (R84). -/
def encodeSlot (p : Params) (s : Slot) : List Bool :=
  let head := match p.slotOrder with
    | .indexFirst => bitsOf s.idx ++ bitsOf (slotFlag s)
    | .flagFirst => bitsOf (slotFlag s) ++ bitsOf s.idx
  match s.color with
  | some c => head ++ bitsOf c
  | none => head

/-- The fields after the tag (R85 to R87). -/
def encodeOperands (p : Params) (i : Instr) : List Bool :=
  match i with
  | .tc1 | .endTag | .tc2 | .unk | .tc1h | .tc1S | .endTagS | .tc2S | .unkS | .tc1hS => []
  | .vq1 a => encodeSlot p a
  | .vq2 a b m => encodeSlot p a ++ encodeSlot p b ++ bitsOf m
  | .vq4 a b c d m => encodeSlot p a ++ encodeSlot p b ++ encodeSlot p c ++ encodeSlot p d ++ bitsOf m
  | .vq1S x a => encodeCoord p x ++ encodeSlot p a
  | .vq2S x a b m => encodeCoord p x ++ encodeSlot p a ++ encodeSlot p b ++ bitsOf m
  | .vq4S x a b c d m =>
    encodeCoord p x ++ encodeSlot p a ++ encodeSlot p b ++ encodeSlot p c ++ encodeSlot p d ++ bitsOf m

/-- The bits of a block: the tag, then its fields, with nothing between (R80). -/
def encode (p : Params) (i : Instr) : List Bool := bitsOf (tagOf i) ++ encodeOperands p i

/-- A sequence of blocks, one after the other (R80). -/
def encodeAll (p : Params) (is : List Instr) : List Bool := is.flatMap (encode p)

/-- The `k`-th 32-bit word of a bit sequence, zeros after its end: its first bit is the word's bit 31 (R100). -/
def wordOfBits (bs : List Bool) (k : Nat) : Word :=
  BitVec.ofNat 32 (natOfBits ((bs.drop (32 * k)).take 32 ++ List.replicate (32 - ((bs.drop (32 * k)).take 32).length) false))

/-- The payload words of a bit sequence, zero-padded after the last block, as 95_test_vectors.md writes streams. -/
def wordsOfBits (bs : List Bool) : List Word :=
  (List.range ((bs.length + 31) / 32)).map (wordOfBits bs)

/-! ### The host's numbering -/

/-- The bit sequence of an opcode-table word: the table numbers a tag's bits 3:0 with bit 0 least significant, so each
4 bits of `w`, from the least significant up, are one nibble of the stream, its most significant bit first; bits at
or above `nbits` are 0, up to the longest block. Log entry 17. -/
def tableWordBits (nbits w : Nat) : List Bool :=
  (List.range (maxBlockBits / 4)).flatMap fun k => bitsOf (BitVec.ofNat 4 ((w % 2 ^ nbits) / 16 ^ k))

/-- The instruction the decoder reads from an instruction whose bits are `w`, numbered as opcode_table.json does. -/
def decodeTableWord (nbits w : Nat) : Option Instr :=
  match decode Params.default (tableWordBits nbits w) with
  | .ok (i, _) => some i
  | .error _ => none

end Sys2Proof
end

