-- ==== Sys2Proof/Machine/State.lean ====
section
/-!
DEFINITION. The state of the decoder core, as plain data: all that spec 10_state.md gives the machine, the host as the
other agent, and the states at power-on and after RESET.
-/

namespace Sys2Proof.Machine

/-- `STATUS.STATE` (R31). -/
inductive Phase where
  /-- 0: no decoder exists. -/
  | uninit
  /-- 1: a decoder exists; the last DECODE succeeded or there was none yet. -/
  | ready
  /-- 2: a DECODE is running. -/
  | busy
  /-- 3: the last DECODE faulted; the decoder is reusable. -/
  | error
deriving DecidableEq, Repr

/-- `STATUS.ERR_CODE` (R31, R260): code 0, or one of the four errors of the taxonomy. -/
inductive ErrCode where
  | none
  | truncatedInput
  | unknownBlockTag
  | unsupportedBlockKind
  | headerInconsistent
deriving DecidableEq, Repr

/-- `STATUS.END_REASON` (R31). -/
inductive EndReason where
  | endTag
  | payloadBound
deriving DecidableEq, Repr

/-- Sparse memory: (address, byte) pairs, addresses strictly rising (`Memory.wf`). An unlisted address reads as no
value: nothing was written there. -/
abbrev Memory := List Host.Cell

/-- The content of an output buffer: the bytes written so far, and the number of the draw (R238) that supplies the
bytes nothing has written. -/
structure Buffer where
  draw  : Nat
  cells : Memory
deriving DecidableEq, Repr

/-- `PUB` with its geometry `PUB_GEOM = (W, H, BPP)` (R38). -/
structure Published where
  buf : Buffer
  w   : Nat
  h   : Nat
  bpp : Nat
deriving DecidableEq, Repr

/-- The cursor window (R106): the current word `W0`, the lookahead `W1`, its count of valid bits `CNT`, and the index
`IDX` of the next word to load. -/
structure Window where
  w0  : Word
  w1  : Word
  cnt : Nat
  idx : Nat
deriving DecidableEq, Repr

/-- What a DECODE latches from the descriptor registers (R26, R234). `B`, `PW`, `PH`, `BPR`, `BPC` are functions of
these (Machine/Ops.lean). -/
structure Latched where
  w       : Nat
  h       : Nat
  n       : Nat
  m420    : Bool
  qtSel   : BitVec 3
  advSel  : BitVec 3
  mapping : Bool
  bpp     : Nat
deriving DecidableEq, Repr

/-- The names of the read-write descriptor registers (R27). -/
inductive Desc where
  | width | height | compSize | mode | config
  | srcX | srcY | srcDepth | srcRate | srcIndex
  | dstX | dstY | dstDepth | dstRate | dstIndex
  | frameStart | frameNumber | frameSize
deriving DecidableEq, Repr

/-- The descriptor registers (R27). `none` is the spec's own state "unwritten" (R42: "hold no value"). -/
structure Descriptors where
  width       : Option Word
  height      : Option Word
  compSize    : Option Word
  mode        : Option Word
  config      : Option Word
  srcX        : Option Word
  srcY        : Option Word
  srcDepth    : Option Word
  srcRate     : Option Word
  srcIndex    : Option Word
  dstX        : Option Word
  dstY        : Option Word
  dstDepth    : Option Word
  dstRate     : Option Word
  dstIndex    : Option Word
  frameStart  : Option Word
  frameNumber : Option Word
  frameSize   : Option Word
deriving DecidableEq, Repr

/-- One host access (R43, R248). Register offsets are byte offsets of the register space (R27), PAYLOAD and PUB
offsets are byte offsets of those spaces (R60). -/
inductive HostAccess where
  | writeReg (off : Nat) (v : Word)
  | readReg (off : Nat)
  | writePayload (off : Word) (v : Byte)
  | readPub (off : Nat)
deriving DecidableEq, Repr

/-- What the host does next. Log entry 12. -/
inductive HostAction where
  /-- The host makes this access now, whatever the core is doing. -/
  | access (a : HostAccess)
  /-- The host lets the core take one step. -/
  | pause
  /-- The host waits until STATE is not BUSY (R248: "read STATUS until STATE != BUSY"). -/
  | awaitIdle
deriving DecidableEq, Repr

/-- The state of one decoder core and its host. -/
structure State where
  /-- The parameters of R8: fixed for an instance, changed by no step. -/
  params    : Params
  /-- `PAL[0..3]` (R22). -/
  pal       : Vector Color 4
  /-- `MAP[0..3]` (R23). -/
  map       : Vector (BitVec 2) 4
  /-- `pos`, the program-counter analogue (R24). -/
  pos       : Nat
  /-- The hidden cursor window (R106). -/
  window    : Window
  /-- `SX` (R25). -/
  sx        : Nat
  /-- `SY` (R25). -/
  sy        : Nat
  /-- The latched geometry, payload word count and table selectors (R26, R234). -/
  latched   : Latched
  /-- `QT[0..3][0..63]` (R35). -/
  qt        : Vector (Vector (BitVec 25) 64) 4
  /-- `SCR[0..767]` (R36). -/
  scr       : Vector Byte 768
  /-- `WORK`; none outside a DECODE (R38, R41). -/
  work      : Option Buffer
  /-- `PUB` and `PUB_GEOM`; `PUB_VALID` is whether it is there (R31, R38). -/
  pub       : Option Published
  /-- `STATUS.STATE` (R31). -/
  phase     : Phase
  /-- `STATUS.ERR_CODE` (R31). -/
  errCode   : ErrCode
  /-- `STATUS.END_REASON` (R31). -/
  endReason : EndReason
  /-- `ERR_WORD` (R32). -/
  errWord   : Word
  /-- `ERR_BIT` (R32). -/
  errBit    : Word
  /-- `ERR_MB` (R33). -/
  errMb     : Word
  /-- The descriptor registers (R27, R42). -/
  desc      : Descriptors
  /-- The PAYLOAD space, by byte address (R61). -/
  payload   : Memory
  /-- The model's own: how many draws of free values have been taken. Log entry 9. -/
  draws     : Nat
  /-- The model's own: what the host does, first action first. Log entry 12. -/
  host      : List HostAction
  /-- The model's own: the word the last host access read, none when it was a write. Log entry 12. -/
  rdata     : Option Word
deriving DecidableEq, Repr

/-- How a step inside a block goes: the block goes on from `s`, or the DECODE has ended in `s` (R13, R262). -/
inductive Micro where
  | go (s : State)
  | ended (s : State)
deriving DecidableEq, Repr

/-- Reasons to stop with a fault. There are none: each of the spec's four decode errors (R260) is TAKEN, a next state
that records it (R262), and every access outside an address space is refused (R43, R27). So no step ever ends in a
fault, and nothing is hidden behind one. -/
inductive Fault where
deriving DecidableEq, Repr

/-- Reasons to refuse: the spec's own refusals of host accesses ("the model has no step", R13). None is about a block
tag. All are safe: the spec gives these accesses no effect, and the model claims nothing of a run that makes one. -/
inductive Refusal where
  /-- Raised by `exec` for a constructor without a meaning; no arm does so. Safe. -/
  | notModelled (mnemonic : String)
  /-- Raised by the frame loop if the fetched bits hold no block; never (Decode is total on a full fetch, R91). Safe. -/
  | undecodable (e : DecodeError)
  /-- Raised by any host access but a STATUS read while STATE = BUSY (R244, R284 to R286). Safe. -/
  | busyAccess
  /-- Raised by a CMD write of a value other than 1, 2, 3 (R30, R244). Safe. -/
  | unknownCommand (v : Word)
  /-- Raised by a DECODE or a DESTROY while STATE = UNINIT (R245). Safe. -/
  | noDecoder
  /-- Raised by a DECODE while WIDTH, HEIGHT, COMP_SIZE, MODE or CONFIG is unwritten (R42, R245). Safe. -/
  | descriptorUnwritten
  /-- Raised by a register access at an offset outside the register map (R27). Safe. -/
  | unknownRegister (off : Nat)
  /-- Raised by a read of CMD (R27). Safe. -/
  | readOfCmd
  /-- Raised by a write of STATUS, ERR_WORD, ERR_BIT or ERR_MB, to which the host has read rights only (R43). Safe. -/
  | writeOfReadOnly (off : Nat)
  /-- Raised by a host read of a descriptor register that was never written: R42, "a host read of an unwritten register
  is refused"; so too 93_implementation_defined.md section 3. Safe. -/
  | registerUnwritten (off : Nat)
  /-- Raised by a read of PUB while PUB_VALID = 0 (R43). Safe. -/
  | noPublishedBuffer
  /-- Raised by a read of PUB at or beyond its size (R43). Safe. -/
  | beyondPublishedBuffer (off : Nat)
deriving DecidableEq, Repr

/-- All descriptor registers unwritten (R42). -/
def Descriptors.unwritten : Descriptors :=
  { width := none, height := none, compSize := none, mode := none, config := none
    srcX := none, srcY := none, srcDepth := none, srcRate := none, srcIndex := none
    dstX := none, dstY := none, dstDepth := none, dstRate := none, dstIndex := none
    frameStart := none, frameNumber := none, frameSize := none }

/-- The palette RESET sets (R141). -/
def palDefaults : Vector Color 4 := #v[0x008080, 0xFF8080, 0x808080, 0xC08080]

/-- The mapping RESET sets (R23). -/
def mapDefaults : Vector (BitVec 2) 4 := #v[0, 1, 2, 3]

/-- The latched values before any DECODE: undefined by R41, named by log entry 5. -/
def Latched.initial : Latched :=
  { w := 0, h := 0, n := 0, m420 := false, qtSel := 0, advSel := 0, mapping := false, bpp := 3 }

/-- The machine right after reset: power-on and one RESET command, the column "after RESET" of R41 (R281). Values the
column leaves undefined or unspecified are those of log entries 4 and 5. Log entry 3. -/
def State.reset : State :=
  { params := Params.default
    pal := palDefaults
    map := mapDefaults
    pos := 0
    window := { w0 := 0, w1 := 0, cnt := 0, idx := 0 }
    sx := 0
    sy := 0
    latched := Latched.initial
    qt := Vector.replicate 4 (Vector.replicate 64 0)
    scr := Vector.replicate 768 0
    work := none
    pub := none
    phase := .ready
    errCode := .none
    endReason := .endTag
    errWord := 0
    errBit := 0
    errMb := 0
    desc := Descriptors.unwritten
    payload := []
    draws := 0
    host := []
    rdata := none }

/-- The machine at power-on (R280): no decoder exists, and PAL and MAP, unspecified there, hold the values log entry 6
names. -/
def State.powerOn : State :=
  { State.reset with
    pal := Vector.replicate 4 0
    map := Vector.replicate 4 0
    phase := .uninit }

end Sys2Proof.Machine
end

