-- ==== Sys2Proof/Machine/Ops.lean ====
section
/-!
DEFINITION. The named operations over memory, the frame geometry, the bit cursor (spec 41_bitcursor.md), the scanner
(46_scanner.md), the output pixels' store, and the two ends of a DECODE, the fault among them (47_frame_loop.md,
60_exceptions.md).
-/

namespace Sys2Proof.Machine

/-! ### Arithmetic of rule R11 -/

/-- `ceil(a / b)` for `b > 0` (R26). -/
def ceilDiv (a b : Nat) : Nat := (a + b - 1) / b

/-- `asr(v, k)`: the floor of `v / 2^k` (R11). -/
def asr (v : Int) (k : Nat) : Int := v / 2 ^ k

/-- `round` of the exact rational `num / den`, `den > 0`: to nearest, ties up, `floor(x + 1/2)` (R11). -/
def roundRat (num den : Int) : Int := (2 * num + den) / (2 * den)

/-! ### Sparse memory -/

/-- What an unlisted address reads as: no value (log entry 8 says what each space makes of it). -/
def Memory.unlisted : Option Byte := none

/-- The byte written at an address, if one was. -/
def Memory.read : Memory → Nat → Option Byte
  | [], _ => Memory.unlisted
  | (k, v) :: m, a => if k = a then some v else Memory.read m a

/-- Write one byte, keeping the addresses strictly rising. -/
def Memory.store : Memory → Nat → Byte → Memory
  | [], a, b => [(a, b)]
  | (k, v) :: m, a, b =>
    if a < k then (a, b) :: (k, v) :: m
    else if a = k then (a, b) :: m
    else (k, v) :: Memory.store m a b

/-- Write bytes at consecutive addresses, one at a time (R65). -/
def Memory.storeAll : Memory → Nat → List Byte → Memory
  | m, _, [] => m
  | m, a, b :: bs => Memory.storeAll (Memory.store m a b) (a + 1) bs

/-- Every address of `m` is above `a`. -/
def Memory.above (a : Nat) : Memory → Bool
  | [] => true
  | (k, _) :: m => decide (a < k) && Memory.above a m

/-- The canonical form: addresses strictly rising. (No entry can equal what an unlisted address reads as, which is no
value.) -/
def Memory.wf : Memory → Bool
  | [] => true
  | (k, _) :: m => Memory.above k m && Memory.wf m

/-- Every address of `m` is below `n`. -/
def Memory.below (n : Nat) : Memory → Bool
  | [] => true
  | (k, _) :: m => decide (k < n) && Memory.below n m

/-! ### Output buffers (R38, R63, R238) -/

/-- Byte `off` of an output buffer: what was written there, else the drawn free value (R238). -/
def Buffer.byteAt (b : Buffer) (off : Nat) : Byte := (Memory.read b.cells off).getD (Config.drawWork b.draw off)

/-- The size of the published buffer in bytes (R60). -/
def Published.size (p : Published) : Nat := p.w * p.h * p.bpp

/-! ### Frame geometry (R26, R236) -/

/-- `B`: 16 in 4:2:0 mode, else 8. -/
def Latched.blockSize (l : Latched) : Nat := if l.m420 then 16 else 8

/-- `PW`: the width rounded up to the block size. -/
def Latched.paddedW (l : Latched) : Nat := l.blockSize * ceilDiv l.w l.blockSize

/-- `PH`: the height rounded up to the block size. -/
def Latched.paddedH (l : Latched) : Nat := l.blockSize * ceilDiv l.h l.blockSize

/-- `BPR`: blocks per row. -/
def Latched.bpr (l : Latched) : Nat := l.paddedW / l.blockSize

/-- `BPC`: blocks per column. -/
def Latched.bpc (l : Latched) : Nat := l.paddedH / l.blockSize

/-- The size of the working buffer in bytes (R38). -/
def Latched.size (l : Latched) : Nat := l.w * l.h * l.bpp

/-- The payload length in bits, `32*N` (R100). -/
def Latched.bitEnd (l : Latched) : Nat := 32 * l.n

/-- `HeaderOK()` (R235). -/
def headerOk (p : Params) (l : Latched) : Bool :=
  decide (1 ≤ l.w) && decide (1 ≤ l.h) && decide (l.w ≤ p.maxDim) && decide (l.h ≤ p.maxDim)

/-! ### The payload and its bitstream (R61, R62, R100) -/

/-- One payload byte: what the host wrote, else a free value. Log entry 8. -/
def payloadByte (s : State) (a : Nat) : Byte := (Memory.read s.payload a).getD (Config.unwrittenPayload a)

/-- `MemRead(PAYLOAD, i)`: word `i` from bytes `4i .. 4i+3` in the order `BYTE_LANE_ORDER` gives (R62). -/
def payloadWord (s : State) (i : Nat) : Word :=
  match s.params.laneOrder with
  | .big =>
    payloadByte s (4 * i) ++ payloadByte s (4 * i + 1) ++ payloadByte s (4 * i + 2) ++ payloadByte s (4 * i + 3)
  | .little =>
    payloadByte s (4 * i + 3) ++ payloadByte s (4 * i + 2) ++ payloadByte s (4 * i + 1) ++ payloadByte s (4 * i)

/-- `wordOrZero(i)`: an absent word loads as zero, without a memory access (R108). -/
def wordOrZero (s : State) (i : Nat) : Word := if i < s.latched.n then payloadWord s i else 0

/-- `S[j]`, extended by zero bits beyond `32*N` (R100, R106). -/
def streamBit (s : State) (j : Nat) : Bool := (wordOrZero s (j / 32)).getMsbD (j % 32)

/-- `S[p] .. S[p+n-1]` as an unsigned field, `S[p]` its most significant bit (R103). -/
def streamField (s : State) (p n : Nat) : BitVec n :=
  BitVec.ofNat n (natOfBits ((List.range n).map fun k => streamBit s (p + k)))

/-- The bits a block may need, from the cursor on: the longest block's worth (R87), zero-extended (R108). -/
def fetchBits (s : State) : List Bool := (List.range maxBlockBits).map fun k => streamBit s (s.pos + k)

/-! ### The bit cursor (R102 to R108) -/

/-- The window update of R107 for `advance(n)`; `next` is `wordOrZero(IDX)`. -/
def Window.advance (n : Nat) (next : Word) (w : Window) : Window :=
  if n ≤ w.cnt then
    let both := (w.w0 ++ w.w1) <<< n
    { w with w0 := both.extractLsb' 32 32, w1 := both.extractLsb' 0 32, cnt := w.cnt - n }
  else
    let drained := (w.w0 ++ w.w1) <<< w.cnt
    let both := (drained.extractLsb' 32 32 ++ next) <<< (n - w.cnt)
    { w0 := both.extractLsb' 32 32, w1 := both.extractLsb' 0 32, cnt := w.cnt + 32 - n, idx := w.idx + 1 }

/-- `W0[31 : 32-n]`, the value the window realisation returns (R107). -/
def Window.top (n : Nat) (w : Window) : BitVec n := BitVec.ofNat n (w.w0.toNat / 2 ^ (32 - n))

/-- Consume `n` bits, the bound having been checked (R103, R107). -/
def advanceCursor (n : Nat) (s : State) : State :=
  { s with pos := s.pos + n, window := s.window.advance n (wordOrZero s s.window.idx) }

/-- `Peek(n)` (R104): the next `n` bits, nothing written; the error is raised when they pass the payload end. -/
def peek (n : Nat) (s : State) : Except ErrCode (BitVec n) :=
  if s.latched.bitEnd < s.pos + n then .error .truncatedInput else .ok (streamField s s.pos n)

/-- `Read(n)` (R103): `Peek(n)`, then the cursor past the field. -/
def read (n : Nat) (s : State) : Except ErrCode (BitVec n × State) :=
  match peek n s with
  | .error e => .error e
  | .ok v => .ok (v, advanceCursor n s)

/-- Cursor initialisation at DECODE start (R102). -/
def initCursor (s : State) : State :=
  { s with pos := 0, window := { w0 := wordOrZero s 0, w1 := wordOrZero s 1, cnt := 32, idx := 2 } }

/-! ### The scanner (R221, R222) -/

/-- `ScannerAdvance()` (R221). -/
def scannerAdvance (s : State) : State :=
  if s.sx + 1 = s.latched.bpr then
    { s with sx := 0, sy := if s.sy + 1 = s.latched.bpc then 0 else s.sy + 1 }
  else { s with sx := s.sx + 1 }

/-! ### The two ends of a DECODE -/

/-- Taking an error at stream position `p`, the core's one exception entry: `EndFault(code, p)` (R242, R262). WORK is
discarded, STATE and ERR_CODE record the error, the position registers where it was; control goes nowhere. There is no
return from it (R266): the host issues a new command. -/
def takeFault (code : ErrCode) (p : Nat) (s : State) : State :=
  { s with
    work := none
    phase := .error
    errCode := code
    errWord := if code = .headerInconsistent then 0 else BitVec.ofNat 32 (p / 32)
    errBit := if code = .headerInconsistent then 0 else BitVec.ofNat 32 (p % 32)
    errMb := if code = .headerInconsistent then 0 else BitVec.ofNat 16 s.sy ++ BitVec.ofNat 16 s.sx }

/-- What the working buffer is published as (R241). -/
def publish (s : State) : Option Published :=
  s.work.map fun b => { buf := b, w := s.latched.w, h := s.latched.h, bpp := s.latched.bpp }

/-- `EndSuccess(reason)` (R241): PUB and its geometry are replaced in one step (R247), and WORK is handed over. -/
def endSuccess (r : EndReason) (s : State) : State :=
  { s with pub := publish s, work := none, phase := .ready, errCode := .none, endReason := r }

/-! ### Sequencing inside a block (R13, R262) -/

/-- Go on with `f`, unless the DECODE has ended. -/
def Micro.bind (m : Micro) (f : State → Micro) : Micro :=
  match m with
  | .go s => f s
  | .ended s => .ended s

/-- The state a block leaves, whichever way it went. -/
def Micro.state (m : Micro) : State :=
  match m with
  | .go s => s
  | .ended s => s

/-- A block's outcome: always a next state. -/
def Micro.outcome (m : Micro) : Host.Outcome State Fault Refusal := .next m.state

/-- Read an `n`-bit field whose value the decoded block already carries; a field that passes the payload end raises
`TruncatedInput` at its first bit, and the field is not used (R103, R260). -/
def readField (n : Nat) (s : State) : Micro :=
  match read n s with
  | .error e => .ended (takeFault e s.pos s)
  | .ok (_, s') => .go s'

/-- The read of a block's 4-bit tag (R160). -/
def readTag (s : State) : Micro := readField 4 s

end Sys2Proof.Machine
end

