-- ==== Sys2Proof/Machine/Flags.lean ====
section
/-!
DEFINITION. The flags of the core: the fields of the STATUS register (spec 10_state.md rules R31, R34) and the word the
host reads. The core has no condition codes.
-/

namespace Sys2Proof.Machine

/-- The code of `STATUS.STATE` (R31). -/
def Phase.code (p : Phase) : BitVec 2 :=
  match p with
  | .uninit => 0
  | .ready => 1
  | .busy => 2
  | .error => 3

/-- The code of `STATUS.ERR_CODE` (R31, R260). -/
def ErrCode.code (e : ErrCode) : BitVec 3 :=
  match e with
  | .none => 0
  | .truncatedInput => 1
  | .unknownBlockTag => 2
  | .unsupportedBlockKind => 3
  | .headerInconsistent => 4

/-- The code of `STATUS.END_REASON` (R31). -/
def EndReason.code (r : EndReason) : BitVec 1 :=
  match r with
  | .endTag => 0
  | .payloadBound => 1

/-- `STATUS.PUB_VALID` (R31): 1 when a published buffer exists. -/
def State.pubValid (s : State) : BitVec 1 := if s.pub.isSome then 1 else 0

/-- The STATUS register (R31): STATE in bits 1:0, ERR_CODE in 6:4, END_REASON in 8, PUB_VALID in 9, others 0. -/
def statusWord (s : State) : Word :=
  s.phase.code.zeroExtend 32 ||| s.errCode.code.zeroExtend 32 <<< 4
    ||| s.endReason.code.zeroExtend 32 <<< 8 ||| s.pubValid.zeroExtend 32 <<< 9

end Sys2Proof.Machine
end

