-- ==== Sys2Proof/Machine/Operands.lean ====
section
/-!
DEFINITION. Every operand form of a block as the machine takes it: the explicit coordinates (spec 44_block_decoder.md
rule R162), the palette group (43_palette.md rules R142 to R145) and the bitmap with the tile fill (R146 to R148).
-/

namespace Sys2Proof.Machine

/-! ### Registers an operand names -/

/-- `PAL[i]` (R22). -/
def State.palAt (s : State) (i : BitVec 2) : Color := s.pal[i.toNat]'i.isLt

/-- `PAL[i] <- c` (R144). -/
def State.setPal (s : State) (i : BitVec 2) (c : Color) : State := { s with pal := s.pal.set i.toNat c i.isLt }

/-- `MAP[v]` (R23). -/
def State.mapAt (s : State) (v : BitVec 2) : BitVec 2 := s.map[v.toNat]'v.isLt

/-- `MAP[j] <- idx` (R142). -/
def State.setMap (s : State) (j : BitVec 2) (idx : BitVec 2) : State := { s with map := s.map.set j.toNat idx j.isLt }

/-! ### Explicit coordinates (R162) -/

/-- `ReadCoords()`: the coordinate field of a block with S = 1; a block with S = 0 has none. -/
def readCoords (at? : Option Coord) (s : State) : Micro :=
  match at? with
  | some _ => readField (coordWidth s.params) s
  | none => .go s

/-- The block coordinates a VQ block is converted at (R162, R163): its own, or the scanner's. -/
def blockAt (at? : Option Coord) (s : State) : Nat × Nat :=
  match at? with
  | some c => (c.bx.toNat, c.byy.toNat)
  | none => (s.sx, s.sy)

/-! ### Palette group (R142) -/

/-- The index and the update flag of a slot, two reads in the order `SLOT_ORDER` gives (R142, R143). -/
def readSlotHead (s : State) : Micro :=
  match s.params.slotOrder with
  | .indexFirst => (readField 2 s).bind (readField 1)
  | .flagFirst => (readField 1 s).bind (readField 2)

/-- One slot: `MAP[j] <- idx`, and `PAL[idx] <- c` once all 24 color bits have been read (R142, R144). -/
def readSlot (j : BitVec 2) (sl : Slot) (s : State) : Micro :=
  (readSlotHead s).bind fun s =>
    let s := s.setMap j sl.idx
    match sl.color with
    | none => .go s
    | some c => (readField 24 s).bind fun s => .go (s.setPal sl.idx c)

/-- `ReadGroup(G)` (R142): the slots in order, from block-local slot `j` on. -/
def readGroup (j : BitVec 2) (slots : List Slot) (s : State) : Micro :=
  match slots with
  | [] => .go s
  | sl :: rest => (readSlot j sl s).bind (readGroup (j + 1) rest)

/-! ### Tile fill (R146 to R148) -/

/-- `SCR[p]` (R36); there is no entry at or above 768, and none is ever asked for. -/
def scrAt (scr : Vector Byte 768) (p : Nat) : Byte := if h : p < 768 then scr[p] else 0

/-- `PutTile(p, c)` (R148): the components of `c` into the Y, Cb and Cr planes of the 4:4:4 layout, for a tile position
`p` in 0..63. -/
def putTile (p : Nat) (c : Color) (scr : Vector Byte 768) : Vector Byte 768 :=
  if h : p < 64 then
    ((scr.set p (c.extractLsb' 16 8) (by omega)).set (64 + p) (c.extractLsb' 8 8) (by omega)).set
      (128 + p) (c.extractLsb' 0 8) (by omega)
  else scr

/-- `FillSolid()` (R146): all 64 positions with the color slot 0 maps to. -/
def fillSolid (s : State) : Micro :=
  .go { s with scr := (List.range 64).foldl (fun scr p => putTile p (s.palAt (s.mapAt 0)) scr) s.scr }

/-- The fields of a bitmap of `bits` bits each, in raster order, position 0 from the most significant bits (R86). -/
def bitmapFields {n : Nat} (bits : Nat) (m : BitVec n) : List (BitVec 2) :=
  (List.range 64).map fun p => BitVec.ofNat 2 (m.toNat / 2 ^ (bits * (63 - p)) % 2 ^ bits)

/-- `FillBitmap(bits)` (R147) from position `p` on: read a field, then put the color it selects. -/
def fillBitmapFrom (bits p : Nat) (fields : List (BitVec 2)) (s : State) : Micro :=
  match fields with
  | [] => .go s
  | v :: rest =>
    (readField bits s).bind fun s =>
      fillBitmapFrom bits (p + 1) rest { s with scr := putTile p (s.palAt (s.mapAt v)) s.scr }

/-- `FillBitmap(bits)` (R147). -/
def fillBitmap (bits : Nat) (fields : List (BitVec 2)) (s : State) : Micro := fillBitmapFrom bits 0 fields s

end Sys2Proof.Machine
end

