-- ==== Sys2Proof/Machine/Convert.lean ====
section
/-!
DEFINITION. The color converter (spec 45_color_converter.md): the ROM tables with the contents the spec lists, the clamp,
the pixel function, and the two tile conversions with their bounds-checked output writes.
-/

namespace Sys2Proof.Machine

/-! ### The ROM (R37, R193 to R197, R206) -/

/-- `Ytab[0..255]` (R193). -/
def Rom.ytab : List Int :=
  [-19, -18, -17, -16, -14, -13, -12, -11, -10, -9, -7, -6, -5, -4, -3, -2] ++
  [0, 1, 2, 3, 4, 5, 6, 8, 9, 10, 11, 12, 13, 15, 16, 17] ++
  [18, 19, 20, 22, 23, 24, 25, 26, 27, 29, 30, 31, 32, 33, 34, 36] ++
  [37, 38, 39, 40, 41, 43, 44, 45, 46, 47, 48, 50, 51, 52, 53, 54] ++
  [55, 57, 58, 59, 60, 61, 62, 64, 65, 66, 67, 68, 69, 71, 72, 73] ++
  [74, 75, 76, 77, 79, 80, 81, 82, 83, 84, 86, 87, 88, 89, 90, 91] ++
  [93, 94, 95, 96, 97, 98, 100, 101, 102, 103, 104, 105, 107, 108, 109, 110] ++
  [111, 112, 114, 115, 116, 117, 118, 119, 121, 122, 123, 124, 125, 126, 128, 129] ++
  [130, 131, 132, 133, 135, 136, 137, 138, 139, 140, 142, 143, 144, 145, 146, 147] ++
  [148, 150, 151, 152, 153, 154, 155, 157, 158, 159, 160, 161, 162, 164, 165, 166] ++
  [167, 168, 169, 171, 172, 173, 174, 175, 176, 178, 179, 180, 181, 182, 183, 185] ++
  [186, 187, 188, 189, 190, 192, 193, 194, 195, 196, 197, 199, 200, 201, 202, 203] ++
  [204, 206, 207, 208, 209, 210, 211, 213, 214, 215, 216, 217, 218, 219, 221, 222] ++
  [223, 224, 225, 226, 228, 229, 230, 231, 232, 233, 235, 236, 237, 238, 239, 240] ++
  [242, 243, 244, 245, 246, 247, 249, 250, 251, 252, 253, 254, 256, 257, 258, 259] ++
  [260, 261, 263, 264, 265, 266, 267, 268, 270, 271, 272, 273, 274, 275, 277, 278]

/-- `CrToR[0..255]` (R194). -/
def Rom.crToR : List Int :=
  [-205, -203, -202, -200, -199, -197, -195, -194, -192, -191, -189, -187, -186, -184, -183, -181] ++
  [-179, -178, -176, -175, -173, -171, -170, -168, -167, -165, -163, -162, -160, -159, -157, -155] ++
  [-154, -152, -151, -149, -147, -146, -144, -143, -141, -139, -138, -136, -135, -133, -132, -130] ++
  [-128, -127, -125, -124, -122, -120, -119, -117, -116, -114, -112, -111, -109, -108, -106, -104] ++
  [-103, -101, -100, -98, -96, -95, -93, -92, -90, -88, -87, -85, -84, -82, -80, -79] ++
  [-77, -76, -74, -72, -71, -69, -68, -66, -64, -63, -61, -60, -58, -56, -55, -53] ++
  [-52, -50, -48, -47, -45, -44, -42, -40, -39, -37, -36, -34, -32, -31, -29, -28] ++
  [-26, -24, -23, -21, -20, -18, -16, -15, -13, -12, -10, -8, -7, -5, -4, -2] ++
  [0, 1, 3, 4, 6, 7, 9, 11, 12, 14, 15, 17, 19, 20, 22, 23] ++
  [25, 27, 28, 30, 31, 33, 35, 36, 38, 39, 41, 43, 44, 46, 47, 49] ++
  [51, 52, 54, 55, 57, 59, 60, 62, 63, 65, 67, 68, 70, 71, 73, 75] ++
  [76, 78, 79, 81, 83, 84, 86, 87, 89, 91, 92, 94, 95, 97, 99, 100] ++
  [102, 103, 105, 107, 108, 110, 111, 113, 115, 116, 118, 119, 121, 123, 124, 126] ++
  [127, 129, 131, 132, 134, 135, 137, 138, 140, 142, 143, 145, 146, 148, 150, 151] ++
  [153, 154, 156, 158, 159, 161, 162, 164, 166, 167, 169, 170, 172, 174, 175, 177] ++
  [178, 180, 182, 183, 185, 186, 188, 190, 191, 193, 194, 196, 198, 199, 201, 202]

/-- `CbToB[0..255]` (R195). -/
def Rom.cbToB : List Int :=
  [-258, -256, -254, -252, -250, -248, -246, -244, -242, -240, -238, -236, -234, -232, -230, -228] ++
  [-226, -224, -222, -220, -218, -216, -214, -212, -210, -208, -206, -204, -202, -200, -198, -196] ++
  [-194, -192, -190, -188, -186, -184, -182, -180, -178, -176, -174, -172, -170, -168, -166, -164] ++
  [-162, -160, -158, -156, -154, -152, -150, -148, -146, -144, -142, -140, -138, -136, -134, -132] ++
  [-129, -127, -125, -123, -121, -119, -117, -115, -113, -111, -109, -107, -105, -103, -101, -99] ++
  [-97, -95, -93, -91, -89, -87, -85, -83, -81, -79, -77, -75, -73, -71, -69, -67] ++
  [-65, -63, -61, -59, -57, -55, -53, -51, -49, -47, -45, -43, -41, -39, -37, -35] ++
  [-33, -31, -29, -27, -25, -23, -21, -19, -17, -15, -13, -11, -9, -7, -5, -3] ++
  [0, 2, 4, 6, 8, 10, 12, 14, 16, 18, 20, 22, 24, 26, 28, 30] ++
  [32, 34, 36, 38, 40, 42, 44, 46, 48, 50, 52, 54, 56, 58, 60, 62] ++
  [64, 66, 68, 70, 72, 74, 76, 78, 80, 82, 84, 86, 88, 90, 92, 94] ++
  [96, 98, 100, 102, 104, 106, 108, 110, 112, 114, 116, 118, 120, 122, 124, 126] ++
  [129, 131, 133, 135, 137, 139, 141, 143, 145, 147, 149, 151, 153, 155, 157, 159] ++
  [161, 163, 165, 167, 169, 171, 173, 175, 177, 179, 181, 183, 185, 187, 189, 191] ++
  [193, 195, 197, 199, 201, 203, 205, 207, 209, 211, 213, 215, 217, 219, 221, 223] ++
  [225, 227, 229, 231, 233, 235, 237, 239, 241, 243, 245, 247, 249, 251, 253, 255]

/-- `CrToG[0..255]` (R196). -/
def Rom.crToG : List Int :=
  [104, 103, 102, 101, 100, 99, 99, 98, 97, 96, 95, 95, 94, 93, 92, 91] ++
  [91, 90, 89, 88, 87, 86, 86, 85, 84, 83, 82, 82, 81, 80, 79, 78] ++
  [78, 77, 76, 75, 74, 73, 73, 72, 71, 70, 69, 69, 68, 67, 66, 65] ++
  [65, 64, 63, 62, 61, 60, 60, 59, 58, 57, 56, 56, 55, 54, 53, 52] ++
  [52, 51, 50, 49, 48, 47, 47, 46, 45, 44, 43, 43, 42, 41, 40, 39] ++
  [39, 38, 37, 36, 35, 34, 34, 33, 32, 31, 30, 30, 29, 28, 27, 26] ++
  [26, 25, 24, 23, 22, 21, 21, 20, 19, 18, 17, 17, 16, 15, 14, 13] ++
  [13, 12, 11, 10, 9, 8, 8, 7, 6, 5, 4, 4, 3, 2, 1, 0] ++
  [0, -1, -2, -3, -4, -5, -5, -6, -7, -8, -9, -9, -10, -11, -12, -13] ++
  [-13, -14, -15, -16, -17, -18, -18, -19, -20, -21, -22, -22, -23, -24, -25, -26] ++
  [-26, -27, -28, -29, -30, -31, -31, -32, -33, -34, -35, -35, -36, -37, -38, -39] ++
  [-39, -40, -41, -42, -43, -44, -44, -45, -46, -47, -48, -48, -49, -50, -51, -52] ++
  [-52, -53, -54, -55, -56, -57, -57, -58, -59, -60, -61, -61, -62, -63, -64, -65] ++
  [-65, -66, -67, -68, -69, -70, -70, -71, -72, -73, -74, -74, -75, -76, -77, -78] ++
  [-78, -79, -80, -81, -82, -83, -83, -84, -85, -86, -87, -87, -88, -89, -90, -91] ++
  [-91, -92, -93, -94, -95, -96, -96, -97, -98, -99, -100, -100, -101, -102, -103, -104]

/-- `CbToG[0..255]` (R197). -/
def Rom.cbToG : List Int :=
  [50, 49, 49, 48, 48, 48, 47, 47, 46, 46, 46, 45, 45, 44, 44, 44] ++
  [43, 43, 42, 42, 42, 41, 41, 41, 40, 40, 39, 39, 39, 38, 38, 37] ++
  [37, 37, 36, 36, 35, 35, 35, 34, 34, 33, 33, 33, 32, 32, 32, 31] ++
  [31, 30, 30, 30, 29, 29, 28, 28, 28, 27, 27, 26, 26, 26, 25, 25] ++
  [25, 24, 24, 23, 23, 23, 22, 22, 21, 21, 21, 20, 20, 19, 19, 19] ++
  [18, 18, 17, 17, 17, 16, 16, 16, 15, 15, 14, 14, 14, 13, 13, 12] ++
  [12, 12, 11, 11, 10, 10, 10, 9, 9, 8, 8, 8, 7, 7, 7, 6] ++
  [6, 5, 5, 5, 4, 4, 3, 3, 3, 2, 2, 1, 1, 1, 0, 0] ++
  [0, -1, -1, -2, -2, -2, -3, -3, -4, -4, -4, -5, -5, -6, -6, -6] ++
  [-7, -7, -8, -8, -8, -9, -9, -9, -10, -10, -11, -11, -11, -12, -12, -13] ++
  [-13, -13, -14, -14, -15, -15, -15, -16, -16, -17, -17, -17, -18, -18, -18, -19] ++
  [-19, -20, -20, -20, -21, -21, -22, -22, -22, -23, -23, -24, -24, -24, -25, -25] ++
  [-25, -26, -26, -27, -27, -27, -28, -28, -29, -29, -29, -30, -30, -31, -31, -31] ++
  [-32, -32, -33, -33, -33, -34, -34, -34, -35, -35, -36, -36, -36, -37, -37, -38] ++
  [-38, -38, -39, -39, -40, -40, -40, -41, -41, -42, -42, -42, -43, -43, -43, -44] ++
  [-44, -45, -45, -45, -46, -46, -47, -47, -47, -48, -48, -49, -49, -49, -50, -50]

/-- `RL[0..1407]` (R201). There is no entry at or above 1408, and none is ever asked for (R200); the function answers 0
there. Log entry 24. -/
def Rom.rangeLimit (i : Nat) : Byte :=
  if i < 256 then 0
  else if i < 512 then BitVec.ofNat 8 (i - 256)
  else if i < 896 then 255
  else if i < 1280 then 0
  else if i < 1408 then BitVec.ofNat 8 (i - 1280)
  else 0

/-- An entry of a coefficient table, indexed by the raw sample (R191). -/
def Rom.at (table : List Int) (i : Byte) : Int := table.getD i.toNat 0

/-! ### One pixel (R190, R198, R200) -/

/-- `Limit(v)` (R200). -/
def limit (v : Int) : Byte := Rom.rangeLimit (if 0 ≤ v then (v + 256).toNat else 0)

/-- The red sum (R190). -/
def sumR (y cr : Byte) : Int := Rom.at Rom.ytab y + Rom.at Rom.crToR cr

/-- The green sum (R190). -/
def sumG (y cb cr : Byte) : Int := Rom.at Rom.ytab y + Rom.at Rom.cbToG cb + Rom.at Rom.crToG cr

/-- The blue sum (R190). -/
def sumB (y cb : Byte) : Int := Rom.at Rom.ytab y + Rom.at Rom.cbToB cb

/-- The three output bytes of one pixel. -/
structure Pixel where
  r : Byte
  g : Byte
  b : Byte
deriving DecidableEq, Repr

/-- `PIX(Y, Cb, Cr)` (R198). -/
def pix (y cb cr : Byte) : Pixel := { r := limit (sumR y cr), g := limit (sumG y cb cr), b := limit (sumB y cb) }

/-- The bytes a pixel is stored as: R, G, B and, for 4 bytes per pixel, the pad byte 0x00 (R63, R205). -/
def pixelBytes (bpp : Nat) (px : Pixel) : List Byte :=
  if bpp = 4 then [px.r, px.g, px.b, 0] else [px.r, px.g, px.b]

/-- The offset of a pixel's first byte (R63): the row stride is the true width. -/
def pixelOffset (l : Latched) (x y : Nat) : Nat := (y * l.w + x) * l.bpp

/-- `PutPixel(X, Y, px)` (R205). -/
def putPixel (l : Latched) (x y : Nat) (px : Pixel) (b : Buffer) : Buffer :=
  { b with cells := Memory.storeAll b.cells (pixelOffset l x y) (pixelBytes l.bpp px) }

/-- `PutPixel` under the bounds check of both conversion paths: each coordinate against the true size (R203, R204). -/
def putPixelChecked (l : Latched) (x y : Nat) (px : Pixel) (b : Buffer) : Buffer :=
  if x < l.w ∧ y < l.h then putPixel l x y px b else b

/-! ### Tiles -/

/-- Tile position `p = 8*row + col` of a 4:4:4 block at `(bx, by)` (R203). -/
def pixel444 (l : Latched) (scr : Vector Byte 768) (bx byy p : Nat) (b : Buffer) : Buffer :=
  putPixelChecked l (8 * bx + p % 8) (8 * byy + p / 8) (pix (scrAt scr p) (scrAt scr (64 + p)) (scrAt scr (128 + p))) b

/-- `Convert444(bx, by)` (R203): the 64 positions in raster order. -/
def convert444 (bx byy : Nat) (s : State) : State :=
  { s with work := s.work.map fun b => (List.range 64).foldl (fun b p => pixel444 s.latched s.scr bx byy p b) b }

/-- Position `p = 16*row + col` of a 4:2:0 macroblock at `(bx, by)`: the luma sub-tile by quadrant, the chroma sample
shared by a 2x2 luma block (R204). -/
def pixel420 (l : Latched) (scr : Vector Byte 768) (bx byy p : Nat) (b : Buffer) : Buffer :=
  let row := p / 16
  let col := p % 16
  let q := 2 * (row / 8) + col / 8
  let yi := 64 * q + 8 * (row % 8) + col % 8
  let ci := 8 * (row / 2) + col / 2
  putPixelChecked l (16 * bx + col) (16 * byy + row) (pix (scrAt scr yi) (scrAt scr (256 + ci)) (scrAt scr (320 + ci))) b

/-- `Convert420(bx, by)` (R204). No block reaches it (R207); the unit has it. -/
def convert420 (bx byy : Nat) (s : State) : State :=
  { s with work := s.work.map fun b => (List.range 256).foldl (fun b p => pixel420 s.latched s.scr bx byy p b) b }

end Sys2Proof.Machine
end

