-- ==== Sys2Proof/Machine/Transform.lean ====
section
/-!
DEFINITION. The transform-coded kinds 000, 010, 100 with either S bit: each raises `UnsupportedBlockKind` at its tag's
first bit, reading no coordinate field (spec 44_block_decoder.md rules R166, R168, R170, R172, R176, R178, R180).
-/

namespace Sys2Proof.Machine

/-- A tag whose meaning is an error at its own first bit `p0`: the 4-bit tag is read, then the error is raised at `p0`
(R160, R161). -/
def faultingTag (code : ErrCode) (s : State) : Micro :=
  (readTag s).bind fun s' => .ended (takeFault code s.pos s')

/-- Tag 0x0, TC1 (R168). -/
def execTc1 (s : State) : Host.Outcome State Fault Refusal := (faultingTag .unsupportedBlockKind s).outcome

/-- Tag 0x2, TC2 (R170). -/
def execTc2 (s : State) : Host.Outcome State Fault Refusal := (faultingTag .unsupportedBlockKind s).outcome

/-- Tag 0x4, TC1H (R172). -/
def execTc1h (s : State) : Host.Outcome State Fault Refusal := (faultingTag .unsupportedBlockKind s).outcome

/-- Tag 0x8, TC1.S (R176): the S bit is ignored. -/
def execTc1S (s : State) : Host.Outcome State Fault Refusal := (faultingTag .unsupportedBlockKind s).outcome

/-- Tag 0xA, TC2.S (R178): the S bit is ignored. -/
def execTc2S (s : State) : Host.Outcome State Fault Refusal := (faultingTag .unsupportedBlockKind s).outcome

/-- Tag 0xC, TC1H.S (R180): the S bit is ignored. -/
def execTc1hS (s : State) : Host.Outcome State Fault Refusal := (faultingTag .unsupportedBlockKind s).outcome

end Sys2Proof.Machine
end

