-- ==== Sys2Proof/Machine/EndUnknown.lean ====
section
/-!
DEFINITION. The end-of-stream kind 001 and the unknown kind 011, with either S bit, which is ignored (spec
44_block_decoder.md rules R165, R167, R169, R171, R177, R179).
-/

namespace Sys2Proof.Machine

/-- The end tag (R165): its 4 bits, then the frame ends successfully with END_REASON = 0; no further bit is read and
the scanner does not advance. -/
def endingTag (s : State) : Micro := (readTag s).bind fun s' => .ended (endSuccess .endTag s')

/-- Tag 0x1, END (R169). -/
def execEndTag (s : State) : Host.Outcome State Fault Refusal := (endingTag s).outcome

/-- Tag 0x9, END.S (R177): behaves exactly as END. -/
def execEndTagS (s : State) : Host.Outcome State Fault Refusal := (endingTag s).outcome

/-- Tag 0x3, UNK (R171). -/
def execUnk (s : State) : Host.Outcome State Fault Refusal := (faultingTag .unknownBlockTag s).outcome

/-- Tag 0xB, UNK.S (R179). -/
def execUnkS (s : State) : Host.Outcome State Fault Refusal := (faultingTag .unknownBlockTag s).outcome

end Sys2Proof.Machine
end

