-- ==== Sys2Proof/Machine/Vq.lean ====
section
/-!
DEFINITION. The vector-quantization kinds 101, 110, 111 with either S bit (spec 44_block_decoder.md rules R163, R164,
R173 to R175, R181 to R183).
-/

namespace Sys2Proof.Machine

/-- `VQBlock(S, K, p0)` (R163) after the tag read: the 4:2:0 check (R164) before any field, the coordinates, the palette
group, the tile fill, the conversion at the block's coordinates, the scanner's advance. -/
def vqBlock (at? : Option Coord) (slots : List Slot) (fill : State → Micro) (s : State) : Micro :=
  (readTag s).bind fun s1 =>
    if s1.latched.m420 then .ended (takeFault .unsupportedBlockKind s.pos s1)
    else
      ((readCoords at? s1).bind (readGroup 0 slots)).bind fun s2 =>
        (fill s2).bind fun s3 =>
          .go (scannerAdvance (convert444 (blockAt at? s3).1 (blockAt at? s3).2 s3))

/-- Tag 0x5, VQ1 (R173): one slot, solid fill. -/
def execVq1 (s0 : Slot) (s : State) : Host.Outcome State Fault Refusal := (vqBlock none [s0] fillSolid s).outcome

/-- Tag 0x6, VQ2 (R174): two slots, 1 bit per position. -/
def execVq2 (s0 s1 : Slot) (bitmap : BitVec 64) (s : State) : Host.Outcome State Fault Refusal :=
  (vqBlock none [s0, s1] (fillBitmap 1 (bitmapFields 1 bitmap)) s).outcome

/-- Tag 0x7, VQ4 (R175): four slots, 2 bits per position. -/
def execVq4 (s0 s1 s2 s3 : Slot) (bitmap : BitVec 128) (s : State) : Host.Outcome State Fault Refusal :=
  (vqBlock none [s0, s1, s2, s3] (fillBitmap 2 (bitmapFields 2 bitmap)) s).outcome

/-- Tag 0xD, VQ1.S (R181). -/
def execVq1S (c : Coord) (s0 : Slot) (s : State) : Host.Outcome State Fault Refusal :=
  (vqBlock (some c) [s0] fillSolid s).outcome

/-- Tag 0xE, VQ2.S (R182). -/
def execVq2S (c : Coord) (s0 s1 : Slot) (bitmap : BitVec 64) (s : State) : Host.Outcome State Fault Refusal :=
  (vqBlock (some c) [s0, s1] (fillBitmap 1 (bitmapFields 1 bitmap)) s).outcome

/-- Tag 0xF, VQ4.S (R183). -/
def execVq4S (c : Coord) (s0 s1 s2 s3 : Slot) (bitmap : BitVec 128) (s : State) : Host.Outcome State Fault Refusal :=
  (vqBlock (some c) [s0, s1, s2, s3] (fillBitmap 2 (bitmapFields 2 bitmap)) s).outcome

end Sys2Proof.Machine
end

