-- ==== Sys2Proof/Machine/Dispatch.lean ====
section
/-!
DEFINITION. One arm per block of spec/opcode_table.json.
-/

namespace Sys2Proof.Machine

def exec (i : Instr) (s : State) : Host.Outcome State Fault Refusal :=
  match i with
  | .tc1 => Sys2Proof.Machine.execTc1 s
  | .endTag => Sys2Proof.Machine.execEndTag s
  | .tc2 => Sys2Proof.Machine.execTc2 s
  | .unk => Sys2Proof.Machine.execUnk s
  | .tc1h => Sys2Proof.Machine.execTc1h s
  | .vq1 s0 => Sys2Proof.Machine.execVq1 s0 s
  | .vq2 s0 s1 bitmap => Sys2Proof.Machine.execVq2 s0 s1 bitmap s
  | .vq4 s0 s1 s2 s3 bitmap => Sys2Proof.Machine.execVq4 s0 s1 s2 s3 bitmap s
  | .tc1S => Sys2Proof.Machine.execTc1S s
  | .endTagS => Sys2Proof.Machine.execEndTagS s
  | .tc2S => Sys2Proof.Machine.execTc2S s
  | .unkS => Sys2Proof.Machine.execUnkS s
  | .tc1hS => Sys2Proof.Machine.execTc1hS s
  | .vq1S c s0 => Sys2Proof.Machine.execVq1S c s0 s
  | .vq2S c s0 s1 bitmap => Sys2Proof.Machine.execVq2S c s0 s1 bitmap s
  | .vq4S c s0 s1 s2 s3 bitmap => Sys2Proof.Machine.execVq4S c s0 s1 s2 s3 bitmap s

end Sys2Proof.Machine
end

