-- ==== Sys2Proof/Machine/Quant.lean ====
section
/-!
DEFINITION. The quantization-table builder (spec 42_quant_tables.md).
-/

namespace Sys2Proof.Machine

/-- The AAN vector in units of 10^-7, exact (R122). -/
def aan : List Nat := [10000000, 13870400, 13065630, 11758760, 10000000, 7856950, 5411961, 2758994]

/-- `NATURAL[k]`: the row-major index of zig-zag index `k` (R125). -/
def naturalOrder : List Nat :=
  [0, 1, 8, 16, 9, 2, 3, 10, 17, 24, 32, 25, 18, 11, 4, 5] ++
  [12, 19, 26, 33, 40, 48, 41, 34, 27, 20, 13, 6, 7, 14, 21, 28] ++
  [35, 42, 49, 56, 57, 50, 43, 36, 29, 22, 15, 23, 30, 37, 44, 51] ++
  [58, 59, 52, 45, 38, 31, 39, 46, 53, 60, 61, 54, 47, 55, 62, 63]

/-- Step 2 (R124): `clamp((base * 16) div sf, 1, 255)`. -/
def scaleClamp (base sf : Nat) : Nat := min (max (base * 16 / sf) 1) 255

/-- Step 4 (R126): `round(tmp * AAN[row] * AAN[col] * 65536)` of the exact rational product. -/
def aanScale (t row col : Nat) : Nat :=
  (roundRat (t * aan.getD row 0 * aan.getD col 0 * 65536 : Nat) (10 ^ 14)).toNat

/-- Steps 2 to 4 for row-major entry `i` of a table with base entries `base`: the zig-zag index of `i` is its position
in `NATURAL`, a permutation of 0..63 (R125). -/
def quantEntry (base : Nat → Byte) (sf i : Nat) : Nat :=
  aanScale (scaleClamp (base (naturalOrder.idxOf i)).toNat sf) (i / 8) (i % 8)

/-- `BuildQT` on given base entries (R121): 64 entries, row-major. -/
def buildTable (base : Nat → Byte) (sf : Nat) : Vector (BitVec 25) 64 :=
  Vector.ofFn fun i => BitVec.ofNat 25 (quantEntry base sf i.val)

/-- `BuildQT(sel, var, sf)` (R121, R123) with the scale factor of a build (R128). -/
def buildQt (sel : BitVec 3) (var : Variant) (b : Build) : Vector (BitVec 25) 64 :=
  buildTable (Config.baseTable sel var) (Config.scaleFactor b)

/-- The variant of the chroma builds (R128). -/
def chromaVariant (mapping : Bool) : Variant := if mapping then .luma else .chroma

/-- `BuildAllQT()` (R128, R237), from the latched selectors. -/
def buildAllQt (s : State) : State :=
  { s with
    qt := #v[buildQt s.latched.qtSel .luma .y1,
             buildQt s.latched.qtSel (chromaVariant s.latched.mapping) .c1,
             buildQt s.latched.advSel .luma .y2,
             buildQt s.latched.advSel (chromaVariant s.latched.mapping) .c2] }

end Sys2Proof.Machine
end

