-- ==== Sys2Proof/Machine/Commands.lean ====
section
/-!
DEFINITION. The three commands RESET, DESTROY, DECODE with the set-up of a DECODE (spec 47_frame_loop.md rules R230 to
R239, R245).
-/

namespace Sys2Proof.Machine

/-- RESET (R231): accepted in every state but BUSY, where every access is refused before this is reached. QT, SCR, the
descriptor registers, the cursor and the latched values are not written. -/
def resetCommand (s : State) : Host.Outcome State Fault Refusal :=
  .next { s with
    pal := palDefaults
    map := mapDefaults
    pub := none
    phase := .ready
    errCode := .none
    endReason := .endTag
    errWord := 0
    errBit := 0
    errMb := 0 }

/-- What DESTROY leaves (R232): PUB is discarded, STATE is UNINIT, and PAL, MAP, QT and SCR, which the spec leaves
undefined, hold free values. Log entry 10. -/
def destroyed (s : State) : State :=
  { s with
    pub := none
    phase := .uninit
    pal := Vector.ofFn fun i => Config.drawPal s.draws i.val
    map := Vector.ofFn fun i => Config.drawMap s.draws i.val
    qt := Vector.ofFn fun t => Vector.ofFn fun i => Config.drawQt s.draws t.val i.val
    scr := Vector.ofFn fun p => Config.drawScr s.draws p.val
    draws := s.draws + 1 }

/-- DESTROY (R232), refused in UNINIT (R245). -/
def destroyCommand (s : State) : Host.Outcome State Fault Refusal :=
  match s.phase with
  | .uninit => .refused .noDecoder
  | .busy => .refused .busyAccess
  | .ready => .next (destroyed s)
  | .error => .next (destroyed s)

/-! ### DECODE -/

/-- `Latch()` (R234), from the five registers a DECODE reads (R28, R29). -/
def latchOf (width height compSize mode config : Word) : Latched :=
  { w := width.toNat
    h := height.toNat
    n := compSize.toNat / 4
    m420 := mode.getLsbD 0
    qtSel := mode.extractLsb' 4 3
    advSel := mode.extractLsb' 8 3
    mapping := mode.getLsbD 12
    bpp := if config.getLsbD 0 then 4 else 3 }

/-- `PUB` when it exists with the geometry this DECODE has latched (R238). -/
def matchingPub (s : State) : Option Buffer :=
  match s.pub with
  | some p => if p.w = s.latched.w ∧ p.h = s.latched.h ∧ p.bpp = s.latched.bpp then some p.buf else none
  | none => none

/-- `InitWork()` (R238): a copy of PUB when the geometry is unchanged, else every byte drawn. Log entry 9. -/
def initWork (s : State) : State :=
  match matchingPub s with
  | some b => { s with work := some b }
  | none => { s with work := some { draw := s.draws, cells := [] }, draws := s.draws + 1 }

/-- The start of the scanner (R222, R239). -/
def initScanner (s : State) : State := { s with sx := 0, sy := 0 }

/-- A DECODE with its registers latched (R233): the header check, then the set-up of R236 to R239. STATE is BUSY and
the frame loop begins with the core's next step. -/
def startDecode (l : Latched) (s : State) : State :=
  let s := { s with phase := .busy, latched := l }
  if headerOk s.params l then initScanner (initCursor (initWork (buildAllQt s)))
  else takeFault .headerInconsistent 0 s

/-- DECODE in a state that has a decoder: accepted when the five registers have been written (R42, R245). -/
def decodeAccepted (s : State) : Host.Outcome State Fault Refusal :=
  match s.desc.width, s.desc.height, s.desc.compSize, s.desc.mode, s.desc.config with
  | some w, some h, some c, some m, some g => .next (startDecode (latchOf w h c m g) s)
  | _, _, _, _, _ => .refused .descriptorUnwritten

/-- DECODE (R233) with the acceptance table (R245). -/
def decodeCommand (s : State) : Host.Outcome State Fault Refusal :=
  match s.phase with
  | .uninit => .refused .noDecoder
  | .busy => .refused .busyAccess
  | .ready => decodeAccepted s
  | .error => decodeAccepted s

/-- A write of `v` to CMD (R30, R230). -/
def command (v : Word) (s : State) : Host.Outcome State Fault Refusal :=
  if v = 1 then resetCommand s
  else if v = 2 then decodeCommand s
  else if v = 3 then destroyCommand s
  else .refused (.unknownCommand v)

end Sys2Proof.Machine
end

