-- ==== Sys2Proof/Machine/HostPort.lean ====
section
/-!
DEFINITION. The host's accesses: the register map, the PAYLOAD writes and the PUB reads, with the spec's refusals (spec
10_state.md rules R27, R30, R42, R43; 47_frame_loop.md rules R244, R245, R248).
-/

namespace Sys2Proof.Machine

/-- The byte offset of each descriptor register (R27). -/
def Desc.offset (d : Desc) : Nat :=
  match d with
  | .width => 0x14
  | .height => 0x18
  | .compSize => 0x1C
  | .mode => 0x20
  | .config => 0x24
  | .srcX => 0x28
  | .srcY => 0x2C
  | .srcDepth => 0x30
  | .srcRate => 0x34
  | .srcIndex => 0x38
  | .dstX => 0x3C
  | .dstY => 0x40
  | .dstDepth => 0x44
  | .dstRate => 0x48
  | .dstIndex => 0x4C
  | .frameStart => 0x50
  | .frameNumber => 0x54
  | .frameSize => 0x58

/-- Every descriptor register. -/
def allDescs : List Desc :=
  [.width, .height, .compSize, .mode, .config, .srcX, .srcY, .srcDepth, .srcRate, .srcIndex, .dstX, .dstY, .dstDepth,
   .dstRate, .dstIndex, .frameStart, .frameNumber, .frameSize]

/-- The descriptor register at an offset, if there is one (R27). -/
def descAt (off : Nat) : Option Desc := allDescs.find? fun d => d.offset == off

/-- The content of a descriptor register. -/
def Descriptors.get (ds : Descriptors) (d : Desc) : Option Word :=
  match d with
  | .width => ds.width
  | .height => ds.height
  | .compSize => ds.compSize
  | .mode => ds.mode
  | .config => ds.config
  | .srcX => ds.srcX
  | .srcY => ds.srcY
  | .srcDepth => ds.srcDepth
  | .srcRate => ds.srcRate
  | .srcIndex => ds.srcIndex
  | .dstX => ds.dstX
  | .dstY => ds.dstY
  | .dstDepth => ds.dstDepth
  | .dstRate => ds.dstRate
  | .dstIndex => ds.dstIndex
  | .frameStart => ds.frameStart
  | .frameNumber => ds.frameNumber
  | .frameSize => ds.frameSize

/-- A write to a descriptor register: all 32 bits are held and read back (R28, R29). -/
def Descriptors.set (ds : Descriptors) (d : Desc) (v : Word) : Descriptors :=
  match d with
  | .width => { ds with width := some v }
  | .height => { ds with height := some v }
  | .compSize => { ds with compSize := some v }
  | .mode => { ds with mode := some v }
  | .config => { ds with config := some v }
  | .srcX => { ds with srcX := some v }
  | .srcY => { ds with srcY := some v }
  | .srcDepth => { ds with srcDepth := some v }
  | .srcRate => { ds with srcRate := some v }
  | .srcIndex => { ds with srcIndex := some v }
  | .dstX => { ds with dstX := some v }
  | .dstY => { ds with dstY := some v }
  | .dstDepth => { ds with dstDepth := some v }
  | .dstRate => { ds with dstRate := some v }
  | .dstIndex => { ds with dstIndex := some v }
  | .frameStart => { ds with frameStart := some v }
  | .frameNumber => { ds with frameNumber := some v }
  | .frameSize => { ds with frameSize := some v }

/-- A host write to the register space (R27, R43). -/
def writeReg (off : Nat) (v : Word) (s : State) : Host.Outcome State Fault Refusal :=
  if off = 0x00 then command v s
  else if off = 0x04 ∨ off = 0x08 ∨ off = 0x0C ∨ off = 0x10 then .refused (.writeOfReadOnly off)
  else
    match descAt off with
    | some d => .next { s with desc := s.desc.set d v }
    | none => .refused (.unknownRegister off)

/-- A host read of the register space (R27). A descriptor register that was never written holds no value, and its read is
refused (R42, R41: "unwritten"). -/
def readReg (off : Nat) (s : State) : Except Refusal Word :=
  if off = 0x00 then .error .readOfCmd
  else if off = 0x04 then .ok (statusWord s)
  else if off = 0x08 then .ok s.errWord
  else if off = 0x0C then .ok s.errBit
  else if off = 0x10 then .ok s.errMb
  else
    match descAt off with
    | some d =>
      match s.desc.get d with
      | some v => .ok v
      | none => .error (.registerUnwritten off)
    | none => .error (.unknownRegister off)

/-- A host read of one byte of PUB (R43, R60). -/
def readPub (off : Nat) (s : State) : Except Refusal Word :=
  match s.pub with
  | none => .error .noPublishedBuffer
  | some p => if off < p.size then .ok ((p.buf.byteAt off).zeroExtend 32) else .error (.beyondPublishedBuffer off)

/-- The end of a read access: the host holds the value; the core is unchanged (R65: no read has a side effect). -/
def answer (r : Except Refusal Word) (s : State) : Host.Outcome State Fault Refusal :=
  match r with
  | .ok v => .next { s with rdata := some v }
  | .error e => .refused e

/-- A host access while no DECODE runs. A write ends with no read value in the host's hand. -/
def idleAccess (a : HostAccess) (s : State) : Host.Outcome State Fault Refusal :=
  match a with
  | .writeReg off v => writeReg off v { s with rdata := none }
  | .readReg off => answer (readReg off s) s
  | .writePayload off v => .next { s with payload := Memory.store s.payload off.toNat v, rdata := none }
  | .readPub off => answer (readPub off s) s

/-- A host access (R43, R244): while STATE = BUSY everything but a STATUS read is refused. -/
def hostAccess (a : HostAccess) (s : State) : Host.Outcome State Fault Refusal :=
  if s.phase = .busy ∧ a ≠ .readReg 0x04 then .refused .busyAccess else idleAccess a s

end Sys2Proof.Machine
end

