-- ==== Sys2Proof/Machine/FrameLoop.lean ====
section
/-!
DEFINITION. The frame loop, one turn a step (spec 47_frame_loop.md rule R240), and the placing of a block where the
loop fetches its next one.
-/

namespace Sys2Proof.Machine

/-- The block at the cursor, decoded from the zero-extended stream (R103, R108). Log entry 14. -/
def decodeAt (s : State) : Except DecodeError Instr :=
  match decode s.params (fetchBits s) with
  | .ok (i, _) => .ok i
  | .error e => .error e

/-- One turn of `FrameLoop()` (R240): the payload bound ends the frame; else the block at the cursor runs. -/
def frameTurn (s : State) : Host.Outcome State Fault Refusal :=
  if s.latched.bitEnd ≤ s.pos then .next (endSuccess .payloadBound s)
  else
    match decodeAt s with
    | .ok i => exec i s
    | .error e => .refused (.undecodable e)

/-- The core's move: a turn of the frame loop while BUSY; else it is idle, all state retained (R246, R275). -/
def coreStep (s : State) : Host.Outcome State Fault Refusal :=
  if s.phase = .busy then frameTurn s else .next s

/-! ### A block placed for the next fetch (log entry 16) -/

/-- Payload byte `a` of a bit sequence, in the order `BYTE_LANE_ORDER` gives (R62). -/
def placedByte (p : Params) (bs : List Bool) (a : Nat) : Byte :=
  let w := wordOfBits bs (a / 4)
  match p.laneOrder with
  | .big => w.extractLsb' (8 * (3 - a % 4)) 8
  | .little => w.extractLsb' (8 * (a % 4)) 8

/-- The 32-bit words the longest block needs (R87). -/
def placedWords : Nat := (maxBlockBits + 31) / 32

/-- The payload with a bit sequence at its start. -/
def placePayload (p : Params) (bs : List Bool) (m : Memory) : Memory :=
  Memory.storeAll m 0 ((List.range (4 * placedWords)).map (placedByte p bs))

/-- The geometry of a DECODE for a placed block: the latched one where it is legal, else the smallest frame, 1x1. -/
def placedGeometry (s : State) : Latched :=
  if headerOk s.params s.latched then { s.latched with n := placedWords }
  else { s.latched with w := 1, h := 1, n := placedWords }

/-- `s` with the payload, its length and the geometry a placed block needs, the host doing nothing. -/
def placed (bs : List Bool) (s : State) : State :=
  { s with host := [], payload := placePayload s.params bs s.payload, latched := placedGeometry s }

/-- A DECODE whose payload begins with `bs` and whose cursor stands at bit 0: the running one, or, outside a DECODE, one
that has just begun (R238, R239). -/
def placeBlock (bs : List Bool) (s : State) : State :=
  initCursor (if s.phase = .busy then placed bs s else initScanner (initWork { placed bs s with phase := .busy }))

end Sys2Proof.Machine
end

