-- ==== Sys2Proof/Machine/Step.lean ====
section
/-!
DEFINITION. One step of the machine: the host's next action or the core's next move.
-/

namespace Sys2Proof.Machine

/-- One step. The host's list says who moves; with nothing left in it the host is silent and the core moves. -/
def step (s : State) : Host.Outcome State Fault Refusal :=
  match s.host with
  | [] => coreStep s
  | .access a :: rest => hostAccess a { s with host := rest }
  | .pause :: rest => coreStep { s with host := rest }
  | .awaitIdle :: rest => if s.phase = .busy then coreStep s else .next { s with host := rest }

/-- `s` with the instruction whose opcode-table bits are `w` stored where the next step fetches: a DECODE that has just
begun on a payload holding it. Log entry 16. -/
def State.withFetchWord (s : State) (nbits w : Nat) : State := placeBlock (tableWordBits nbits w) s

end Sys2Proof.Machine
end

