-- ==== Sys2Proof/Machine/BlockReader.lean ====
section
/-!
DEFINITION. The block decoder as spec 44_block_decoder.md writes it, reading the payload field by field with `Read(n)`
and using what each read returns. The machine does not run this text: its step decodes the block first and `exec` then
takes the decoded operands (FrameLoop.lean). It is here so that a statement can say that the two are the same machine.
-/

namespace Sys2Proof.Machine

/-- `v <- Read(n)`, then `f v` (R103); a fault ends the DECODE at the first bit of the field (R262). -/
def withRead (n : Nat) (s : State) (f : BitVec n → State → Micro) : Micro :=
  match read n s with
  | .error e => .ended (takeFault e s.pos s)
  | .ok (v, s') => f v s'

/-- `ReadCoords()` (R162), then `f (bx, by)`. -/
def readerCoords (s : State) (f : Nat × Nat → State → Micro) : Micro :=
  match s.params.coordBits with
  | .bits24 => withRead 24 s fun c s => f ((c.extractLsb' 16 8).toNat, (c.extractLsb' 8 8).toNat) s
  | .bits16 => withRead 16 s fun c s => f ((c.extractLsb' 8 8).toNat, (c.extractLsb' 0 8).toNat) s

/-- The index and the update flag of a slot, in the order of `SLOT_ORDER` (R142). -/
def readerSlotHead (s : State) (f : BitVec 2 → BitVec 1 → State → Micro) : Micro :=
  match s.params.slotOrder with
  | .indexFirst => withRead 2 s fun idx s => withRead 1 s fun u s => f idx u s
  | .flagFirst => withRead 1 s fun u s => withRead 2 s fun idx s => f idx u s

/-- One iteration of the loop of `ReadGroup` (R142). -/
def readerSlot (j : BitVec 2) (s : State) : Micro :=
  readerSlotHead s fun idx u s =>
    let s := s.setMap j idx
    if u = 1#1 then withRead 24 s fun c s => .go (s.setPal idx c) else .go s

/-- `ReadGroup(G)` (R142), `g` slots from block-local slot `j` on. -/
def readerGroup (g : Nat) (j : BitVec 2) (s : State) : Micro :=
  match g with
  | 0 => .go s
  | g + 1 => (readerSlot j s).bind (readerGroup g (j + 1))

/-- `FillBitmap(bits)` (R147), `m` positions from position `p` on. -/
def readerBitmap (bits m p : Nat) (s : State) : Micro :=
  match m with
  | 0 => .go s
  | m + 1 =>
    withRead bits s fun v s =>
      readerBitmap bits m (p + 1) { s with scr := putTile p (s.palAt (s.mapAt (v.setWidth 2))) s.scr }

/-- The group size of a VQ kind (R163). -/
def groupSize (k : BitVec 3) : Nat := if k = 5 then 1 else if k = 6 then 2 else 4

/-- `BitMapBits` of a VQ kind (R163). -/
def bitMapBits (k : BitVec 3) : Nat := if k = 5 then 0 else if k = 6 then 1 else 2

/-- The rest of `VQBlock` once the coordinates are known (R163). -/
def readerTile (k : BitVec 3) (at_ : Nat × Nat) (s : State) : Micro :=
  ((readerGroup (groupSize k) 0 s).bind
    (fun s => if bitMapBits k = 0 then fillSolid s else readerBitmap (bitMapBits k) 64 0 s)).bind
      fun s => .go (scannerAdvance (convert444 at_.1 at_.2 s))

/-- `VQBlock(S, K, p0)` (R163). -/
def readerVq (skip : Bool) (k : BitVec 3) (p0 : Nat) (s : State) : Micro :=
  if s.latched.m420 then .ended (takeFault .unsupportedBlockKind p0 s)
  else if skip then readerCoords s (readerTile k) else readerTile k (s.sx, s.sy) s

/-- `Block()` (R160, R161). -/
def blockReader (s : State) : Micro :=
  withRead 4 s fun tag s' =>
    let k := tag.extractLsb' 0 3
    if k = 3 then .ended (takeFault .unknownBlockTag s.pos s')
    else if k = 1 then .ended (endSuccess .endTag s')
    else if k = 0 ∨ k = 2 ∨ k = 4 then .ended (takeFault .unsupportedBlockKind s.pos s')
    else readerVq (tag.getLsbD 3) k s.pos s'

/-- One turn of `FrameLoop()` (R240) over `Block()`. -/
def readerTurn (s : State) : Host.Outcome State Fault Refusal :=
  if s.latched.bitEnd ≤ s.pos then .next (endSuccess .payloadBound s) else (blockReader s).outcome

end Sys2Proof.Machine
end

