-- ==== Sys2Proof/Safety.lean ====
section
/-!
DEFINITION. What a sound state of the core is, in the terms the claims use: the invariants the spec states for the
cursor, its window, the scanner, the output buffers, the quantization tables and the status fields.
-/

namespace Sys2Proof.Machine

/-- The window holds what R106 says: `W0` is the next 32 bits of the zero-extended stream, the top `CNT` bits of `W1`
are the bits after them and its other bits are 0, and `32*IDX = pos + 32 + CNT`. -/
structure WindowAgrees (s : State) : Prop where
  count     : s.window.cnt ≤ 32
  index     : 32 * s.window.idx = s.pos + 32 + s.window.cnt
  current   : ∀ k, k < 32 → s.window.w0.getMsbD k = streamBit s (s.pos + k)
  lookahead : ∀ k, k < s.window.cnt → s.window.w1.getMsbD k = streamBit s (s.pos + 32 + k)
  beyond    : ∀ k, s.window.cnt ≤ k → s.window.w1.getMsbD k = false

/-- Every entry of the quantization tables is in the range of R127. -/
def QuantInRange (s : State) : Prop :=
  ∀ (t : Fin 4) (i : Fin 64), 4989 ≤ (s.qt[t][i]).toNat ∧ (s.qt[t][i]).toNat ≤ 32151266

/-- An output buffer of `size` bytes: canonical, and no byte at or beyond its size (R63, R205). -/
structure BufferWithin (size : Nat) (b : Buffer) : Prop where
  canonical : Memory.wf b.cells = true
  within    : Memory.below size b.cells = true

/-- What holds while a DECODE runs. -/
structure Decoding (s : State) : Prop where
  /-- The header checks passed (R235). -/
  header   : headerOk s.params s.latched = true
  /-- `BPP` is 3 or 4 (R26). -/
  bpp      : s.latched.bpp = 3 ∨ s.latched.bpp = 4
  /-- `N` is below 2^30 (R9). -/
  words    : s.latched.n < 2 ^ 30
  /-- `pos` never exceeds `32*N` (R24). -/
  cursor   : s.pos ≤ s.latched.bitEnd
  /-- `SX < BPR` (R25, R220). -/
  scannerX : s.sx < s.latched.bpr
  /-- `SY < BPC` (R25, R220). -/
  scannerY : s.sy < s.latched.bpc
  /-- WORK exists and holds no byte beyond the frame (R38, R205). -/
  working  : ∃ b, s.work = some b ∧ BufferWithin s.latched.size b
  /-- The cursor window agrees with the stream (R106). -/
  window   : WindowAgrees s
  /-- The tables were rebuilt at the DECODE's start (R120, R127). -/
  quant    : QuantInRange s

/-- The state invariant of the core. -/
structure State.Inv (s : State) : Prop where
  /-- PAYLOAD is canonical and lies in its 32-bit byte space (R60). -/
  payload   : Memory.wf s.payload = true ∧ Memory.below (2 ^ 32) s.payload = true
  /-- PUB holds no byte beyond its geometry (R38, R60). -/
  published : ∀ p, s.pub = some p → BufferWithin p.size p.buf
  /-- While BUSY, the DECODE's own invariant. -/
  busy      : s.phase = .busy → Decoding s
  /-- There is no WORK outside a DECODE (R38, R41). -/
  idle      : s.phase ≠ .busy → s.work = none
  /-- READY reports no error (R243). -/
  ready     : s.phase = .ready → s.errCode = .none
  /-- ERROR reports one (R243). -/
  error     : s.phase = .error → s.errCode ≠ .none
  /-- Without a decoder there is no published buffer (R232, R280). -/
  uninit    : s.phase = .uninit → s.pub = none
  /-- `ERR_BIT` is a bit offset 0..31 (R27, R32). -/
  errBit    : s.errBit.toNat < 32

end Sys2Proof.Machine
end

