-- ==== Sys2Proof/Certificates/Slice0/Obligations.lean ====
section
/-!
DEFINITION. The statements for the provers: what the numbered rules of spec/ say the decoder core does. Words the
statements share stand first, under Sys2Proof.Claims.
-/

namespace Sys2Proof.Claims

open Sys2Proof.Machine

/-! ### Shared words -/

/-- The state after the four bits of a tag: the cursor, and with it the hidden window, past the tag (R160). -/
def afterTag (s : State) : State := { s with pos := s.pos + 4, window := (advanceCursor 4 s).window }

/-- `s` ended by the error `code` at position `p` (R242): the record EndFault writes, spelled out. -/
def faulted (code : ErrCode) (p : Nat) (s : State) : State :=
  { s with
    work := none
    phase := .error
    errCode := code
    errWord := BitVec.ofNat 32 (p / 32)
    errBit := BitVec.ofNat 32 (p % 32)
    errMb := BitVec.ofNat 16 s.sy ++ BitVec.ofNat 16 s.sx }

/-- `s` ended successfully for the reason `r` (R241), spelled out. -/
def finished (r : EndReason) (s : State) : State :=
  { s with
    pub := s.work.map fun b => { buf := b, w := s.latched.w, h := s.latched.h, bpp := s.latched.bpp }
    work := none
    phase := .ready
    errCode := .none
    endReason := r }

/-- The transform-coded tags 0x0, 0x2, 0x4, 0x8, 0xA, 0xC (R166). -/
def transformTags : List Instr := [.tc1, .tc2, .tc1h, .tc1S, .tc2S, .tc1hS]

/-- A VQ1 block (S = 0) or a VQ1.S block with its coordinates (S = 1). -/
def vq1Of (at? : Option Coord) (s0 : Slot) : Instr :=
  match at? with
  | none => .vq1 s0
  | some c => .vq1S c s0

/-- A VQ2 block or a VQ2.S block. -/
def vq2Of (at? : Option Coord) (s0 s1 : Slot) (bitmap : BitVec 64) : Instr :=
  match at? with
  | none => .vq2 s0 s1 bitmap
  | some c => .vq2S c s0 s1 bitmap

/-- A VQ4 block or a VQ4.S block. -/
def vq4Of (at? : Option Coord) (s0 s1 s2 s3 : Slot) (bitmap : BitVec 128) : Instr :=
  match at? with
  | none => .vq4 s0 s1 s2 s3 bitmap
  | some c => .vq4S c s0 s1 s2 s3 bitmap

/-- The operands of a VQ block: its coordinates if it has any, its slots, and its bits per position (R163). -/
def vqOperands (i : Instr) : Option (Option Coord × List Slot × Nat) :=
  match i with
  | .vq1 a => some (none, [a], 0)
  | .vq2 a b _ => some (none, [a, b], 1)
  | .vq4 a b c d _ => some (none, [a, b, c, d], 2)
  | .vq1S x a => some (some x, [a], 0)
  | .vq2S x a b _ => some (some x, [a, b], 1)
  | .vq4S x a b c d _ => some (some x, [a, b, c, d], 2)
  | .tc1 | .endTag | .tc2 | .unk | .tc1h | .tc1S | .endTagS | .tc2S | .unkS | .tc1hS => none

/-- A slot is 3 bits, or 27 with an update (R84). -/
def slotBits (sl : Slot) : Nat := if sl.color.isSome then 27 else 3

/-- The coordinate field's width, 0 for a block without one (R83). -/
def coordBits (p : Params) (at? : Option Coord) : Nat :=
  match at?, p.coordBits with
  | none, _ => 0
  | some _, .bits24 => 24
  | some _, .bits16 => 16

/-- The length of a VQ block (R87). -/
def vqBits (p : Params) (at? : Option Coord) (slots : List Slot) (bits : Nat) : Nat :=
  4 + coordBits p at? + (slots.map slotBits).sum + 64 * bits

/-- `PAL` after a palette group: the updates in slot order (R142, R144). -/
def palAfter (pal : Vector Color 4) (slots : List Slot) : Vector Color 4 :=
  match slots with
  | [] => pal
  | sl :: rest =>
    match sl.color with
    | some c => palAfter (pal.setIfInBounds sl.idx.toNat c) rest
    | none => palAfter pal rest

/-- `MAP` after a palette group whose first slot is block-local slot `j` (R142). -/
def mapAfter (map : Vector (BitVec 2) 4) (j : Nat) (slots : List Slot) : Vector (BitVec 2) 4 :=
  match slots with
  | [] => map
  | sl :: rest => mapAfter (map.setIfInBounds j sl.idx) (j + 1) rest

/-- The color the palette holds in the register a slot names. -/
def colorOf (pal : Vector Color 4) (sl : Slot) : Color := pal[sl.idx.toNat]'sl.idx.isLt

/-- The slot a 1-bit field selects at position `p` (R86, R147). -/
def select2 (s0 s1 : Slot) (bitmap : BitVec 64) (p : Nat) : Slot := if bitmap.getMsbD p then s1 else s0

/-- The slot a 2-bit field selects at position `p` (R86, R147). -/
def select4 (s0 s1 s2 s3 : Slot) (bitmap : BitVec 128) (p : Nat) : Slot :=
  match bitmap.getMsbD (2 * p), bitmap.getMsbD (2 * p + 1) with
  | false, false => s0
  | false, true => s1
  | true, false => s2
  | true, true => s3

/-- `PIX` of a packed color (R140, R198). -/
def pixOf (c : Color) : Pixel := pix (c.extractLsb' 16 8) (c.extractLsb' 8 8) (c.extractLsb' 0 8)

/-- Byte `k` of a stored pixel: R, G, B and, for `BPP = 4`, the pad 0x00 (R63). -/
def pixelByte (px : Pixel) (k : Nat) : Byte := if k = 0 then px.r else if k = 1 then px.g else if k = 2 then px.b else 0

/-- Pixels of a `size` x `size` tile at block coordinates `(bx, byy)` drawn into a buffer: each pixel of the tile that
lies in the frame holds the bytes of its color's pixel, and every other byte is unchanged (R63, R203, R205). -/
structure TileDrawn (l : Latched) (size bx byy : Nat) (px : Nat → Nat → Pixel) (b b' : Buffer) : Prop where
  draw   : b'.draw = b.draw
  drawn  : ∀ row col k, row < size → col < size → size * bx + col < l.w → size * byy + row < l.h → k < l.bpp →
    b'.byteAt (((size * byy + row) * l.w + (size * bx + col)) * l.bpp + k) = pixelByte (px row col) k
  others : ∀ off,
    (∀ row col k, row < size → col < size → size * bx + col < l.w → size * byy + row < l.h → k < l.bpp →
      off ≠ ((size * byy + row) * l.w + (size * bx + col)) * l.bpp + k) →
    b'.byteAt off = b.byteAt off

/-- The three 4:4:4 planes hold the tile whose position `p` has color `color p`, and no other entry changed (R148). -/
structure PlanesFilled (color : Nat → Color) (scr scr' : Vector Byte 768) : Prop where
  luma   : ∀ p, p < 64 → scrAt scr' p = (color p).extractLsb' 16 8
  cb     : ∀ p, p < 64 → scrAt scr' (64 + p) = (color p).extractLsb' 8 8
  cr     : ∀ p, p < 64 → scrAt scr' (128 + p) = (color p).extractLsb' 0 8
  others : ∀ p, 192 ≤ p → scrAt scr' p = scrAt scr p

/-- What a VQ block that completes leaves (R163): the cursor past the block, PAL and MAP after its palette group, the
planes filled, the tile drawn at the block's coordinates, the scanner advanced, and every other field of the state as
it was. The frame is the equation for `t`. -/
structure VqDone (at? : Option Coord) (slots : List Slot) (bits : Nat) (color : Nat → Color) (b : Buffer) (s t : State) :
    Prop where
  state  : ∃ b', t =
    { s with
      pos := s.pos + vqBits s.params at? slots bits
      window := t.window
      pal := palAfter s.pal slots
      map := mapAfter s.map 0 slots
      scr := t.scr
      work := some b'
      sx := if s.sx + 1 = s.latched.bpr then 0 else s.sx + 1
      sy := if s.sx + 1 = s.latched.bpr then (if s.sy + 1 = s.latched.bpc then 0 else s.sy + 1) else s.sy }
  planes : PlanesFilled color s.scr t.scr
  tile   : ∃ b', t.work = some b' ∧
    TileDrawn s.latched 8 (blockAt at? s).1 (blockAt at? s).2 (fun row col => pixOf (color (8 * row + col))) b b'

/-- The widths of the reads of a block, in order: tag, coordinates, each slot's index and flag in the order of
`SLOT_ORDER` and its color, the bitmap's 64 fields (R160, R162, R142, R147). -/
def readWidths (p : Params) (at? : Option Coord) (slots : List Slot) (bits : Nat) : List Nat :=
  [4] ++ (match at? with | none => [] | some _ => [coordBits p at?])
    ++ slots.flatMap (fun sl =>
        (match p.slotOrder with | .indexFirst => [2, 1] | .flagFirst => [1, 2])
          ++ (if sl.color.isSome then [24] else []))
    ++ (if bits = 0 then [] else List.replicate 64 bits)

/-- The slots that are complete when `avail` bits are left for the palette group. -/
def slotsComplete (avail : Nat) (slots : List Slot) : List Slot :=
  match slots with
  | [] => []
  | sl :: rest => if slotBits sl ≤ avail then sl :: slotsComplete (avail - slotBits sl) rest else []

/-- The slots whose index and flag have been read when `avail` bits are left for the palette group. -/
def slotsHeaded (avail : Nat) (slots : List Slot) : List Slot :=
  match slots with
  | [] => []
  | sl :: rest =>
    if 3 ≤ avail then sl :: (if slotBits sl ≤ avail then slotsHeaded (avail - slotBits sl) rest else []) else []

/-- The outcome of a step with `f` applied to the next state, if there is one. -/
def mapNext (f : State → State) (o : Host.Outcome State Fault Refusal) : Host.Outcome State Fault Refusal :=
  match o with
  | .next t => .next (f t)
  | .fault e => .fault e
  | .refused r => .refused r

/-- `clamp(v, 0, 255)` (R11). -/
def clampByte (v : Int) : Int := min (max v 0) 255

/-- The host writes `v` to CMD and that is its next action. -/
def commandNext (v : Word) (s : State) : Prop := ∃ rest, s.host = .access (.writeReg 0x00 v) :: rest

/-- The descriptor registers at their byte offsets, as R27's table lists them. -/
def descriptorMap : List (Desc × Nat) :=
  [(.width, 0x14), (.height, 0x18), (.compSize, 0x1C), (.mode, 0x20), (.config, 0x24),
   (.srcX, 0x28), (.srcY, 0x2C), (.srcDepth, 0x30), (.srcRate, 0x34), (.srcIndex, 0x38),
   (.dstX, 0x3C), (.dstY, 0x40), (.dstDepth, 0x44), (.dstRate, 0x48), (.dstIndex, 0x4C),
   (.frameStart, 0x50), (.frameNumber, 0x54), (.frameSize, 0x58)]

/-- The five registers a DECODE reads hold these values (R42). -/
structure Described (w h c m g : Word) (s : State) : Prop where
  width    : s.desc.width = some w
  height   : s.desc.height = some h
  compSize : s.desc.compSize = some c
  mode     : s.desc.mode = some m
  config   : s.desc.config = some g

end Sys2Proof.Claims

open Sys2Proof Sys2Proof.Machine Sys2Proof.Claims

/-! ### Encoding -/

/-- R82, R84, R92: the words of the spec's own stream V1 (95_test_vectors.md), `VQ1 r0=0xFF0000` then `END`, and of
`VQ1.S @1,0 r1` hold those blocks; and each opcode-table row's word is that row's block with operands of zeros. The
words read so under the spec's own choices D3, D8, D11 (defaults) and D29 (notation). -/
def Obligations.SpecWordsDecodeToTheirBlocks : Prop :=
  (∃ rest, decode Params.default (bitsOf 0x53FE0000#32 ++ bitsOf 0x20000000#32) = .ok (.vq1 ⟨0, some 0xFF0000⟩, rest) ∧
    ∃ rest', decode Params.default rest = .ok (.endTag, rest')) ∧
  (∃ rest, decode Params.default (bitsOf 0xD0100004#32 ++ bitsOf 0xB0400000#32) = .ok (.vq1S ⟨1, 0, 0⟩ ⟨1, none⟩, rest) ∧
    ∃ rest', decode Params.default rest = .ok (.vq1 ⟨2, none⟩, rest')) ∧
  [0, 1, 2, 3, 4, 8, 9, 10, 11, 12].map (decodeTableWord 8) =
    [some .tc1, some .endTag, some .tc2, some .unk, some .tc1h, some .tc1S, some .endTagS, some .tc2S, some .unkS,
     some .tc1hS] ∧
  decodeTableWord 8 5 = some (.vq1 ⟨0, none⟩) ∧
  decodeTableWord 8 6 = some (.vq2 ⟨0, none⟩ ⟨0, none⟩ 0) ∧
  decodeTableWord 8 7 = some (.vq4 ⟨0, none⟩ ⟨0, none⟩ ⟨0, none⟩ ⟨0, none⟩ 0) ∧
  decodeTableWord 8 13 = some (.vq1S ⟨0, 0, 0⟩ ⟨0, none⟩) ∧
  decodeTableWord 8 14 = some (.vq2S ⟨0, 0, 0⟩ ⟨0, none⟩ ⟨0, none⟩ 0) ∧
  decodeTableWord 8 15 = some (.vq4S ⟨0, 0, 0⟩ ⟨0, none⟩ ⟨0, none⟩ ⟨0, none⟩ ⟨0, none⟩ 0)

/-- R80 to R88: the decoder reads from the encoder's bits of any well-formed block that block, and leaves the rest;
for every parameter choice and every operand value. It holds for both values of each parameter the spec leaves open
(D8, D11). -/
def Obligations.DecodeOfEncodeIsTheBlock : Prop :=
  ∀ (p : Params) (i : Instr) (rest : List Bool), i.wf p = true → decode p (encode p i ++ rest) = .ok (i, rest)

/-- R91: the decoder is total on any sequence that is long enough for the longest block (R87), what it answers is
well-formed, has the sequence's first four bits as its tag, and is encoded by exactly the bits consumed. The bound of
264 bits is only that no field is cut. -/
def Obligations.EveryFullFetchDecodesToOneBlock : Prop :=
  ∀ (p : Params) (bs : List Bool), maxBlockBits ≤ bs.length →
    ∃ i rest, decode p bs = .ok (i, rest) ∧ i.wf p = true ∧ bitsOf (tagOf i) = bs.take 4 ∧ encode p i ++ rest = bs

/-- R87: the length of every block, by its operands: 4 bits, or the VQ blocks' sum of fields; never above 264, and
with a 16-bit coordinate field 8 less for a block with S = 1. The spec derives R87 from its encoding rules (D8, D11).
-/
def Obligations.BlockLengthsAreTheTables : Prop :=
  ∀ (p : Params) (i : Instr),
    (encode p i).length =
      (match vqOperands i with
       | none => 4
       | some (at?, slots, bits) => vqBits p at? slots bits) ∧
    4 ≤ (encode p i).length ∧ (encode p i).length ≤ maxBlockBits

/-- R83: the ignored bits of an explicit-coordinate field change nothing a block does. The ignored bits are the spec's
own choice D8. -/
def Obligations.IgnoredCoordinateBitsHaveNoEffect : Prop :=
  ∀ (c d : Coord) (s0 s1 s2 s3 : Slot) (m2 : BitVec 64) (m4 : BitVec 128) (s : State), c.bx = d.bx → c.byy = d.byy →
    exec (.vq1S c s0) s = exec (.vq1S d s0) s ∧
    exec (.vq2S c s0 s1 m2) s = exec (.vq2S d s0 s1 m2) s ∧
    exec (.vq4S c s0 s1 s2 s3 m4) s = exec (.vq4S d s0 s1 s2 s3 m4) s

/-! ### The bitstream and the cursor -/

/-- R62: word `i` as a number, from payload bytes `4i .. 4i+3`, in both lane orders; the default is BIG, and no step
switches the order. The lane order is the spec's own choice D3 (a parameter); an unwritten byte is a free value (log
entry 8). -/
def Obligations.PayloadWordsAreFormedFromFourBytes : Prop :=
  Params.default.laneOrder = .big ∧
  (∀ s t : State, step s = .next t → t.params.laneOrder = s.params.laneOrder) ∧
  ∀ (s : State) (i : Nat),
    (s.params.laneOrder = .big →
      (payloadWord s i).toNat =
        2 ^ 24 * (payloadByte s (4 * i)).toNat + 2 ^ 16 * (payloadByte s (4 * i + 1)).toNat
          + 2 ^ 8 * (payloadByte s (4 * i + 2)).toNat + (payloadByte s (4 * i + 3)).toNat) ∧
    (s.params.laneOrder = .little →
      (payloadWord s i).toNat =
        2 ^ 24 * (payloadByte s (4 * i + 3)).toNat + 2 ^ 16 * (payloadByte s (4 * i + 2)).toNat
          + 2 ^ 8 * (payloadByte s (4 * i + 1)).toNat + (payloadByte s (4 * i)).toNat)

/-- R100: `S[j] = MemRead(PAYLOAD, j div 32)[31 - (j mod 32)]` for `j < 32*N`. -/
def Obligations.StreamBitIsThePayloadWordBit : Prop :=
  ∀ (s : State) (j : Nat), j < 32 * s.latched.n →
    streamBit s j = (payloadWord s (j / 32)).getLsbD (31 - j % 32)

/-- R103, R104, R105: `Read(n)` answers the next `n` stream bits, the first one most significant, and moves the cursor
past them and nothing else; a field that passes `32*N` raises `TruncatedInput`, which ends the DECODE with `pos` as it
was and as the recorded position. `advance(n)` (a block's field read, `readField`) is `Read(n)` with the value
discarded. When a read faults is the spec's own choice D4, what is recorded D20. -/
def Obligations.ReadReturnsTheNextBitsAndAdvances : Prop :=
  ∀ (n : Nat) (s : State), n ≤ 32 →
    (s.pos + n ≤ 32 * s.latched.n →
      ∃ v t, read n s = .ok (v, t) ∧ peek n s = .ok v ∧ (∀ k, k < n → v.getMsbD k = streamBit s (s.pos + k)) ∧
        t = { s with pos := s.pos + n, window := t.window } ∧ readField n s = .go t) ∧
    (32 * s.latched.n < s.pos + n →
      read n s = .error .truncatedInput ∧ peek n s = .error .truncatedInput ∧
        readField n s = .ended (faulted .truncatedInput s.pos s))

/-- R110: after `advance(n)` from position p, `Peek(m)` answers `S[p+n .. p+n+m-1]`. -/
def Obligations.PeekAfterAdvanceReturnsTheBitsThatRemained : Prop :=
  ∀ (n m : Nat) (s t : State) (v : BitVec n), read n s = .ok (v, t) →
    s.pos + n + m ≤ 32 * s.latched.n →
      ∃ w, peek m t = .ok w ∧ ∀ k, k < m → w.getMsbD k = streamBit s (s.pos + n + k)

/-- R102, R106, R107, R109: the window realisation is exact. The invariant of R106 holds after initialisation, every
read keeps it, and under it the value the window returns for a read is the stream's. That an absent word loads as zero
is the spec's own choice D4. -/
def Obligations.WindowRealisationReturnsTheStreamBits : Prop :=
  (∀ s : State, WindowAgrees (initCursor s)) ∧
  ∀ (n : Nat) (s : State), n ≤ 32 → WindowAgrees s →
    s.window.top n = streamField s s.pos n ∧
    ∀ v t, read n s = .ok (v, t) → WindowAgrees t

/-! ### Tags without operands -/

/-- R166, R168, R170, R172, R176, R178, R180: a transform-coded tag whose 4 bits are there raises
`UnsupportedBlockKind` at its first bit; no coordinate field is read even when S = 1, and nothing else changes. What a
fault records is the spec's own choice D20; that S is ignored, D6. -/
def Obligations.TransformTagsFaultUnsupportedBlockKind : Prop :=
  ∀ (i : Instr) (s : State), i ∈ transformTags → s.pos + 4 ≤ 32 * s.latched.n →
    exec i s = .next (faulted .unsupportedBlockKind s.pos (afterTag s))

/-- R167, R171, R179: UNK and UNK.S raise `UnknownBlockTag` at the tag's first bit, and nothing else changes. What a
fault records is the spec's own choice D20; that S is ignored, D6. -/
def Obligations.UnknownTagsFaultUnknownBlockTag : Prop :=
  ∀ (i : Instr) (s : State), i ∈ [Instr.unk, .unkS] → s.pos + 4 ≤ 32 * s.latched.n →
    exec i s = .next (faulted .unknownBlockTag s.pos (afterTag s))

/-- R165, R169, R177, R241: END and END.S end the frame successfully with END_REASON = 0, reading 4 bits. That S is
ignored is the spec's own choice D6; STATUS's fields are D20. That no WORK is left is log entry 19 (DEDUCED, from
R41). -/
def Obligations.EndTagsFinishTheFrame : Prop :=
  ∀ (i : Instr) (s : State), i ∈ [Instr.endTag, .endTagS] → s.pos + 4 ≤ 32 * s.latched.n →
    exec i s = .next (finished .endTag (afterTag s))

/-- R160: for every block, when fewer than 4 bits remain, the tag read raises `TruncatedInput` at the cursor, and that
is all that happens. That 1 to 3 leftover bits fault is the spec's own choice D5, what is recorded D20. -/
def Obligations.CutTagFaultsTruncatedInput : Prop :=
  ∀ (i : Instr) (s : State), 32 * s.latched.n < s.pos + 4 →
    exec i s = .next (faulted .truncatedInput s.pos s)

/-! ### VQ blocks -/

/-- R163, R173, R181, R146, R148, R203, R221: a VQ1 or VQ1.S block that fits its payload, outside 4:2:0 mode,
completes: solid tile in the color of its slot's register after the group. It rests on the spec's own choices D8, D9,
D10, D11, D16, D17, D18; log entry 14. -/
def Obligations.SolidBlocksDrawTheirTile : Prop :=
  ∀ (at? : Option Coord) (s0 : Slot) (b : Buffer) (s : State),
    s.latched.m420 = false → s.latched.bpp = 3 ∨ s.latched.bpp = 4 → s.work = some b →
    s.pos + vqBits s.params at? [s0] 0 ≤ 32 * s.latched.n →
    ∃ t, exec (vq1Of at? s0) s = .next t ∧ VqDone at? [s0] 0 (fun _ => colorOf (palAfter s.pal [s0]) s0) b s t

/-- R163, R174, R182, R147: a VQ2 or VQ2.S block completes: each position has the color of the slot its bit selects.
It rests on the spec's own choices D8, D9, D10, D11, D16, D17, D18; log entry 14. -/
def Obligations.OneBitBlocksDrawTheirTile : Prop :=
  ∀ (at? : Option Coord) (s0 s1 : Slot) (bitmap : BitVec 64) (b : Buffer) (s : State),
    s.latched.m420 = false → s.latched.bpp = 3 ∨ s.latched.bpp = 4 → s.work = some b →
    s.pos + vqBits s.params at? [s0, s1] 1 ≤ 32 * s.latched.n →
    ∃ t, exec (vq2Of at? s0 s1 bitmap) s = .next t ∧
      VqDone at? [s0, s1] 1 (fun p => colorOf (palAfter s.pal [s0, s1]) (select2 s0 s1 bitmap p)) b s t

/-- R163, R175, R183, R147: a VQ4 or VQ4.S block completes: each position has the color of the slot its 2-bit field
selects. It rests on the spec's own choices D8, D9, D10, D11, D16, D17, D18; log entry 14. -/
def Obligations.TwoBitBlocksDrawTheirTile : Prop :=
  ∀ (at? : Option Coord) (s0 s1 s2 s3 : Slot) (bitmap : BitVec 128) (b : Buffer) (s : State),
    s.latched.m420 = false → s.latched.bpp = 3 ∨ s.latched.bpp = 4 → s.work = some b →
    s.pos + vqBits s.params at? [s0, s1, s2, s3] 2 ≤ 32 * s.latched.n →
    ∃ t, exec (vq4Of at? s0 s1 s2 s3 bitmap) s = .next t ∧
      VqDone at? [s0, s1, s2, s3] 2
        (fun p => colorOf (palAfter s.pal [s0, s1, s2, s3]) (select4 s0 s1 s2 s3 bitmap p)) b s t

/-- R164: in 4:2:0 mode every VQ tag raises `UnsupportedBlockKind` at its position before any other bit is read; PAL,
MAP and SCR, and all else, are unchanged. The spec's own choice D7. -/
def Obligations.VqTagsFaultIn420Mode : Prop :=
  ∀ (i : Instr) (s : State), (vqOperands i).isSome = true → s.latched.m420 = true → s.pos + 4 ≤ 32 * s.latched.n →
    exec i s = .next (faulted .unsupportedBlockKind s.pos (afterTag s))

/-- R260, R261, R262, R144: a VQ block cut by the payload end raises `TruncatedInput` at the first bit of the first
field that passes it, keeps exactly the palette updates of the slots that were complete and the mappings of the slots
whose index and flag were read, publishes nothing, and leaves the scanner where it was. When a field faults is the
spec's own choice D4, that the palette updates stay D12, the order of the reads D11. -/
def Obligations.CutVqBlocksFaultTruncatedInput : Prop :=
  ∀ (i : Instr) (at? : Option Coord) (slots : List Slot) (bits : Nat) (s : State),
    vqOperands i = some (at?, slots, bits) → s.latched.m420 = false → s.pos ≤ 32 * s.latched.n →
    32 * s.latched.n < s.pos + vqBits s.params at? slots bits →
    ∃ t before w after,
      readWidths s.params at? slots bits = before ++ w :: after ∧
      s.pos + before.sum ≤ 32 * s.latched.n ∧ 32 * s.latched.n < s.pos + before.sum + w ∧
      exec i s = .next t ∧
      t = faulted .truncatedInput (s.pos + before.sum)
        { s with
          pos := s.pos + before.sum
          window := t.window
          pal := palAfter s.pal
            (slotsComplete (32 * s.latched.n - (s.pos + 4 + coordBits s.params at?)) slots)
          map := mapAfter s.map 0
            (slotsHeaded (32 * s.latched.n - (s.pos + 4 + coordBits s.params at?)) slots)
          scr := t.scr }

/-! ### Rules over every block -/

/-- R13, R24, R36, R184: every block, in every state, takes a step: it never stops the machine; the cursor never moves
back, never passes `32*N`; the parameters, the latched values, QT, `SCR[384..767]`, the descriptor registers, the
payload and the host's side are unchanged. That SCR[384..767] is never written is derived by the spec (D18). -/
def Obligations.EveryBlockTakesAStepWithinItsFrame : Prop :=
  ∀ (i : Instr) (s : State), s.pos ≤ 32 * s.latched.n →
    ∃ t, exec i s = .next t ∧ s.pos ≤ t.pos ∧ t.pos ≤ 32 * s.latched.n ∧
      t.params = s.params ∧ t.latched = s.latched ∧ t.qt = s.qt ∧ t.desc = s.desc ∧ t.payload = s.payload ∧
      t.draws = s.draws ∧ t.host = s.host ∧ t.rdata = s.rdata ∧
      (∀ p, 384 ≤ p → scrAt t.scr p = scrAt s.scr p)

/-- R242, R262, R265: a block that ends a running DECODE in ERROR has recorded one of the codes 1 to 3 with a position
within the payload and the scanner's position, discarded WORK, and left PUB and END_REASON as they were. The recorded
position is the spec's own choice D20. -/
def Obligations.FaultedBlocksPublishNothing : Prop :=
  ∀ (i : Instr) (s t : State), s.phase = .busy → s.pos ≤ 32 * s.latched.n → exec i s = .next t → t.phase = .error →
    (t.errCode = .truncatedInput ∨ t.errCode = .unknownBlockTag ∨ t.errCode = .unsupportedBlockKind) ∧
    (∃ p, s.pos ≤ p ∧ p ≤ 32 * s.latched.n ∧
      t.errWord = BitVec.ofNat 32 (p / 32) ∧ t.errBit = BitVec.ofNat 32 (p % 32)) ∧
    t.errMb = BitVec.ofNat 16 s.sy ++ BitVec.ofNat 16 s.sx ∧
    t.work = none ∧ t.pub = s.pub ∧ t.endReason = s.endReason ∧ t.sx = s.sx ∧ t.sy = s.sy

/-- R130 ("No rule of this spec reads `QT`"), R35, R40: the quantization tables influence nothing a block does. The
tables themselves rest on D23. -/
def Obligations.NoBlockReadsTheQuantizationTables : Prop :=
  ∀ (i : Instr) (s : State) (q : Vector (Vector (BitVec 25) 64) 4),
    exec i { s with qt := q } = mapNext (fun t => { t with qt := q }) (exec i s)

/-- R40, R36: what the scratch buffer held before a block influences nothing but the scratch buffer. The scratch
layout is the spec's own choice D18. -/
def Obligations.NoBlockReadsStaleScratch : Prop :=
  ∀ (i : Instr) (s : State) (scr : Vector Byte 768),
    ∃ t t', exec i s = .next t ∧ exec i { s with scr := scr } = .next t' ∧ t' = { t with scr := t'.scr }

/-! ### The color converter -/

/-- R191, R192: the listed contents of the five ROM tables are the formulas, for every raw sample, and equal the floor
of the exact product. Indexing by the raw sample is the spec's own choice D32, the arithmetic D25. -/
def Obligations.CoefficientTablesFollowTheirFormulas : Prop :=
  ∀ i : Byte,
    let y : Int := (i.toNat : Int) - 16
    let c : Int := (i.toNat : Int) - 128
    Rom.at Rom.ytab i = asr (roundRat (1164 * y * 65536) 1000) 16 ∧
    Rom.at Rom.crToR i = asr (roundRat (1597656 * c * 65536) 1000000) 16 ∧
    Rom.at Rom.cbToB i = asr (roundRat (2015625 * c * 65536) 1000000) 16 ∧
    Rom.at Rom.crToG i = asr (roundRat (-8125 * c * 65536) 10000) 16 ∧
    Rom.at Rom.cbToG i = asr (roundRat (-390625 * c * 65536) 1000000) 16 ∧
    Rom.at Rom.ytab i = 1164 * y / 1000 ∧ Rom.at Rom.crToR i = 1597656 * c / 1000000 ∧
    Rom.at Rom.cbToB i = 2015625 * c / 1000000 ∧ Rom.at Rom.crToG i = -8125 * c / 10000 ∧
    Rom.at Rom.cbToG i = -390625 * c / 1000000

/-- R201: the ranges of the range-limit table. Entries 0 to 255 are the spec's own choice D17. -/
def Obligations.RangeLimitTableHoldsItsRanges : Prop :=
  ∀ i : Nat,
    (i < 256 → Rom.rangeLimit i = 0) ∧
    (256 ≤ i → i < 512 → (Rom.rangeLimit i).toNat = i - 256) ∧
    (512 ≤ i → i < 896 → Rom.rangeLimit i = 255) ∧
    (896 ≤ i → i < 1280 → Rom.rangeLimit i = 0) ∧
    (1280 ≤ i → i < 1408 → (Rom.rangeLimit i).toNat = i - 1280)

/-- R202: for every v in -277..639, `Limit(v) = clamp(v, 0, 255)`. For negative sums it rests on the spec's own choice
D17. -/
def Obligations.LimitIsTheClamp : Prop :=
  ∀ v : Int, -277 ≤ v → v ≤ 639 → ((limit v).toNat : Int) = clampByte v

/-- R199: the ranges of the three sums over all inputs. The spec derives these bounds; the tables rest on D32 and D25.
-/
def Obligations.ConversionSumsStayInRange : Prop :=
  ∀ y cb cr : Byte,
    (-224 ≤ sumR y cr ∧ sumR y cr ≤ 480) ∧ (-173 ≤ sumG y cb cr ∧ sumG y cb cr ≤ 432) ∧
    (-277 ≤ sumB y cb ∧ sumB y cb ≤ 533)

/-- R190, R198, R202: each output byte of a pixel is its exact sum, clamped to a byte. The low clamp rests on the
spec's own choice D17. -/
def Obligations.PixelBytesAreTheClampedSums : Prop :=
  ∀ y cb cr : Byte,
    ((pix y cb cr).r.toNat : Int) = clampByte (Rom.at Rom.ytab y + Rom.at Rom.crToR cr) ∧
    ((pix y cb cr).g.toNat : Int) = clampByte (Rom.at Rom.ytab y + Rom.at Rom.cbToG cb + Rom.at Rom.crToG cr) ∧
    ((pix y cb cr).b.toNat : Int) = clampByte (Rom.at Rom.ytab y + Rom.at Rom.cbToB cb)

/-- R204: the 4:2:0 conversion draws the 16x16 macroblock: luma by quadrant, one chroma sample per 2x2 pixels,
bounds-checked per coordinate; nothing but WORK changes. The scratch layout is the spec's own choice D18, the bounds
check D10, the pad byte D16. -/
def Obligations.Convert420DrawsTheMacroblock : Prop :=
  ∀ (s : State) (bx byy : Nat) (b : Buffer), s.latched.bpp = 3 ∨ s.latched.bpp = 4 → s.work = some b →
    ∃ b', convert420 bx byy s = { s with work := some b' } ∧
      TileDrawn s.latched 16 bx byy
        (fun row col =>
          pix (scrAt s.scr (64 * (2 * (row / 8) + col / 8) + 8 * (row % 8) + col % 8))
            (scrAt s.scr (256 + (8 * (row / 2) + col / 2))) (scrAt s.scr (320 + (8 * (row / 2) + col / 2)))) b b'

/-! ### Quantization tables -/

/-- R122, R124, R125, R126: the AAN vector (in units of 10^-7) and `NATURAL` are the listed values; the entry at
row-major index `NATURAL[k]` comes from zig-zag base entry `k`: scaled, clamped to 1..255, times the two AAN factors,
rounded to the nearest 1/65536 with ties up; and every index is some `NATURAL[k]`. The rounding is the spec's own
choice D25; `NATURAL` is D24, which the spec takes from general knowledge (log entry 25). -/
def Obligations.QuantEntryIsTheScaledBaseEntry : Prop :=
  aan = [10000000, 13870400, 13065630, 11758760, 10000000, 7856950, 5411961, 2758994] ∧
  naturalOrder =
    [ 0,  1,  8, 16,  9,  2,  3, 10, 17, 24, 32, 25, 18, 11,  4,  5,
     12, 19, 26, 33, 40, 48, 41, 34, 27, 20, 13,  6,  7, 14, 21, 28,
     35, 42, 49, 56, 57, 50, 43, 36, 29, 22, 15, 23, 30, 37, 44, 51,
     58, 59, 52, 45, 38, 31, 39, 46, 53, 60, 61, 54, 47, 55, 62, 63] ∧
  (∀ i, i < 64 → ∃ k, k < 64 ∧ naturalOrder.getD k 0 = i) ∧
  ∀ (base : Nat → Byte) (sf k : Nat), 1 ≤ sf → k < 64 →
    let i := naturalOrder.getD k 0
    let t := min (max ((base k).toNat * 16 / sf) 1) 255
    let product := t * aan.getD (i / 8) 0 * aan.getD (i % 8) 0 * 65536
    i < 64 ∧
    (buildTable base sf)[i]?.map BitVec.toNat = some ((2 * product + 10 ^ 14) / (2 * 10 ^ 14))

/-- R127: every entry lies in 4989..32151266 and so fits in 25 bits, both bounds are reached, and no product is an odd
multiple of 1/2, so the tie rule never applies. The spec derives R127 from R122, R124 and R126 (D25). -/
def Obligations.QuantEntriesLieInTheirRange : Prop :=
  (∀ (base : Nat → Byte) (sf i : Nat), 1 ≤ sf → i < 64 →
    4989 ≤ quantEntry base sf i ∧ quantEntry base sf i ≤ 32151266 ∧ quantEntry base sf i < 2 ^ 25) ∧
  aanScale 1 7 7 = 4989 ∧ aanScale 255 1 1 = 32151266 ∧
  (∀ t r c : Nat, 1 ≤ t → t ≤ 255 → r < 8 → c < 8 →
    2 * (t * aan.getD r 0 * aan.getD c 0 * 65536) % (2 * 10 ^ 14) ≠ 10 ^ 14)

/-! ### The scanner and the geometry -/

/-- R26, R236: the padded size is the true size rounded up to the block size, 16 in 4:2:0 mode and 8 in 4:4:4, and
holds a whole number of blocks per row and column. -/
def Obligations.PaddedSizeIsRoundedUpToTheBlockSize : Prop :=
  ∀ l : Latched,
    l.blockSize = (if l.m420 then 16 else 8) ∧
    (l.w ≤ l.paddedW ∧ l.paddedW < l.w + l.blockSize ∧ l.paddedW = l.bpr * l.blockSize) ∧
    (l.h ≤ l.paddedH ∧ l.paddedH < l.h + l.blockSize ∧ l.paddedH = l.bpc * l.blockSize)

/-- R221, R224: from the start of a row, BPR advances end at the start of the next row, or of row 0 after the last; and
from (0, 0), BPR * BPC advances return to (0, 0); the advances change nothing else. -/
def Obligations.ScannerWalksTheFrameInRasterOrder : Prop :=
  ∀ s : State, 1 ≤ s.latched.bpr → s.sy < s.latched.bpc → s.sx = 0 →
    (∀ k, k < s.latched.bpr → scannerAdvance^[k] s = { s with sx := k }) ∧
    scannerAdvance^[s.latched.bpr] s = { s with sx := 0, sy := if s.sy + 1 = s.latched.bpc then 0 else s.sy + 1 } ∧
    (s.sy = 0 → scannerAdvance^[s.latched.bpr * s.latched.bpc] s = s)

/-! ### The frame loop -/

/-- R240, with log entries 11 and 12: while BUSY, with payload left and the host silent or pausing, a step runs the
block that the bits at the cursor decode to. That a step is one turn of the loop is the model's choice. -/
def Obligations.StepRunsTheDecodedBlock : Prop :=
  ∀ (s : State) (i : Instr) (rest : List Bool), s.phase = .busy → s.pos < 32 * s.latched.n →
    decode s.params (fetchBits s) = .ok (i, rest) →
    (s.host = [] → step s = exec i s) ∧
    (∀ more, s.host = .pause :: more → step s = exec i { s with host := more }) ∧
    (∀ more, s.host = .awaitIdle :: more → step s = exec i s)

/-- R80, R240: when the stream from the cursor on begins with the bits of a well-formed block, a step runs that block.
That a step is one turn of the loop is the model's choice, log entry 11. -/
def Obligations.StepRunsTheEncodedBlock : Prop :=
  ∀ (s : State) (i : Instr), s.phase = .busy → s.pos < 32 * s.latched.n → s.host = [] → i.wf s.params = true →
    (∀ k (h : k < (encode s.params i).length), streamBit s (s.pos + k) = (encode s.params i)[k]) →
    step s = exec i s

/-- R240, R241: at the payload bound, the host silent, pausing or polling, the frame ends successfully with
END_REASON = 1. The spec's own choice D5; that a step is one turn of the loop is log entry 11, that the host is a list
log entry 12. That no WORK is left is log entry 19 (DEDUCED, from R41). -/
def Obligations.PayloadBoundFinishesTheFrame : Prop :=
  ∀ s : State, s.phase = .busy → 32 * s.latched.n ≤ s.pos →
    (s.host = [] → step s = .next (finished .payloadBound s)) ∧
    (∀ more, s.host = .pause :: more → step s = .next (finished .payloadBound { s with host := more })) ∧
    (∀ more, s.host = .awaitIdle :: more → step s = .next (finished .payloadBound s))

/-- R160 to R163: decoding a block first and running it on its operands is the same machine, in every state, as the
spec's block decoder, which reads the payload field by field and uses each field as it is read; truncated blocks,
4:2:0 mode and both slot orders included. It is the check on log entry 14. -/
def Obligations.DecodedBlocksAreTheFieldByFieldReader : Prop :=
  ∀ s : State, frameTurn s = readerTurn s

/-- R289, R246: a running DECODE left to itself has ended after at most `8*N + 1` turns of the frame loop. The spec
derives R289; turns are the model's steps (log entry 11). -/
def Obligations.EveryDecodeEndsWithinItsBound : Prop :=
  ∀ s : State, State.Inv s → s.phase = .busy → s.host = [] →
    ∃ t, Host.Core.run core (8 * s.latched.n + 1) s = .next t ∧ (t.phase = .ready ∨ t.phase = .error)

/-! ### Commands -/

/-- R231: RESET, in every state but BUSY. `MAP`'s values are the spec's own choice D13; that QT and SCR stay is log
entry 20's reading. That the cursor, its window, the scanner and the latched values, undefined there (R41), keep what
they hold is log entry 5 (DESIGN CHOICE). -/
def Obligations.ResetCommandCreatesADecoder : Prop :=
  ∀ (s : State) (rest : List HostAction), s.phase ≠ .busy → s.host = .access (.writeReg 0x00 1) :: rest →
    step s = .next
      { s with
        pal := #v[0x008080, 0xFF8080, 0x808080, 0xC08080]
        map := #v[0, 1, 2, 3]
        pub := none
        phase := .ready
        errCode := .none
        endReason := .endTag
        errWord := 0
        errBit := 0
        errMb := 0
        host := rest
        rdata := none }

/-- R280, R281: one RESET command takes the power-on state to the reset state. What the spec leaves open at power-on
and after RESET is log entries 3 to 6; the framing is D1. -/
def Obligations.ResetAtPowerOnGivesTheResetState : Prop :=
  hostAccess (.writeReg 0x00 1) State.powerOn = .next State.reset ∧
  (statusWord State.powerOn = 0 ∧ State.powerOn.errWord = 0 ∧ State.powerOn.errBit = 0 ∧ State.powerOn.errMb = 0)

/-- R232, R245: DESTROY in READY and ERROR discards PUB and leaves no decoder; STATUS's other fields, the error
registers, the descriptor registers and the payload stay. What PAL, MAP, QT and SCR hold then is open. The spec's own
choices D33 and D34; the open values are free (log entry 10). That the cursor, its window, the scanner and the latched
values, undefined there (R232, R41), keep what they hold is log entry 5 (DESIGN CHOICE). -/
def Obligations.DestroyDiscardsTheDecoder : Prop :=
  ∀ (s : State) (rest : List HostAction), s.phase = .ready ∨ s.phase = .error →
    s.host = .access (.writeReg 0x00 3) :: rest →
    ∃ t, step s = .next t ∧
      t = { s with
        pub := none
        phase := .uninit
        pal := t.pal
        map := t.map
        qt := t.qt
        scr := t.scr
        draws := t.draws
        host := rest
        rdata := none }

/-- R233 to R239, R102: an accepted DECODE whose header checks pass is BUSY with the registers latched, the tables
rebuilt, WORK a copy of a PUB of the same geometry or else all drawn, the cursor at bit 0 with its window filled from
words 0 and 1, the scanner at its start; PAL, MAP, SCR, PUB and the error registers are unchanged. It rests on the
spec's own choices D14, D15, D16, D22, D23, D26, D27, D34, D35; the step boundary is log entry 11. That an absent word
fills the window with zero is the spec's own choice D4. -/
def Obligations.DecodeSetsUpTheFrame : Prop :=
  ∀ (s : State) (w h c m g : Word) (rest : List HostAction), s.phase = .ready ∨ s.phase = .error →
    s.host = .access (.writeReg 0x00 2) :: rest → Described w h c m g s →
    1 ≤ w.toNat → 1 ≤ h.toNat → w.toNat ≤ s.params.maxDim → h.toNat ≤ s.params.maxDim →
    ∃ t b, step s = .next t ∧
      t = { s with
        phase := .busy
        latched :=
          { w := w.toNat, h := h.toNat, n := c.toNat / 4, m420 := m.getLsbD 0, qtSel := m.extractLsb' 4 3
            advSel := m.extractLsb' 8 3, mapping := m.getLsbD 12, bpp := if g.getLsbD 0 then 4 else 3 }
        qt := #v[buildTable (Config.baseTable (m.extractLsb' 4 3) .luma) (Config.scaleFactor .y1),
                 buildTable (Config.baseTable (m.extractLsb' 4 3) (if m.getLsbD 12 then .luma else .chroma))
                   (Config.scaleFactor .c1),
                 buildTable (Config.baseTable (m.extractLsb' 8 3) .luma) (Config.scaleFactor .y2),
                 buildTable (Config.baseTable (m.extractLsb' 8 3) (if m.getLsbD 12 then .luma else .chroma))
                   (Config.scaleFactor .c2)]
        work := some b
        pos := 0
        window :=
          { w0 := if 0 < c.toNat / 4 then payloadWord s 0 else 0
            w1 := if 1 < c.toNat / 4 then payloadWord s 1 else 0
            cnt := 32
            idx := 2 }
        sx := 0
        sy := 0
        draws := t.draws
        host := rest
        rdata := none } ∧
      (∀ p, s.pub = some p → p.w = w.toNat → p.h = h.toNat → p.bpp = (if g.getLsbD 0 then 4 else 3) → b = p.buf) ∧
      ((∀ p, s.pub = some p → ¬ (p.w = w.toNat ∧ p.h = h.toNat ∧ p.bpp = (if g.getLsbD 0 then 4 else 3))) →
        b.cells = [])

/-- R235, R242: a DECODE whose width or height is 0 or above MAX_DIM ends in ERROR with code 4 and the position
registers 0; QT, PAL, MAP, SCR, PUB and END_REASON are unchanged. The spec's own choices D19 and D20; what the latched
values are then is open (log entry 5). -/
def Obligations.InconsistentHeaderEndsTheDecode : Prop :=
  ∀ (s : State) (w h c m g : Word) (rest : List HostAction), s.phase = .ready ∨ s.phase = .error →
    s.host = .access (.writeReg 0x00 2) :: rest → Described w h c m g s →
    (w.toNat = 0 ∨ h.toNat = 0 ∨ s.params.maxDim < w.toNat ∨ s.params.maxDim < h.toNat) →
    ∃ t, step s = .next t ∧
      t = { s with
        phase := .error
        errCode := .headerInconsistent
        errWord := 0
        errBit := 0
        errMb := 0
        work := none
        latched := t.latched
        host := rest
        rdata := none }

/-- R245, R42, R30: the refusals of the acceptance table outside BUSY: DECODE and DESTROY without a decoder, DECODE
with one of its five registers unwritten, and a CMD write of another value. The spec's own choices D1, D2, D34. -/
def Obligations.CommandsAreRefusedByTheAcceptanceTable : Prop :=
  ∀ s : State, s.phase ≠ .busy →
    (s.phase = .uninit → hostAccess (.writeReg 0x00 2) s = .refused .noDecoder ∧
      hostAccess (.writeReg 0x00 3) s = .refused .noDecoder) ∧
    (s.phase ≠ .uninit →
      (s.desc.width = none ∨ s.desc.height = none ∨ s.desc.compSize = none ∨ s.desc.mode = none ∨ s.desc.config = none) →
      hostAccess (.writeReg 0x00 2) s = .refused .descriptorUnwritten) ∧
    (∀ v : Word, v ≠ 1 → v ≠ 2 → v ≠ 3 → hostAccess (.writeReg 0x00 v) s = .refused (.unknownCommand v))

/-! ### The host's accesses -/

/-- R244, R284 to R286: while BUSY every access but a STATUS read is refused, and a STATUS read answers the STATUS
word and changes nothing of the core; a CMD write of a value other than 1, 2, 3 is refused in every state. The spec's
own choice D30. -/
def Obligations.BusyRefusesAllButStatusReads : Prop :=
  (∀ (s : State) (a : HostAccess), s.phase = .busy →
    (a ≠ .readReg 0x04 → hostAccess a s = .refused .busyAccess) ∧
    hostAccess (.readReg 0x04) s = .next { s with rdata := some (statusWord s) }) ∧
  ∀ (s : State) (v : Word), v ≠ 1 → v ≠ 2 → v ≠ 3 → ∃ r, hostAccess (.writeReg 0x00 v) s = .refused r

/-- R31, R260: the fields of the STATUS word; the other bits are 0. The packing is the spec's own choice D20. -/
def Obligations.StatusWordFieldsAreTheFlags : Prop :=
  ∀ s : State,
    ((statusWord s).extractLsb' 0 2).toNat =
      (match s.phase with | .uninit => 0 | .ready => 1 | .busy => 2 | .error => 3) ∧
    ((statusWord s).extractLsb' 4 3).toNat =
      (match s.errCode with
       | .none => 0 | .truncatedInput => 1 | .unknownBlockTag => 2 | .unsupportedBlockKind => 3
       | .headerInconsistent => 4) ∧
    (statusWord s).getLsbD 8 = (match s.endReason with | .endTag => false | .payloadBound => true) ∧
    (statusWord s).getLsbD 9 = s.pub.isSome ∧
    (statusWord s).getLsbD 2 = false ∧ (statusWord s).getLsbD 3 = false ∧ (statusWord s).getLsbD 7 = false ∧
    (∀ k, 10 ≤ k → (statusWord s).getLsbD k = false)

/-- R27, R28, R29, R43: outside BUSY a write to a descriptor register, at the offset R27's table gives it, changes that
register alone, and a read then answers all 32 bits written; a register never written is refused (R42); each name of the
table is its own field of the state; and an access to an offset that is not in the table is refused. The register map is
the spec's own choice D2, the refusal of an unwritten register too. -/
def Obligations.DescriptorRegistersHoldWhatIsWritten : Prop :=
  (∀ (s : State) (d : Desc) (off : Nat) (v : Word), (d, off) ∈ descriptorMap → s.phase ≠ .busy →
    (∃ t, hostAccess (.writeReg off v) s = .next t ∧
      t = { s with desc := t.desc, rdata := none } ∧
      (∀ e, t.desc.get e = if e = d then some v else s.desc.get e) ∧
      hostAccess (.readReg off) t = .next { t with rdata := some v }) ∧
    (s.desc.get d = none → hostAccess (.readReg off) s = .refused (.registerUnwritten off))) ∧
  (∀ ds : Descriptors, descriptorMap.map (fun e => ds.get e.1) =
    [ds.width, ds.height, ds.compSize, ds.mode, ds.config, ds.srcX, ds.srcY, ds.srcDepth, ds.srcRate, ds.srcIndex,
     ds.dstX, ds.dstY, ds.dstDepth, ds.dstRate, ds.dstIndex, ds.frameStart, ds.frameNumber, ds.frameSize]) ∧
  ∀ (s : State) (off : Nat) (v : Word), s.phase ≠ .busy → off ∉ [0x00, 0x04, 0x08, 0x0C, 0x10] →
    off ∉ descriptorMap.map Prod.snd →
    hostAccess (.readReg off) s = .refused (.unknownRegister off) ∧
    hostAccess (.writeReg off v) s = .refused (.unknownRegister off)

/-- R31, R32, R33, R27, R43, R248: outside BUSY the host reads STATUS, which answers the STATUS word, and the three
error registers at their offsets, and a read changes nothing of the core; it may not write them, nor read CMD. The
registers are the spec's own choice D20; that a write of one is refused is log entry 18. (A STATUS read while BUSY is
BusyRefusesAllButStatusReads.) -/
def Obligations.ErrorRegistersAreReadOnly : Prop :=
  ∀ (s : State) (v : Word), s.phase ≠ .busy →
    hostAccess (.readReg 0x04) s = .next { s with rdata := some (statusWord s) } ∧
    hostAccess (.readReg 0x08) s = .next { s with rdata := some s.errWord } ∧
    hostAccess (.readReg 0x0C) s = .next { s with rdata := some s.errBit } ∧
    hostAccess (.readReg 0x10) s = .next { s with rdata := some s.errMb } ∧
    hostAccess (.readReg 0x00) s = .refused .readOfCmd ∧
    (∀ off, off = 0x04 ∨ off = 0x08 ∨ off = 0x0C ∨ off = 0x10 →
      hostAccess (.writeReg off v) s = .refused (.writeOfReadOnly off))

/-- R43, R60: outside BUSY the host reads byte `off` of PUB below its size; with no PUB, or beyond its size, the read
is refused. The refusals are the spec's own choices D1 and D30. -/
def Obligations.PublishedBytesAreReadWithinTheirBounds : Prop :=
  ∀ (s : State) (off : Nat), s.phase ≠ .busy →
    (s.pub = none → hostAccess (.readPub off) s = .refused .noPublishedBuffer) ∧
    ∀ p, s.pub = some p →
      (off < p.w * p.h * p.bpp →
        ∃ v : Word, hostAccess (.readPub off) s = .next { s with rdata := some v } ∧
          v.toNat = (p.buf.byteAt off).toNat) ∧
      (p.w * p.h * p.bpp ≤ off → hostAccess (.readPub off) s = .refused (.beyondPublishedBuffer off))

/-- R61, R43: outside BUSY a host write to PAYLOAD changes that byte alone, and the core then reads it. When the host
may write is the spec's own choice D30; the granularity is log entry 22. -/
def Obligations.PayloadWritesChangeOneByte : Prop :=
  ∀ (s : State) (a : Word) (v : Byte), s.phase ≠ .busy →
    ∃ t, hostAccess (.writePayload a v) s = .next t ∧ t = { s with payload := t.payload, rdata := none } ∧
      payloadByte t a.toNat = v ∧ ∀ c, c ≠ a.toNat → payloadByte t c = payloadByte s c

/-! ### Rules over every step -/

/-- R43: the host has no access to PAL, MAP, the cursor, the scanner, the latched values, QT, SCR or WORK: a host
access that is no CMD write leaves them, and STATUS, PUB and the error registers, as they were. The access rights are
the spec's own choices D1 and D30. -/
def Obligations.HostAccessesLeaveTheCoreAlone : Prop :=
  ∀ (a : HostAccess) (s t : State), (∀ v, a ≠ .writeReg 0x00 v) → hostAccess a s = .next t →
    t = { s with desc := t.desc, payload := t.payload, rdata := t.rdata }

/-- R22, R144, R149: a step changes PAL only by running a VQ block of a running DECODE, or by RESET or DESTROY; in
particular starting a DECODE, ending one and faulting do not. That a failed frame's updates stay is the spec's own
choice D12; that DESTROY makes PAL open, D33. -/
def Obligations.PaletteChangesOnlyBySlotsResetAndDestroy : Prop :=
  ∀ s t : State, step s = .next t → t.pal ≠ s.pal →
    (s.phase = .busy ∧ ∃ i, decodeAt s = .ok i ∧ (vqOperands i).isSome = true) ∨
    (s.phase ≠ .busy ∧ (commandNext 1 s ∨ commandNext 3 s))

/-- R38, R71, R247: a step changes PUB only by ending a running DECODE successfully, when PUB becomes the whole
working buffer with the frame's geometry, or by RESET or DESTROY, which discard it. That DESTROY discards PUB is the
spec's own choice D33. That no WORK is left is log entry 19 (DEDUCED, from R41). -/
def Obligations.PublishedBufferIsReplacedWholeOrDiscarded : Prop :=
  ∀ s t : State, step s = .next t → t.pub ≠ s.pub →
    (s.phase = .busy ∧ t.phase = .ready ∧ t.work = none ∧
      t.pub = s.work.map fun b => { buf := b, w := s.latched.w, h := s.latched.h, bpp := s.latched.bpp }) ∨
    (s.phase ≠ .busy ∧ t.pub = none ∧ (commandNext 1 s ∨ commandNext 3 s))

/-- R31, R243: how STATE may change in one step. The states are the spec's own choices D20 and D34; the step boundary
is log entry 11. -/
def Obligations.StateChangesFollowTheStatusTable : Prop :=
  ∀ s t : State, step s = .next t → t.phase ≠ s.phase →
    (s.phase = .busy ∧ t.phase = .ready ∧ t.errCode = .none) ∨
    (s.phase = .busy ∧ t.phase = .error ∧ t.endReason = s.endReason ∧ t.pub = s.pub) ∨
    (s.phase ≠ .busy ∧ t.phase = .ready ∧ commandNext 1 s ∧ t.errCode = .none ∧ t.pub = none) ∨
    ((s.phase = .ready ∨ s.phase = .error) ∧ t.phase = .uninit ∧ commandNext 3 s ∧ t.errCode = s.errCode ∧
      t.endReason = s.endReason ∧ t.pub = none) ∨
    ((s.phase = .ready ∨ s.phase = .error) ∧ t.phase = .busy ∧ commandNext 2 s ∧ t.pub = s.pub) ∨
    (s.phase = .ready ∧ t.phase = .error ∧ commandNext 2 s ∧ t.errCode = .headerInconsistent ∧ t.pub = s.pub)

/-! ### The invariant -/

/-- The state invariant holds after reset and at power-on. The values the spec leaves open are those of log entries 3
to 7. -/
def Obligations.InvariantHoldsAtReset : Prop := State.Inv State.reset ∧ State.Inv State.powerOn

/-- R24, R25, R38, R106, R127, R205, R243: every step keeps the state invariant (Safety.lean): the cursor within the
payload and its window exact, the scanner within the frame, every output byte within its buffer, the memories
canonical, the tables in range, the status fields consistent. Parts of it are the spec's derived rules (R9, R127,
R243) and choices (D4, D10, D19). -/
def Obligations.EveryStepKeepsTheInvariant : Prop :=
  ∀ s t : State, State.Inv s → step s = .next t → State.Inv t

/-- R13, 93_implementation_defined.md section 3: no step ends in a fault, and a state whose next action is no host
access never refuses: the core itself always has a step. The outcomes are the spec's own framing D1. -/
def Obligations.TheCoreNeverStops : Prop :=
  ∀ s : State, (∀ a rest, s.host ≠ .access a :: rest) → ∃ t, step s = .next t

/-! ### Who moves -/

/-- R43, R244, R248: a step of a state whose next action is a host access is that access, made on the state without it;
so every statement about `hostAccess` is one about `step`. That the host is a list of actions and an access is a step of
its own is the model's choice, log entries 11 and 12. -/
def Obligations.StepMakesTheHostsAccess : Prop :=
  ∀ (s : State) (a : HostAccess) (rest : List HostAction), s.host = .access a :: rest →
    step s = hostAccess a { s with host := rest }

/-- R246, R275: a core that is not BUSY is idle with all state retained: with a silent host a step answers the same
state, and a pause or a wait of the host takes only itself off the host's list. Between commands power states do not
exist by the spec's own choice D31; the host's list is log entry 12, the idle step log entry 27. -/
def Obligations.IdleCoreRetainsAllState : Prop :=
  ∀ s : State, s.phase ≠ .busy →
    (s.host = [] → step s = .next s) ∧
    (∀ more, s.host = .pause :: more → step s = .next { s with host := more }) ∧
    (∀ more, s.host = .awaitIdle :: more → step s = .next { s with host := more })
end

