-- ==== Sys2Proof/Laws/Bits.lean ====
section
/-!
SUPPORT. Bit sequences and fields: a field's bits write the field, and taking a field from the bits that encode it gives
it back.
-/

namespace Sys2Proof

@[simp] theorem length_bitsOf {n : Nat} (v : BitVec n) : (bitsOf v).length = n := by simp [bitsOf]

theorem getElem_bitsOf {n : Nat} (v : BitVec n) (k : Nat) (h : k < (bitsOf v).length) :
    (bitsOf v)[k] = v.getMsbD k := by simp [bitsOf]

@[simp] theorem natOfBits_nil : natOfBits [] = 0 := rfl

theorem natOfBits_append_single (bs : List Bool) (b : Bool) : natOfBits (bs ++ [b]) = 2 * natOfBits bs + b.toNat := by
  simp [natOfBits]

/-- The number a bit sequence writes is below 2 to its length. -/
theorem natOfBits_lt (bs : List Bool) : natOfBits bs < 2 ^ bs.length := by
  induction bs using List.reverseRecOn with
  | nil => simp
  | append_singleton bs b ih =>
    rw [natOfBits_append_single, List.length_append, List.length_singleton, pow_succ]
    cases b <;> simp <;> omega

/-- Bit `j` from the least significant end of the number is the `j`-th bit from the end of the sequence. -/
theorem testBit_natOfBits (bs : List Bool) (k : Nat) (h : k < bs.length) :
    (natOfBits bs).testBit (bs.length - 1 - k) = bs[k] := by
  induction bs using List.reverseRecOn generalizing k with
  | nil => simp at h
  | append_singleton bs b ih =>
    simp only [List.length_append, List.length_singleton] at h ⊢
    rw [natOfBits_append_single]
    by_cases hk : k = bs.length
    · subst hk
      cases b <;> simp [Nat.testBit_zero]
    · have hk' : k < bs.length := by omega
      have e : bs.length + 1 - 1 - k = (bs.length - 1 - k) + 1 := by omega
      rw [e, Nat.testBit_succ, List.getElem_append_left hk']
      have d : (2 * natOfBits bs + b.toNat) / 2 = natOfBits bs := by
        have := Bool.toNat_le b
        omega
      rw [d, ih k hk']

/-- Bit `k` from the most significant end of a field built from `n` bits is bit `k` of the sequence. -/
theorem getMsbD_ofNat_natOfBits {n : Nat} (bs : List Bool) (hn : bs.length = n) (k : Nat) (h : k < bs.length) :
    (BitVec.ofNat n (natOfBits bs)).getMsbD k = bs[k] := by
  subst hn
  rw [BitVec.getMsbD_eq_getLsbD, BitVec.getLsbD_ofNat, testBit_natOfBits bs k h]
  have : bs.length - 1 - k < bs.length := by omega
  simp [h, this]

/-- A field is the field its own bits write. -/
theorem ofNat_natOfBits_bitsOf {n : Nat} (v : BitVec n) : BitVec.ofNat n (natOfBits (bitsOf v)) = v := by
  apply BitVec.eq_of_getMsbD_eq
  intro k hk
  rw [getMsbD_ofNat_natOfBits (bitsOf v) (length_bitsOf v) k (by simpa using hk), getElem_bitsOf]

/-- The bits of a field built from `n` bits are those bits. -/
theorem bitsOf_ofNat_natOfBits (bs : List Bool) : bitsOf (BitVec.ofNat bs.length (natOfBits bs)) = bs := by
  apply List.ext_getElem (by simp)
  intro k h1 h2
  rw [getElem_bitsOf, getMsbD_ofNat_natOfBits bs rfl k h2]

/-- Taking a field from its own bits gives it back, and leaves the rest. -/
@[simp] theorem takeField_bitsOf {n : Nat} (e : DecodeError) (v : BitVec n) (rest : List Bool) :
    takeField n e (bitsOf v ++ rest) = .ok (v, rest) := by
  have h1 : ¬ (bitsOf v ++ rest).length < n := by simp
  have h2 : (bitsOf v ++ rest).take n = bitsOf v := by
    rw [List.take_append_of_le_length (by simp), List.take_of_length_le (by simp)]
  have h3 : (bitsOf v ++ rest).drop n = rest := by
    rw [List.drop_append_of_le_length (by simp), List.drop_of_length_le (by simp), List.nil_append]
  rw [takeField, if_neg h1, h2, h3, ofNat_natOfBits_bitsOf]

/-- What taking a field answers, in full. -/
theorem takeField_eq_ok {n : Nat} {e : DecodeError} {bs rest : List Bool} {v : BitVec n} :
    takeField n e bs = .ok (v, rest) ↔ bs = bitsOf v ++ rest := by
  constructor
  · intro h
    unfold takeField at h
    split at h
    · cases h
    · rename_i hl
      simp only [Except.ok.injEq, Prod.mk.injEq] at h
      obtain ⟨hv, hr⟩ := h
      have hlen : (bs.take n).length = n := by simp; omega
      have hb : bitsOf (BitVec.ofNat n (natOfBits (bs.take n))) = bs.take n := by
        have := bitsOf_ofNat_natOfBits (bs.take n)
        rw [hlen] at this
        exact this
      rw [← hv, ← hr, hb, List.take_append_drop]
  · rintro rfl
    exact takeField_bitsOf e v rest

/-- Taking a field that is long enough succeeds. -/
theorem takeField_ok_of_le {n : Nat} (e : DecodeError) (bs : List Bool) (h : n ≤ bs.length) :
    ∃ v : BitVec n, takeField n e bs = .ok (v, bs.drop n) := by
  refine ⟨BitVec.ofNat n (natOfBits (bs.take n)), ?_⟩
  rw [takeField, if_neg (by omega)]

/-! ### Fields of a block, encoded and decoded -/

theorem decodeCoord_encodeCoord (p : Params) (c : Coord) (h : c.wf p = true) (rest : List Bool) :
    decodeCoord p (encodeCoord p c ++ rest) = .ok (c, rest) := by
  obtain ⟨x, y, g⟩ := c
  unfold decodeCoord encodeCoord
  unfold Coord.wf at h
  cases hp : p.coordBits <;> simp_all [bind, Except.bind, pure, Except.pure, List.append_assoc]

theorem decodeSlot_encodeSlot (p : Params) (s : Slot) (rest : List Bool) :
    decodeSlot p (encodeSlot p s ++ rest) = .ok (s, rest) := by
  obtain ⟨idx, color⟩ := s
  unfold decodeSlot encodeSlot decodeSlotHead slotFlag
  cases hp : p.slotOrder <;> cases color <;>
    simp [bind, Except.bind, pure, Except.pure, List.append_assoc]

theorem length_encodeCoord (p : Params) (c : Coord) : (encodeCoord p c).length = coordWidth p := by
  unfold encodeCoord coordWidth
  cases p.coordBits <;> simp

/-- A slot is 3 bits, or 27 with an update (R84). -/
theorem length_encodeSlot (p : Params) (s : Slot) :
    (encodeSlot p s).length = if s.color.isSome then 27 else 3 := by
  obtain ⟨idx, color⟩ := s
  unfold encodeSlot
  cases p.slotOrder <;> cases color <;> simp

end Sys2Proof
end

