-- ==== Sys2Proof/Laws/State.lean ====
section
/-!
SUPPORT. For each update of the state, one lemma per field: what the field is afterwards. All are true by unfolding, and
no later proof needs to unfold an update.
-/

namespace Sys2Proof.Machine


/-! ### `setPal` -/

@[simp] theorem setPal_params (s : State) (i : BitVec 2) (c : Color) : (State.setPal s i c).params = s.params := rfl
@[simp] theorem setPal_pal (s : State) (i : BitVec 2) (c : Color) : (State.setPal s i c).pal = s.pal.set i.toNat c i.isLt := rfl
@[simp] theorem setPal_map (s : State) (i : BitVec 2) (c : Color) : (State.setPal s i c).map = s.map := rfl
@[simp] theorem setPal_pos (s : State) (i : BitVec 2) (c : Color) : (State.setPal s i c).pos = s.pos := rfl
@[simp] theorem setPal_window (s : State) (i : BitVec 2) (c : Color) : (State.setPal s i c).window = s.window := rfl
@[simp] theorem setPal_sx (s : State) (i : BitVec 2) (c : Color) : (State.setPal s i c).sx = s.sx := rfl
@[simp] theorem setPal_sy (s : State) (i : BitVec 2) (c : Color) : (State.setPal s i c).sy = s.sy := rfl
@[simp] theorem setPal_latched (s : State) (i : BitVec 2) (c : Color) : (State.setPal s i c).latched = s.latched := rfl
@[simp] theorem setPal_qt (s : State) (i : BitVec 2) (c : Color) : (State.setPal s i c).qt = s.qt := rfl
@[simp] theorem setPal_scr (s : State) (i : BitVec 2) (c : Color) : (State.setPal s i c).scr = s.scr := rfl
@[simp] theorem setPal_work (s : State) (i : BitVec 2) (c : Color) : (State.setPal s i c).work = s.work := rfl
@[simp] theorem setPal_pub (s : State) (i : BitVec 2) (c : Color) : (State.setPal s i c).pub = s.pub := rfl
@[simp] theorem setPal_phase (s : State) (i : BitVec 2) (c : Color) : (State.setPal s i c).phase = s.phase := rfl
@[simp] theorem setPal_errCode (s : State) (i : BitVec 2) (c : Color) : (State.setPal s i c).errCode = s.errCode := rfl
@[simp] theorem setPal_endReason (s : State) (i : BitVec 2) (c : Color) : (State.setPal s i c).endReason = s.endReason := rfl
@[simp] theorem setPal_errWord (s : State) (i : BitVec 2) (c : Color) : (State.setPal s i c).errWord = s.errWord := rfl
@[simp] theorem setPal_errBit (s : State) (i : BitVec 2) (c : Color) : (State.setPal s i c).errBit = s.errBit := rfl
@[simp] theorem setPal_errMb (s : State) (i : BitVec 2) (c : Color) : (State.setPal s i c).errMb = s.errMb := rfl
@[simp] theorem setPal_desc (s : State) (i : BitVec 2) (c : Color) : (State.setPal s i c).desc = s.desc := rfl
@[simp] theorem setPal_payload (s : State) (i : BitVec 2) (c : Color) : (State.setPal s i c).payload = s.payload := rfl
@[simp] theorem setPal_draws (s : State) (i : BitVec 2) (c : Color) : (State.setPal s i c).draws = s.draws := rfl
@[simp] theorem setPal_host (s : State) (i : BitVec 2) (c : Color) : (State.setPal s i c).host = s.host := rfl
@[simp] theorem setPal_rdata (s : State) (i : BitVec 2) (c : Color) : (State.setPal s i c).rdata = s.rdata := rfl

/-! ### `setMap` -/

@[simp] theorem setMap_params (s : State) (j idx : BitVec 2) : (State.setMap s j idx).params = s.params := rfl
@[simp] theorem setMap_pal (s : State) (j idx : BitVec 2) : (State.setMap s j idx).pal = s.pal := rfl
@[simp] theorem setMap_map (s : State) (j idx : BitVec 2) : (State.setMap s j idx).map = s.map.set j.toNat idx j.isLt := rfl
@[simp] theorem setMap_pos (s : State) (j idx : BitVec 2) : (State.setMap s j idx).pos = s.pos := rfl
@[simp] theorem setMap_window (s : State) (j idx : BitVec 2) : (State.setMap s j idx).window = s.window := rfl
@[simp] theorem setMap_sx (s : State) (j idx : BitVec 2) : (State.setMap s j idx).sx = s.sx := rfl
@[simp] theorem setMap_sy (s : State) (j idx : BitVec 2) : (State.setMap s j idx).sy = s.sy := rfl
@[simp] theorem setMap_latched (s : State) (j idx : BitVec 2) : (State.setMap s j idx).latched = s.latched := rfl
@[simp] theorem setMap_qt (s : State) (j idx : BitVec 2) : (State.setMap s j idx).qt = s.qt := rfl
@[simp] theorem setMap_scr (s : State) (j idx : BitVec 2) : (State.setMap s j idx).scr = s.scr := rfl
@[simp] theorem setMap_work (s : State) (j idx : BitVec 2) : (State.setMap s j idx).work = s.work := rfl
@[simp] theorem setMap_pub (s : State) (j idx : BitVec 2) : (State.setMap s j idx).pub = s.pub := rfl
@[simp] theorem setMap_phase (s : State) (j idx : BitVec 2) : (State.setMap s j idx).phase = s.phase := rfl
@[simp] theorem setMap_errCode (s : State) (j idx : BitVec 2) : (State.setMap s j idx).errCode = s.errCode := rfl
@[simp] theorem setMap_endReason (s : State) (j idx : BitVec 2) : (State.setMap s j idx).endReason = s.endReason := rfl
@[simp] theorem setMap_errWord (s : State) (j idx : BitVec 2) : (State.setMap s j idx).errWord = s.errWord := rfl
@[simp] theorem setMap_errBit (s : State) (j idx : BitVec 2) : (State.setMap s j idx).errBit = s.errBit := rfl
@[simp] theorem setMap_errMb (s : State) (j idx : BitVec 2) : (State.setMap s j idx).errMb = s.errMb := rfl
@[simp] theorem setMap_desc (s : State) (j idx : BitVec 2) : (State.setMap s j idx).desc = s.desc := rfl
@[simp] theorem setMap_payload (s : State) (j idx : BitVec 2) : (State.setMap s j idx).payload = s.payload := rfl
@[simp] theorem setMap_draws (s : State) (j idx : BitVec 2) : (State.setMap s j idx).draws = s.draws := rfl
@[simp] theorem setMap_host (s : State) (j idx : BitVec 2) : (State.setMap s j idx).host = s.host := rfl
@[simp] theorem setMap_rdata (s : State) (j idx : BitVec 2) : (State.setMap s j idx).rdata = s.rdata := rfl

/-! ### `advanceCursor` -/

@[simp] theorem advanceCursor_params (s : State) (n : Nat) : (advanceCursor n s).params = s.params := rfl
@[simp] theorem advanceCursor_pal (s : State) (n : Nat) : (advanceCursor n s).pal = s.pal := rfl
@[simp] theorem advanceCursor_map (s : State) (n : Nat) : (advanceCursor n s).map = s.map := rfl
@[simp] theorem advanceCursor_pos (s : State) (n : Nat) : (advanceCursor n s).pos = s.pos + n := rfl
@[simp] theorem advanceCursor_window (s : State) (n : Nat) : (advanceCursor n s).window = s.window.advance n (wordOrZero s s.window.idx) := rfl
@[simp] theorem advanceCursor_sx (s : State) (n : Nat) : (advanceCursor n s).sx = s.sx := rfl
@[simp] theorem advanceCursor_sy (s : State) (n : Nat) : (advanceCursor n s).sy = s.sy := rfl
@[simp] theorem advanceCursor_latched (s : State) (n : Nat) : (advanceCursor n s).latched = s.latched := rfl
@[simp] theorem advanceCursor_qt (s : State) (n : Nat) : (advanceCursor n s).qt = s.qt := rfl
@[simp] theorem advanceCursor_scr (s : State) (n : Nat) : (advanceCursor n s).scr = s.scr := rfl
@[simp] theorem advanceCursor_work (s : State) (n : Nat) : (advanceCursor n s).work = s.work := rfl
@[simp] theorem advanceCursor_pub (s : State) (n : Nat) : (advanceCursor n s).pub = s.pub := rfl
@[simp] theorem advanceCursor_phase (s : State) (n : Nat) : (advanceCursor n s).phase = s.phase := rfl
@[simp] theorem advanceCursor_errCode (s : State) (n : Nat) : (advanceCursor n s).errCode = s.errCode := rfl
@[simp] theorem advanceCursor_endReason (s : State) (n : Nat) : (advanceCursor n s).endReason = s.endReason := rfl
@[simp] theorem advanceCursor_errWord (s : State) (n : Nat) : (advanceCursor n s).errWord = s.errWord := rfl
@[simp] theorem advanceCursor_errBit (s : State) (n : Nat) : (advanceCursor n s).errBit = s.errBit := rfl
@[simp] theorem advanceCursor_errMb (s : State) (n : Nat) : (advanceCursor n s).errMb = s.errMb := rfl
@[simp] theorem advanceCursor_desc (s : State) (n : Nat) : (advanceCursor n s).desc = s.desc := rfl
@[simp] theorem advanceCursor_payload (s : State) (n : Nat) : (advanceCursor n s).payload = s.payload := rfl
@[simp] theorem advanceCursor_draws (s : State) (n : Nat) : (advanceCursor n s).draws = s.draws := rfl
@[simp] theorem advanceCursor_host (s : State) (n : Nat) : (advanceCursor n s).host = s.host := rfl
@[simp] theorem advanceCursor_rdata (s : State) (n : Nat) : (advanceCursor n s).rdata = s.rdata := rfl

/-! ### `initCursor` -/

@[simp] theorem initCursor_params (s : State) : (initCursor s).params = s.params := rfl
@[simp] theorem initCursor_pal (s : State) : (initCursor s).pal = s.pal := rfl
@[simp] theorem initCursor_map (s : State) : (initCursor s).map = s.map := rfl
@[simp] theorem initCursor_pos (s : State) : (initCursor s).pos = 0 := rfl
@[simp] theorem initCursor_window (s : State) : (initCursor s).window = { w0 := wordOrZero s 0, w1 := wordOrZero s 1, cnt := 32, idx := 2 } := rfl
@[simp] theorem initCursor_sx (s : State) : (initCursor s).sx = s.sx := rfl
@[simp] theorem initCursor_sy (s : State) : (initCursor s).sy = s.sy := rfl
@[simp] theorem initCursor_latched (s : State) : (initCursor s).latched = s.latched := rfl
@[simp] theorem initCursor_qt (s : State) : (initCursor s).qt = s.qt := rfl
@[simp] theorem initCursor_scr (s : State) : (initCursor s).scr = s.scr := rfl
@[simp] theorem initCursor_work (s : State) : (initCursor s).work = s.work := rfl
@[simp] theorem initCursor_pub (s : State) : (initCursor s).pub = s.pub := rfl
@[simp] theorem initCursor_phase (s : State) : (initCursor s).phase = s.phase := rfl
@[simp] theorem initCursor_errCode (s : State) : (initCursor s).errCode = s.errCode := rfl
@[simp] theorem initCursor_endReason (s : State) : (initCursor s).endReason = s.endReason := rfl
@[simp] theorem initCursor_errWord (s : State) : (initCursor s).errWord = s.errWord := rfl
@[simp] theorem initCursor_errBit (s : State) : (initCursor s).errBit = s.errBit := rfl
@[simp] theorem initCursor_errMb (s : State) : (initCursor s).errMb = s.errMb := rfl
@[simp] theorem initCursor_desc (s : State) : (initCursor s).desc = s.desc := rfl
@[simp] theorem initCursor_payload (s : State) : (initCursor s).payload = s.payload := rfl
@[simp] theorem initCursor_draws (s : State) : (initCursor s).draws = s.draws := rfl
@[simp] theorem initCursor_host (s : State) : (initCursor s).host = s.host := rfl
@[simp] theorem initCursor_rdata (s : State) : (initCursor s).rdata = s.rdata := rfl

/-! ### `initScanner` -/

@[simp] theorem initScanner_params (s : State) : (initScanner s).params = s.params := rfl
@[simp] theorem initScanner_pal (s : State) : (initScanner s).pal = s.pal := rfl
@[simp] theorem initScanner_map (s : State) : (initScanner s).map = s.map := rfl
@[simp] theorem initScanner_pos (s : State) : (initScanner s).pos = s.pos := rfl
@[simp] theorem initScanner_window (s : State) : (initScanner s).window = s.window := rfl
@[simp] theorem initScanner_sx (s : State) : (initScanner s).sx = 0 := rfl
@[simp] theorem initScanner_sy (s : State) : (initScanner s).sy = 0 := rfl
@[simp] theorem initScanner_latched (s : State) : (initScanner s).latched = s.latched := rfl
@[simp] theorem initScanner_qt (s : State) : (initScanner s).qt = s.qt := rfl
@[simp] theorem initScanner_scr (s : State) : (initScanner s).scr = s.scr := rfl
@[simp] theorem initScanner_work (s : State) : (initScanner s).work = s.work := rfl
@[simp] theorem initScanner_pub (s : State) : (initScanner s).pub = s.pub := rfl
@[simp] theorem initScanner_phase (s : State) : (initScanner s).phase = s.phase := rfl
@[simp] theorem initScanner_errCode (s : State) : (initScanner s).errCode = s.errCode := rfl
@[simp] theorem initScanner_endReason (s : State) : (initScanner s).endReason = s.endReason := rfl
@[simp] theorem initScanner_errWord (s : State) : (initScanner s).errWord = s.errWord := rfl
@[simp] theorem initScanner_errBit (s : State) : (initScanner s).errBit = s.errBit := rfl
@[simp] theorem initScanner_errMb (s : State) : (initScanner s).errMb = s.errMb := rfl
@[simp] theorem initScanner_desc (s : State) : (initScanner s).desc = s.desc := rfl
@[simp] theorem initScanner_payload (s : State) : (initScanner s).payload = s.payload := rfl
@[simp] theorem initScanner_draws (s : State) : (initScanner s).draws = s.draws := rfl
@[simp] theorem initScanner_host (s : State) : (initScanner s).host = s.host := rfl
@[simp] theorem initScanner_rdata (s : State) : (initScanner s).rdata = s.rdata := rfl

/-! ### `buildAllQt` -/

@[simp] theorem buildAllQt_params (s : State) : (buildAllQt s).params = s.params := rfl
@[simp] theorem buildAllQt_pal (s : State) : (buildAllQt s).pal = s.pal := rfl
@[simp] theorem buildAllQt_map (s : State) : (buildAllQt s).map = s.map := rfl
@[simp] theorem buildAllQt_pos (s : State) : (buildAllQt s).pos = s.pos := rfl
@[simp] theorem buildAllQt_window (s : State) : (buildAllQt s).window = s.window := rfl
@[simp] theorem buildAllQt_sx (s : State) : (buildAllQt s).sx = s.sx := rfl
@[simp] theorem buildAllQt_sy (s : State) : (buildAllQt s).sy = s.sy := rfl
@[simp] theorem buildAllQt_latched (s : State) : (buildAllQt s).latched = s.latched := rfl
@[simp] theorem buildAllQt_scr (s : State) : (buildAllQt s).scr = s.scr := rfl
@[simp] theorem buildAllQt_work (s : State) : (buildAllQt s).work = s.work := rfl
@[simp] theorem buildAllQt_pub (s : State) : (buildAllQt s).pub = s.pub := rfl
@[simp] theorem buildAllQt_phase (s : State) : (buildAllQt s).phase = s.phase := rfl
@[simp] theorem buildAllQt_errCode (s : State) : (buildAllQt s).errCode = s.errCode := rfl
@[simp] theorem buildAllQt_endReason (s : State) : (buildAllQt s).endReason = s.endReason := rfl
@[simp] theorem buildAllQt_errWord (s : State) : (buildAllQt s).errWord = s.errWord := rfl
@[simp] theorem buildAllQt_errBit (s : State) : (buildAllQt s).errBit = s.errBit := rfl
@[simp] theorem buildAllQt_errMb (s : State) : (buildAllQt s).errMb = s.errMb := rfl
@[simp] theorem buildAllQt_desc (s : State) : (buildAllQt s).desc = s.desc := rfl
@[simp] theorem buildAllQt_payload (s : State) : (buildAllQt s).payload = s.payload := rfl
@[simp] theorem buildAllQt_draws (s : State) : (buildAllQt s).draws = s.draws := rfl
@[simp] theorem buildAllQt_host (s : State) : (buildAllQt s).host = s.host := rfl
@[simp] theorem buildAllQt_rdata (s : State) : (buildAllQt s).rdata = s.rdata := rfl

/-! ### `convert444` -/

@[simp] theorem convert444_params (s : State) (bx byy : Nat) : (convert444 bx byy s).params = s.params := rfl
@[simp] theorem convert444_pal (s : State) (bx byy : Nat) : (convert444 bx byy s).pal = s.pal := rfl
@[simp] theorem convert444_map (s : State) (bx byy : Nat) : (convert444 bx byy s).map = s.map := rfl
@[simp] theorem convert444_pos (s : State) (bx byy : Nat) : (convert444 bx byy s).pos = s.pos := rfl
@[simp] theorem convert444_window (s : State) (bx byy : Nat) : (convert444 bx byy s).window = s.window := rfl
@[simp] theorem convert444_sx (s : State) (bx byy : Nat) : (convert444 bx byy s).sx = s.sx := rfl
@[simp] theorem convert444_sy (s : State) (bx byy : Nat) : (convert444 bx byy s).sy = s.sy := rfl
@[simp] theorem convert444_latched (s : State) (bx byy : Nat) : (convert444 bx byy s).latched = s.latched := rfl
@[simp] theorem convert444_qt (s : State) (bx byy : Nat) : (convert444 bx byy s).qt = s.qt := rfl
@[simp] theorem convert444_scr (s : State) (bx byy : Nat) : (convert444 bx byy s).scr = s.scr := rfl
@[simp] theorem convert444_work (s : State) (bx byy : Nat) : (convert444 bx byy s).work = s.work.map fun b => (List.range 64).foldl (fun b p => pixel444 s.latched s.scr bx byy p b) b := rfl
@[simp] theorem convert444_pub (s : State) (bx byy : Nat) : (convert444 bx byy s).pub = s.pub := rfl
@[simp] theorem convert444_phase (s : State) (bx byy : Nat) : (convert444 bx byy s).phase = s.phase := rfl
@[simp] theorem convert444_errCode (s : State) (bx byy : Nat) : (convert444 bx byy s).errCode = s.errCode := rfl
@[simp] theorem convert444_endReason (s : State) (bx byy : Nat) : (convert444 bx byy s).endReason = s.endReason := rfl
@[simp] theorem convert444_errWord (s : State) (bx byy : Nat) : (convert444 bx byy s).errWord = s.errWord := rfl
@[simp] theorem convert444_errBit (s : State) (bx byy : Nat) : (convert444 bx byy s).errBit = s.errBit := rfl
@[simp] theorem convert444_errMb (s : State) (bx byy : Nat) : (convert444 bx byy s).errMb = s.errMb := rfl
@[simp] theorem convert444_desc (s : State) (bx byy : Nat) : (convert444 bx byy s).desc = s.desc := rfl
@[simp] theorem convert444_payload (s : State) (bx byy : Nat) : (convert444 bx byy s).payload = s.payload := rfl
@[simp] theorem convert444_draws (s : State) (bx byy : Nat) : (convert444 bx byy s).draws = s.draws := rfl
@[simp] theorem convert444_host (s : State) (bx byy : Nat) : (convert444 bx byy s).host = s.host := rfl
@[simp] theorem convert444_rdata (s : State) (bx byy : Nat) : (convert444 bx byy s).rdata = s.rdata := rfl

/-! ### `convert420` -/

@[simp] theorem convert420_params (s : State) (bx byy : Nat) : (convert420 bx byy s).params = s.params := rfl
@[simp] theorem convert420_pal (s : State) (bx byy : Nat) : (convert420 bx byy s).pal = s.pal := rfl
@[simp] theorem convert420_map (s : State) (bx byy : Nat) : (convert420 bx byy s).map = s.map := rfl
@[simp] theorem convert420_pos (s : State) (bx byy : Nat) : (convert420 bx byy s).pos = s.pos := rfl
@[simp] theorem convert420_window (s : State) (bx byy : Nat) : (convert420 bx byy s).window = s.window := rfl
@[simp] theorem convert420_sx (s : State) (bx byy : Nat) : (convert420 bx byy s).sx = s.sx := rfl
@[simp] theorem convert420_sy (s : State) (bx byy : Nat) : (convert420 bx byy s).sy = s.sy := rfl
@[simp] theorem convert420_latched (s : State) (bx byy : Nat) : (convert420 bx byy s).latched = s.latched := rfl
@[simp] theorem convert420_qt (s : State) (bx byy : Nat) : (convert420 bx byy s).qt = s.qt := rfl
@[simp] theorem convert420_scr (s : State) (bx byy : Nat) : (convert420 bx byy s).scr = s.scr := rfl
@[simp] theorem convert420_work (s : State) (bx byy : Nat) : (convert420 bx byy s).work = s.work.map fun b => (List.range 256).foldl (fun b p => pixel420 s.latched s.scr bx byy p b) b := rfl
@[simp] theorem convert420_pub (s : State) (bx byy : Nat) : (convert420 bx byy s).pub = s.pub := rfl
@[simp] theorem convert420_phase (s : State) (bx byy : Nat) : (convert420 bx byy s).phase = s.phase := rfl
@[simp] theorem convert420_errCode (s : State) (bx byy : Nat) : (convert420 bx byy s).errCode = s.errCode := rfl
@[simp] theorem convert420_endReason (s : State) (bx byy : Nat) : (convert420 bx byy s).endReason = s.endReason := rfl
@[simp] theorem convert420_errWord (s : State) (bx byy : Nat) : (convert420 bx byy s).errWord = s.errWord := rfl
@[simp] theorem convert420_errBit (s : State) (bx byy : Nat) : (convert420 bx byy s).errBit = s.errBit := rfl
@[simp] theorem convert420_errMb (s : State) (bx byy : Nat) : (convert420 bx byy s).errMb = s.errMb := rfl
@[simp] theorem convert420_desc (s : State) (bx byy : Nat) : (convert420 bx byy s).desc = s.desc := rfl
@[simp] theorem convert420_payload (s : State) (bx byy : Nat) : (convert420 bx byy s).payload = s.payload := rfl
@[simp] theorem convert420_draws (s : State) (bx byy : Nat) : (convert420 bx byy s).draws = s.draws := rfl
@[simp] theorem convert420_host (s : State) (bx byy : Nat) : (convert420 bx byy s).host = s.host := rfl
@[simp] theorem convert420_rdata (s : State) (bx byy : Nat) : (convert420 bx byy s).rdata = s.rdata := rfl

/-! ### `takeFault` -/

@[simp] theorem takeFault_params (s : State) (code : ErrCode) (p : Nat) : (takeFault code p s).params = s.params := rfl
@[simp] theorem takeFault_pal (s : State) (code : ErrCode) (p : Nat) : (takeFault code p s).pal = s.pal := rfl
@[simp] theorem takeFault_map (s : State) (code : ErrCode) (p : Nat) : (takeFault code p s).map = s.map := rfl
@[simp] theorem takeFault_pos (s : State) (code : ErrCode) (p : Nat) : (takeFault code p s).pos = s.pos := rfl
@[simp] theorem takeFault_window (s : State) (code : ErrCode) (p : Nat) : (takeFault code p s).window = s.window := rfl
@[simp] theorem takeFault_sx (s : State) (code : ErrCode) (p : Nat) : (takeFault code p s).sx = s.sx := rfl
@[simp] theorem takeFault_sy (s : State) (code : ErrCode) (p : Nat) : (takeFault code p s).sy = s.sy := rfl
@[simp] theorem takeFault_latched (s : State) (code : ErrCode) (p : Nat) : (takeFault code p s).latched = s.latched := rfl
@[simp] theorem takeFault_qt (s : State) (code : ErrCode) (p : Nat) : (takeFault code p s).qt = s.qt := rfl
@[simp] theorem takeFault_scr (s : State) (code : ErrCode) (p : Nat) : (takeFault code p s).scr = s.scr := rfl
@[simp] theorem takeFault_work (s : State) (code : ErrCode) (p : Nat) : (takeFault code p s).work = none := rfl
@[simp] theorem takeFault_pub (s : State) (code : ErrCode) (p : Nat) : (takeFault code p s).pub = s.pub := rfl
@[simp] theorem takeFault_phase (s : State) (code : ErrCode) (p : Nat) : (takeFault code p s).phase = .error := rfl
@[simp] theorem takeFault_errCode (s : State) (code : ErrCode) (p : Nat) : (takeFault code p s).errCode = code := rfl
@[simp] theorem takeFault_endReason (s : State) (code : ErrCode) (p : Nat) : (takeFault code p s).endReason = s.endReason := rfl
@[simp] theorem takeFault_errWord (s : State) (code : ErrCode) (p : Nat) : (takeFault code p s).errWord = if code = .headerInconsistent then 0 else BitVec.ofNat 32 (p / 32) := rfl
@[simp] theorem takeFault_errBit (s : State) (code : ErrCode) (p : Nat) : (takeFault code p s).errBit = if code = .headerInconsistent then 0 else BitVec.ofNat 32 (p % 32) := rfl
@[simp] theorem takeFault_errMb (s : State) (code : ErrCode) (p : Nat) : (takeFault code p s).errMb = if code = .headerInconsistent then 0 else BitVec.ofNat 16 s.sy ++ BitVec.ofNat 16 s.sx := rfl
@[simp] theorem takeFault_desc (s : State) (code : ErrCode) (p : Nat) : (takeFault code p s).desc = s.desc := rfl
@[simp] theorem takeFault_payload (s : State) (code : ErrCode) (p : Nat) : (takeFault code p s).payload = s.payload := rfl
@[simp] theorem takeFault_draws (s : State) (code : ErrCode) (p : Nat) : (takeFault code p s).draws = s.draws := rfl
@[simp] theorem takeFault_host (s : State) (code : ErrCode) (p : Nat) : (takeFault code p s).host = s.host := rfl
@[simp] theorem takeFault_rdata (s : State) (code : ErrCode) (p : Nat) : (takeFault code p s).rdata = s.rdata := rfl

/-! ### `endSuccess` -/

@[simp] theorem endSuccess_params (s : State) (r : EndReason) : (endSuccess r s).params = s.params := rfl
@[simp] theorem endSuccess_pal (s : State) (r : EndReason) : (endSuccess r s).pal = s.pal := rfl
@[simp] theorem endSuccess_map (s : State) (r : EndReason) : (endSuccess r s).map = s.map := rfl
@[simp] theorem endSuccess_pos (s : State) (r : EndReason) : (endSuccess r s).pos = s.pos := rfl
@[simp] theorem endSuccess_window (s : State) (r : EndReason) : (endSuccess r s).window = s.window := rfl
@[simp] theorem endSuccess_sx (s : State) (r : EndReason) : (endSuccess r s).sx = s.sx := rfl
@[simp] theorem endSuccess_sy (s : State) (r : EndReason) : (endSuccess r s).sy = s.sy := rfl
@[simp] theorem endSuccess_latched (s : State) (r : EndReason) : (endSuccess r s).latched = s.latched := rfl
@[simp] theorem endSuccess_qt (s : State) (r : EndReason) : (endSuccess r s).qt = s.qt := rfl
@[simp] theorem endSuccess_scr (s : State) (r : EndReason) : (endSuccess r s).scr = s.scr := rfl
@[simp] theorem endSuccess_work (s : State) (r : EndReason) : (endSuccess r s).work = none := rfl
@[simp] theorem endSuccess_pub (s : State) (r : EndReason) : (endSuccess r s).pub = publish s := rfl
@[simp] theorem endSuccess_phase (s : State) (r : EndReason) : (endSuccess r s).phase = .ready := rfl
@[simp] theorem endSuccess_errCode (s : State) (r : EndReason) : (endSuccess r s).errCode = .none := rfl
@[simp] theorem endSuccess_endReason (s : State) (r : EndReason) : (endSuccess r s).endReason = r := rfl
@[simp] theorem endSuccess_errWord (s : State) (r : EndReason) : (endSuccess r s).errWord = s.errWord := rfl
@[simp] theorem endSuccess_errBit (s : State) (r : EndReason) : (endSuccess r s).errBit = s.errBit := rfl
@[simp] theorem endSuccess_errMb (s : State) (r : EndReason) : (endSuccess r s).errMb = s.errMb := rfl
@[simp] theorem endSuccess_desc (s : State) (r : EndReason) : (endSuccess r s).desc = s.desc := rfl
@[simp] theorem endSuccess_payload (s : State) (r : EndReason) : (endSuccess r s).payload = s.payload := rfl
@[simp] theorem endSuccess_draws (s : State) (r : EndReason) : (endSuccess r s).draws = s.draws := rfl
@[simp] theorem endSuccess_host (s : State) (r : EndReason) : (endSuccess r s).host = s.host := rfl
@[simp] theorem endSuccess_rdata (s : State) (r : EndReason) : (endSuccess r s).rdata = s.rdata := rfl

/-! ### `destroyed` -/

@[simp] theorem destroyed_params (s : State) : (destroyed s).params = s.params := rfl
@[simp] theorem destroyed_pos (s : State) : (destroyed s).pos = s.pos := rfl
@[simp] theorem destroyed_window (s : State) : (destroyed s).window = s.window := rfl
@[simp] theorem destroyed_sx (s : State) : (destroyed s).sx = s.sx := rfl
@[simp] theorem destroyed_sy (s : State) : (destroyed s).sy = s.sy := rfl
@[simp] theorem destroyed_latched (s : State) : (destroyed s).latched = s.latched := rfl
@[simp] theorem destroyed_work (s : State) : (destroyed s).work = s.work := rfl
@[simp] theorem destroyed_pub (s : State) : (destroyed s).pub = none := rfl
@[simp] theorem destroyed_phase (s : State) : (destroyed s).phase = .uninit := rfl
@[simp] theorem destroyed_errCode (s : State) : (destroyed s).errCode = s.errCode := rfl
@[simp] theorem destroyed_endReason (s : State) : (destroyed s).endReason = s.endReason := rfl
@[simp] theorem destroyed_errWord (s : State) : (destroyed s).errWord = s.errWord := rfl
@[simp] theorem destroyed_errBit (s : State) : (destroyed s).errBit = s.errBit := rfl
@[simp] theorem destroyed_errMb (s : State) : (destroyed s).errMb = s.errMb := rfl
@[simp] theorem destroyed_desc (s : State) : (destroyed s).desc = s.desc := rfl
@[simp] theorem destroyed_payload (s : State) : (destroyed s).payload = s.payload := rfl
@[simp] theorem destroyed_draws (s : State) : (destroyed s).draws = s.draws + 1 := rfl
@[simp] theorem destroyed_host (s : State) : (destroyed s).host = s.host := rfl
@[simp] theorem destroyed_rdata (s : State) : (destroyed s).rdata = s.rdata := rfl

/-! ### `scannerAdvance` -/

@[simp] theorem scannerAdvance_params (s : State) : (scannerAdvance s).params = s.params := by unfold scannerAdvance; split <;> rfl
@[simp] theorem scannerAdvance_pal (s : State) : (scannerAdvance s).pal = s.pal := by unfold scannerAdvance; split <;> rfl
@[simp] theorem scannerAdvance_map (s : State) : (scannerAdvance s).map = s.map := by unfold scannerAdvance; split <;> rfl
@[simp] theorem scannerAdvance_pos (s : State) : (scannerAdvance s).pos = s.pos := by unfold scannerAdvance; split <;> rfl
@[simp] theorem scannerAdvance_window (s : State) : (scannerAdvance s).window = s.window := by unfold scannerAdvance; split <;> rfl
@[simp] theorem scannerAdvance_latched (s : State) : (scannerAdvance s).latched = s.latched := by unfold scannerAdvance; split <;> rfl
@[simp] theorem scannerAdvance_qt (s : State) : (scannerAdvance s).qt = s.qt := by unfold scannerAdvance; split <;> rfl
@[simp] theorem scannerAdvance_scr (s : State) : (scannerAdvance s).scr = s.scr := by unfold scannerAdvance; split <;> rfl
@[simp] theorem scannerAdvance_work (s : State) : (scannerAdvance s).work = s.work := by unfold scannerAdvance; split <;> rfl
@[simp] theorem scannerAdvance_pub (s : State) : (scannerAdvance s).pub = s.pub := by unfold scannerAdvance; split <;> rfl
@[simp] theorem scannerAdvance_phase (s : State) : (scannerAdvance s).phase = s.phase := by unfold scannerAdvance; split <;> rfl
@[simp] theorem scannerAdvance_errCode (s : State) : (scannerAdvance s).errCode = s.errCode := by unfold scannerAdvance; split <;> rfl
@[simp] theorem scannerAdvance_endReason (s : State) : (scannerAdvance s).endReason = s.endReason := by unfold scannerAdvance; split <;> rfl
@[simp] theorem scannerAdvance_errWord (s : State) : (scannerAdvance s).errWord = s.errWord := by unfold scannerAdvance; split <;> rfl
@[simp] theorem scannerAdvance_errBit (s : State) : (scannerAdvance s).errBit = s.errBit := by unfold scannerAdvance; split <;> rfl
@[simp] theorem scannerAdvance_errMb (s : State) : (scannerAdvance s).errMb = s.errMb := by unfold scannerAdvance; split <;> rfl
@[simp] theorem scannerAdvance_desc (s : State) : (scannerAdvance s).desc = s.desc := by unfold scannerAdvance; split <;> rfl
@[simp] theorem scannerAdvance_payload (s : State) : (scannerAdvance s).payload = s.payload := by unfold scannerAdvance; split <;> rfl
@[simp] theorem scannerAdvance_draws (s : State) : (scannerAdvance s).draws = s.draws := by unfold scannerAdvance; split <;> rfl
@[simp] theorem scannerAdvance_host (s : State) : (scannerAdvance s).host = s.host := by unfold scannerAdvance; split <;> rfl
@[simp] theorem scannerAdvance_rdata (s : State) : (scannerAdvance s).rdata = s.rdata := by unfold scannerAdvance; split <;> rfl

/-! ### `initWork` -/

@[simp] theorem initWork_params (s : State) : (initWork s).params = s.params := by unfold initWork; split <;> rfl
@[simp] theorem initWork_pal (s : State) : (initWork s).pal = s.pal := by unfold initWork; split <;> rfl
@[simp] theorem initWork_map (s : State) : (initWork s).map = s.map := by unfold initWork; split <;> rfl
@[simp] theorem initWork_pos (s : State) : (initWork s).pos = s.pos := by unfold initWork; split <;> rfl
@[simp] theorem initWork_window (s : State) : (initWork s).window = s.window := by unfold initWork; split <;> rfl
@[simp] theorem initWork_sx (s : State) : (initWork s).sx = s.sx := by unfold initWork; split <;> rfl
@[simp] theorem initWork_sy (s : State) : (initWork s).sy = s.sy := by unfold initWork; split <;> rfl
@[simp] theorem initWork_latched (s : State) : (initWork s).latched = s.latched := by unfold initWork; split <;> rfl
@[simp] theorem initWork_qt (s : State) : (initWork s).qt = s.qt := by unfold initWork; split <;> rfl
@[simp] theorem initWork_scr (s : State) : (initWork s).scr = s.scr := by unfold initWork; split <;> rfl
@[simp] theorem initWork_pub (s : State) : (initWork s).pub = s.pub := by unfold initWork; split <;> rfl
@[simp] theorem initWork_phase (s : State) : (initWork s).phase = s.phase := by unfold initWork; split <;> rfl
@[simp] theorem initWork_errCode (s : State) : (initWork s).errCode = s.errCode := by unfold initWork; split <;> rfl
@[simp] theorem initWork_endReason (s : State) : (initWork s).endReason = s.endReason := by unfold initWork; split <;> rfl
@[simp] theorem initWork_errWord (s : State) : (initWork s).errWord = s.errWord := by unfold initWork; split <;> rfl
@[simp] theorem initWork_errBit (s : State) : (initWork s).errBit = s.errBit := by unfold initWork; split <;> rfl
@[simp] theorem initWork_errMb (s : State) : (initWork s).errMb = s.errMb := by unfold initWork; split <;> rfl
@[simp] theorem initWork_desc (s : State) : (initWork s).desc = s.desc := by unfold initWork; split <;> rfl
@[simp] theorem initWork_payload (s : State) : (initWork s).payload = s.payload := by unfold initWork; split <;> rfl
@[simp] theorem initWork_host (s : State) : (initWork s).host = s.host := by unfold initWork; split <;> rfl
@[simp] theorem initWork_rdata (s : State) : (initWork s).rdata = s.rdata := by unfold initWork; split <;> rfl

theorem scannerAdvance_sx (s : State) : (scannerAdvance s).sx = if s.sx + 1 = s.latched.bpr then 0 else s.sx + 1 := by
  unfold scannerAdvance; split <;> rfl

theorem scannerAdvance_sy (s : State) :
    (scannerAdvance s).sy =
      if s.sx + 1 = s.latched.bpr then (if s.sy + 1 = s.latched.bpc then 0 else s.sy + 1) else s.sy := by
  unfold scannerAdvance; split <;> rfl

theorem initWork_work (s : State) :
    (initWork s).work = some ((matchingPub s).getD { draw := s.draws, cells := [] }) := by
  unfold initWork; split <;> simp_all

theorem initWork_draws (s : State) :
    (initWork s).draws = if (matchingPub s).isSome then s.draws else s.draws + 1 := by
  unfold initWork; split <;> simp_all

end Sys2Proof.Machine
end

