-- ==== Sys2Proof/Laws/Cursor.lean ====
section
/-!
SUPPORT. The bit cursor: what one field read can do, in one lemma, and that the bitstream is the same after every update
that leaves the payload, its length and the lane order alone.
-/

namespace Sys2Proof.Machine

/-! ### The bitstream depends on the parameters, `N` and the payload alone -/

theorem payloadWord_congr {s t : State} (hp : t.params = s.params) (hm : t.payload = s.payload) (i : Nat) :
    payloadWord t i = payloadWord s i := by
  simp only [payloadWord, payloadByte, hp, hm]

theorem wordOrZero_congr {s t : State} (hp : t.params = s.params) (hn : t.latched.n = s.latched.n)
    (hm : t.payload = s.payload) (i : Nat) : wordOrZero t i = wordOrZero s i := by
  simp only [wordOrZero, payloadWord_congr hp hm, hn]

theorem streamBit_congr {s t : State} (hp : t.params = s.params) (hn : t.latched.n = s.latched.n)
    (hm : t.payload = s.payload) (j : Nat) : streamBit t j = streamBit s j := by
  simp only [streamBit, wordOrZero_congr hp hn hm]

theorem streamField_congr {s t : State} (hp : t.params = s.params) (hn : t.latched.n = s.latched.n)
    (hm : t.payload = s.payload) (p n : Nat) : streamField t p n = streamField s p n := by
  simp only [streamField, streamBit_congr hp hn hm]

@[simp] theorem streamBit_advanceCursor (s : State) (n j : Nat) : streamBit (advanceCursor n s) j = streamBit s j := rfl

@[simp] theorem streamField_advanceCursor (s : State) (m p n : Nat) :
    streamField (advanceCursor m s) p n = streamField s p n := rfl

/-- Bit `k` of a stream field is stream bit `p + k`. -/
theorem getMsbD_streamField (s : State) (p n k : Nat) (h : k < n) :
    (streamField s p n).getMsbD k = streamBit s (p + k) := by
  rw [streamField, getMsbD_ofNat_natOfBits _ (by simp) k (by simpa using h)]
  simp

/-- Beyond the payload the stream is zero (R106, R108). -/
theorem streamBit_beyond (s : State) (j : Nat) (h : s.latched.bitEnd ≤ j) : streamBit s j = false := by
  have hj : ¬ j / 32 < s.latched.n := by unfold Latched.bitEnd at h; omega
  simp [streamBit, wordOrZero, hj]

/-! ### Reads -/

theorem peek_ok {n : Nat} {s : State} (h : s.pos + n ≤ s.latched.bitEnd) : peek n s = .ok (streamField s s.pos n) := by
  rw [peek, if_neg (by omega)]

theorem peek_cut {n : Nat} {s : State} (h : s.latched.bitEnd < s.pos + n) : peek n s = .error .truncatedInput := by
  rw [peek, if_pos h]

theorem read_ok {n : Nat} {s : State} (h : s.pos + n ≤ s.latched.bitEnd) :
    read n s = .ok (streamField s s.pos n, advanceCursor n s) := by
  rw [read, peek_ok h]

theorem read_cut {n : Nat} {s : State} (h : s.latched.bitEnd < s.pos + n) : read n s = .error .truncatedInput := by
  rw [read, peek_cut h]

theorem readField_ok {n : Nat} {s : State} (h : s.pos + n ≤ s.latched.bitEnd) :
    readField n s = .go (advanceCursor n s) := by
  rw [readField, read_ok h]

theorem readField_cut {n : Nat} {s : State} (h : s.latched.bitEnd < s.pos + n) :
    readField n s = .ended (takeFault .truncatedInput s.pos s) := by
  rw [readField, read_cut h]

/-- All that a field read can do (R103): the cursor past the field, or `TruncatedInput` at its first bit. -/
theorem readField_cases (n : Nat) (s : State) :
    (s.pos + n ≤ s.latched.bitEnd ∧ readField n s = .go (advanceCursor n s)) ∨
    (s.latched.bitEnd < s.pos + n ∧ readField n s = .ended (takeFault .truncatedInput s.pos s)) := by
  rcases Nat.lt_or_ge s.latched.bitEnd (s.pos + n) with h | h
  · exact .inr ⟨h, readField_cut h⟩
  · exact .inl ⟨h, readField_ok h⟩

/-! ### Sequencing -/

@[simp] theorem Micro.bind_go (s : State) (f : State → Micro) : (Micro.go s).bind f = f s := rfl
@[simp] theorem Micro.bind_ended (s : State) (f : State → Micro) : (Micro.ended s).bind f = .ended s := rfl
@[simp] theorem Micro.state_go (s : State) : (Micro.go s).state = s := rfl
@[simp] theorem Micro.state_ended (s : State) : (Micro.ended s).state = s := rfl
theorem Micro.outcome_eq (m : Micro) : m.outcome = .next m.state := rfl

theorem Micro.bind_assoc (m : Micro) (f g : State → Micro) : (m.bind f).bind g = m.bind fun s => (f s).bind g := by
  cases m <;> rfl

/-- Every block ends in a next state. -/
theorem exec_next (i : Instr) (s : State) : ∃ t, exec i s = .next t := by
  cases i <;> exact ⟨_, rfl⟩

end Sys2Proof.Machine
end

