-- ==== Sys2Proof/Laws/Blocks.lean ====
section
/-!
SUPPORT. What the parts of a block can do: a property that the cursor, the palette group and the tile fill keep holds
where a block goes on, and where it ends in `TruncatedInput`; and each part's exact next state when its fields fit.
-/

namespace Sys2Proof.Machine

/-- `P` holds of the state a block goes on from, `Q` of the state it has ended in. -/
def Micro.All (P Q : State → Prop) (m : Micro) : Prop :=
  match m with
  | .go s => P s
  | .ended s => Q s

@[simp] theorem Micro.all_go (P Q : State → Prop) (s : State) : (Micro.go s).All P Q ↔ P s := Iff.rfl
@[simp] theorem Micro.all_ended (P Q : State → Prop) (s : State) : (Micro.ended s).All P Q ↔ Q s := Iff.rfl

theorem Micro.All.bind {P P' Q : State → Prop} {m : Micro} {f : State → Micro} (h : m.All P Q)
    (hf : ∀ s, P s → (f s).All P' Q) : (m.bind f).All P' Q := by
  cases m with
  | go s => exact hf s h
  | ended s => exact h

theorem Micro.All.mono {P P' Q Q' : State → Prop} {m : Micro} (h : m.All P Q) (hp : ∀ s, P s → P' s)
    (hq : ∀ s, Q s → Q' s) : m.All P' Q' := by
  cases m with
  | go s => exact hp s h
  | ended s => exact hq s h

/-- What holds of the state a block leaves, if it holds of both ways to leave it. -/
theorem Micro.All.state {P : State → Prop} {m : Micro} (h : m.All P P) : P m.state := by
  cases m <;> exact h

/-- `P` is kept by every write a VQ block makes before its conversion: a field read within the payload, a mapping, a
palette update and a tile position put. -/
structure KeptByFields (P : State → Prop) : Prop where
  cursor  : ∀ n s, n ≤ 32 → s.pos + n ≤ s.latched.bitEnd → P s → P (advanceCursor n s)
  mapping : ∀ j idx s, P s → P (State.setMap s j idx)
  palette : ∀ i c s, P s → P (State.setPal s i c)
  scratch : ∀ p c s, P s → P { s with scr := putTile p c s.scr }

/-- `TruncatedInput` at the cursor leads from `P` to `Q`. -/
def CutGives (P Q : State → Prop) : Prop := ∀ s, P s → Q (takeFault .truncatedInput s.pos s)

variable {P Q : State → Prop}

theorem readField_all (k : KeptByFields P) (c : CutGives P Q) {n : Nat} (hn : n ≤ 32) {s : State} (h : P s) :
    (readField n s).All P Q := by
  rcases readField_cases n s with ⟨hb, e⟩ | ⟨hb, e⟩ <;> rw [e]
  · exact k.cursor n s hn hb h
  · exact c s h

theorem readCoords_all (k : KeptByFields P) (c : CutGives P Q) (at? : Option Coord) {s : State} (h : P s) :
    (readCoords at? s).All P Q := by
  cases at? with
  | none => exact h
  | some x => exact readField_all k c (by unfold coordWidth; split <;> omega) h

theorem readSlotHead_all (k : KeptByFields P) (c : CutGives P Q) {s : State} (h : P s) :
    (readSlotHead s).All P Q := by
  unfold readSlotHead
  cases s.params.slotOrder
  · exact (readField_all k c (by omega) h).bind fun t ht => readField_all k c (by omega) ht
  · exact (readField_all k c (by omega) h).bind fun t ht => readField_all k c (by omega) ht

theorem readSlot_all (k : KeptByFields P) (c : CutGives P Q) (j : BitVec 2) (sl : Slot) {s : State} (h : P s) :
    (readSlot j sl s).All P Q := by
  unfold readSlot
  refine (readSlotHead_all k c h).bind fun t ht => ?_
  have hm := k.mapping j sl.idx t ht
  cases hc : sl.color with
  | none => simpa [hc] using hm
  | some col =>
    simp only
    exact (readField_all k c (by omega) hm).bind fun u hu => k.palette sl.idx col u hu

theorem readGroup_all (k : KeptByFields P) (c : CutGives P Q) (slots : List Slot) (j : BitVec 2) {s : State} (h : P s) :
    (readGroup j slots s).All P Q := by
  induction slots generalizing j s with
  | nil => exact h
  | cons sl rest ih => exact (readSlot_all k c j sl h).bind fun t ht => ih (j + 1) ht

/-- Tile positions put one after the other keep what each of them keeps. -/
theorem KeptByFields.puts (k : KeptByFields P) (f : Nat → Color) (ps : List Nat) {s : State} (h : P s) :
    P { s with scr := ps.foldl (fun scr p => putTile p (f p) scr) s.scr } := by
  induction ps generalizing s with
  | nil => exact h
  | cons p rest ih => exact ih (k.scratch p (f p) s h)

theorem fillSolid_all (k : KeptByFields P) {s : State} (h : P s) : (fillSolid s).All P Q :=
  k.puts (fun _ => s.palAt (s.mapAt 0)) (List.range 64) h

theorem fillBitmapFrom_all (k : KeptByFields P) (c : CutGives P Q) {bits : Nat} (hb : bits ≤ 32)
    (fields : List (BitVec 2)) (p : Nat) {s : State} (h : P s) : (fillBitmapFrom bits p fields s).All P Q := by
  induction fields generalizing p s with
  | nil => exact h
  | cons v rest ih =>
    exact (readField_all k c hb h).bind fun t ht => ih (p + 1) (k.scratch p _ t ht)

theorem fillBitmap_all (k : KeptByFields P) (c : CutGives P Q) {bits : Nat} (hb : bits ≤ 32)
    (fields : List (BitVec 2)) {s : State} (h : P s) : (fillBitmap bits fields s).All P Q :=
  fillBitmapFrom_all k c hb fields 0 h

/-- A tag that is an error: cut, or the error at its first bit. -/
theorem faultingTag_cases (code : ErrCode) (s : State) :
    (s.pos + 4 ≤ s.latched.bitEnd ∧ faultingTag code s = .ended (takeFault code s.pos (advanceCursor 4 s))) ∨
    (s.latched.bitEnd < s.pos + 4 ∧ faultingTag code s = .ended (takeFault .truncatedInput s.pos s)) := by
  unfold faultingTag readTag
  rcases readField_cases 4 s with ⟨hb, e⟩ | ⟨hb, e⟩ <;> rw [e]
  · exact .inl ⟨hb, rfl⟩
  · exact .inr ⟨hb, rfl⟩

/-- The end tag: cut, or the successful end. -/
theorem endingTag_cases (s : State) :
    (s.pos + 4 ≤ s.latched.bitEnd ∧ endingTag s = .ended (endSuccess .endTag (advanceCursor 4 s))) ∨
    (s.latched.bitEnd < s.pos + 4 ∧ endingTag s = .ended (takeFault .truncatedInput s.pos s)) := by
  unfold endingTag readTag
  rcases readField_cases 4 s with ⟨hb, e⟩ | ⟨hb, e⟩ <;> rw [e]
  · exact .inl ⟨hb, rfl⟩
  · exact .inr ⟨hb, rfl⟩

/-- All that a VQ block can do to a property its fields keep from after the tag on: it is there at the conversion, or the
block ended in a cut field, the tag among them, or it ended at the 4:2:0 check right after its tag. -/
theorem vqBlock_all (k : KeptByFields P) (c : CutGives P Q) (at? : Option Coord) (slots : List Slot)
    {fill : State → Micro} (hf : ∀ s, P s → (fill s).All P Q) {s : State}
    (h : s.pos + 4 ≤ s.latched.bitEnd → P (advanceCursor 4 s))
    (hcut : s.latched.bitEnd < s.pos + 4 → Q (takeFault .truncatedInput s.pos s))
    (h420 : s.pos + 4 ≤ s.latched.bitEnd → Q (takeFault .unsupportedBlockKind s.pos (advanceCursor 4 s))) :
    (vqBlock at? slots fill s).All
      (fun t => ∃ u, P u ∧ t = scannerAdvance (convert444 (blockAt at? u).1 (blockAt at? u).2 u)) Q := by
  unfold vqBlock readTag
  rcases readField_cases 4 s with ⟨hb, e⟩ | ⟨hb, e⟩ <;> rw [e]
  · rw [Micro.bind_go]
    by_cases hm : (advanceCursor 4 s).latched.m420 = true
    · rw [if_pos hm]; exact h420 hb
    · rw [if_neg hm]
      refine ((readCoords_all k c at? (h hb)).bind fun t ht => readGroup_all k c slots 0 ht).bind fun t ht => ?_
      exact (hf t ht).bind fun u hu => ⟨u, hu, rfl⟩
  · exact hcut hb

/-- All that a block can do, whichever it is: it ends with its tag cut, with an error at its tag, or successfully at its
tag; or its fields keep `P` from after the tag on, up to a cut field or to the conversion and the scanner's advance. -/
theorem exec_all (k : KeptByFields P) (c : CutGives P Q) (i : Instr) {s : State}
    (h : s.pos + 4 ≤ s.latched.bitEnd → P (advanceCursor 4 s))
    (hcut : s.latched.bitEnd < s.pos + 4 → Q (takeFault .truncatedInput s.pos s))
    (herr : ∀ code, code = .unknownBlockTag ∨ code = .unsupportedBlockKind → s.pos + 4 ≤ s.latched.bitEnd →
      Q (takeFault code s.pos (advanceCursor 4 s)))
    (hend : s.pos + 4 ≤ s.latched.bitEnd → Q (endSuccess .endTag (advanceCursor 4 s)))
    (htile : ∀ u x y, P u → Q (scannerAdvance (convert444 x y u))) : ∃ t, exec i s = .next t ∧ Q t := by
  have hf : ∀ code, code = .unknownBlockTag ∨ code = .unsupportedBlockKind → Q (faultingTag code s).state := by
    intro code hc
    rcases faultingTag_cases code s with ⟨hb, e⟩ | ⟨hb, e⟩ <;> rw [e]
    · exact herr code hc hb
    · exact hcut hb
  have he : Q (endingTag s).state := by
    rcases endingTag_cases s with ⟨hb, e⟩ | ⟨hb, e⟩ <;> rw [e]
    · exact hend hb
    · exact hcut hb
  have hv : ∀ at? slots fill, (∀ s, P s → (fill s).All P Q) → Q (vqBlock at? slots fill s).state := by
    intro at? slots fill hfill
    exact ((vqBlock_all k c at? slots hfill h hcut (herr _ (.inr rfl))).mono (P' := Q)
      (by rintro _ ⟨u, hu, rfl⟩; exact htile _ _ _ hu) fun _ hq => hq).state
  have b0 : ∀ s, P s → (fillSolid s).All P Q := fun s hs => fillSolid_all k hs
  have b1 : ∀ fields s, P s → (fillBitmap 1 fields s).All P Q := fun fields s hs => fillBitmap_all k c (by omega) fields hs
  have b2 : ∀ fields s, P s → (fillBitmap 2 fields s).All P Q := fun fields s hs => fillBitmap_all k c (by omega) fields hs
  cases i with
  | vq1 | vq1S => exact ⟨_, rfl, hv _ _ _ b0⟩
  | vq2 | vq2S => exact ⟨_, rfl, hv _ _ _ (b1 _)⟩
  | vq4 | vq4S => exact ⟨_, rfl, hv _ _ _ (b2 _)⟩
  | endTag | endTagS => exact ⟨_, rfl, he⟩
  | unk | unkS => exact ⟨_, rfl, hf _ (.inl rfl)⟩
  | tc1 | tc2 | tc1h | tc1S | tc2S | tc1hS => exact ⟨_, rfl, hf _ (.inr rfl)⟩

/-! ### The exact next state of each part when its fields fit -/

theorem readCoords_ok (at? : Option Coord) {s : State}
    (h : s.pos + (if at?.isSome then coordWidth s.params else 0) ≤ s.latched.bitEnd) :
    ∃ w, readCoords at? s =
      .go { s with pos := s.pos + (if at?.isSome then coordWidth s.params else 0), window := w } := by
  cases at? with
  | none => exact ⟨s.window, rfl⟩
  | some x => exact ⟨_, readField_ok h⟩

theorem readSlotHead_ok {s : State} (h : s.pos + 3 ≤ s.latched.bitEnd) :
    ∃ w, readSlotHead s = .go { s with pos := s.pos + 3, window := w } := by
  unfold readSlotHead
  cases s.params.slotOrder
  · simp only
    rw [readField_ok (n := 2) (s := s) (by omega), Micro.bind_go,
      readField_ok (n := 1) (s := advanceCursor 2 s) (by show s.pos + 2 + 1 ≤ s.latched.bitEnd; omega)]
    exact ⟨_, rfl⟩
  · simp only
    rw [readField_ok (n := 1) (s := s) (by omega), Micro.bind_go,
      readField_ok (n := 2) (s := advanceCursor 1 s) (by show s.pos + 1 + 2 ≤ s.latched.bitEnd; omega)]
    exact ⟨_, rfl⟩

/-- One slot that fits (R142, R144): its mapping, and its update if it has one. -/
theorem readSlot_ok (j : BitVec 2) (sl : Slot) {s : State}
    (h : s.pos + (if sl.color.isSome then 27 else 3) ≤ s.latched.bitEnd) :
    ∃ w, readSlot j sl s = .go
      { s with
        pos := s.pos + (if sl.color.isSome then 27 else 3)
        window := w
        map := s.map.set j.toNat sl.idx j.isLt
        pal := match sl.color with
          | some c => s.pal.set sl.idx.toNat c sl.idx.isLt
          | none => s.pal } := by
  obtain ⟨idx, color⟩ := sl
  unfold readSlot
  cases color with
  | none =>
    obtain ⟨w, e⟩ := readSlotHead_ok (s := s) (by simpa using h)
    exact ⟨w, by rw [e]; rfl⟩
  | some c =>
    simp only [Option.isSome_some, if_true] at h
    obtain ⟨w, e⟩ := readSlotHead_ok (s := s) (by omega)
    rw [e]
    simp only [Micro.bind_go]
    rw [readField_ok (n := 24) (by show s.pos + 3 + 24 ≤ s.latched.bitEnd; omega)]
    exact ⟨_, rfl⟩

/-- A bitmap that fits, from position `p` on (R147): the cursor past its fields, and each field's position put. -/
theorem fillBitmapFrom_ok (bits : Nat) (fields : List (BitVec 2)) (p : Nat) {s : State}
    (h : s.pos + bits * fields.length ≤ s.latched.bitEnd) :
    ∃ w, fillBitmapFrom bits p fields s = .go
      { s with
        pos := s.pos + bits * fields.length
        window := w
        scr := (fields.foldl (fun (a : Vector Byte 768 × Nat) v => (putTile a.2 (s.palAt (s.mapAt v)) a.1, a.2 + 1))
          (s.scr, p)).1 } := by
  induction fields generalizing p s with
  | nil => exact ⟨s.window, rfl⟩
  | cons v rest ih =>
    simp only [List.length_cons, Nat.mul_add, Nat.mul_one] at h ⊢
    unfold fillBitmapFrom
    rw [readField_ok (by omega), Micro.bind_go]
    obtain ⟨w, e⟩ := ih (p + 1)
      (s := { advanceCursor bits s with scr := putTile p ((advanceCursor bits s).palAt ((advanceCursor bits s).mapAt v)) s.scr })
      (by show s.pos + bits + bits * rest.length ≤ s.latched.bitEnd; omega)
    refine ⟨w, e.trans ?_⟩
    congr 1
    simp only [List.foldl_cons, State.palAt, State.mapAt, advanceCursor]
    rw [State.mk.injEq]
    simp only [and_true, true_and]
    omega

/-! ### The tile fill -/

theorem scrAt_set (scr : Vector Byte 768) (i : Nat) (hi : i < 768) (v : Byte) (q : Nat) :
    scrAt (scr.set i v hi) q = if q = i then v else scrAt scr q := by
  unfold scrAt
  by_cases hq : q < 768
  · simp only [hq, dite_true, Vector.getElem_set]
    by_cases e : i = q
    · simp [e]
    · have : ¬ q = i := fun h => e h.symm
      simp [e, this]
  · have : ¬ q = i := by omega
    simp [hq, this]

/-- What a put tile position changes (R148): its three samples and nothing else. -/
theorem scrAt_putTile (p : Nat) (hp : p < 64) (c : Color) (scr : Vector Byte 768) (q : Nat) :
    scrAt (putTile p c scr) q =
      if q = p then c.extractLsb' 16 8
      else if q = 64 + p then c.extractLsb' 8 8
      else if q = 128 + p then c.extractLsb' 0 8
      else scrAt scr q := by
  unfold putTile
  rw [dif_pos hp, scrAt_set, scrAt_set, scrAt_set]
  by_cases h1 : q = p
  · subst h1; simp
  · by_cases h2 : q = 64 + p
    · subst h2; simp
    · by_cases h3 : q = 128 + p <;> simp [h1, h2, h3]

end Sys2Proof.Machine
end

