-- ==== Sys2Proof/Laws/Fields.lean ====
section
/-!
SUPPORT. The decoder's parts on sequences that are long enough: each one answers, and the bits it consumed are the
encoding of what it answered; so the decoder answers on every full fetch.
-/

namespace Sys2Proof

theorem bitsOf_append {m n : Nat} (a : BitVec m) (b : BitVec n) : bitsOf (a ++ b) = bitsOf a ++ bitsOf b := by
  apply List.ext_getElem (by simp)
  intro k h1 h2
  rw [getElem_bitsOf, BitVec.getMsbD_append, List.getElem_append]
  by_cases hk : k < m
  · rw [if_neg (by omega), dif_pos (by simpa using hk), getElem_bitsOf]
  · rw [if_pos (by omega), dif_neg (by simpa using hk), getElem_bitsOf, length_bitsOf]

/-- A field that is there: its value, and the bits it and the rest are. -/
theorem takeField_total {n : Nat} {e : DecodeError} {bs : List Bool} (h : n ≤ bs.length) :
    ∃ (v : BitVec n) (rest : List Bool), takeField n e bs = .ok (v, rest) ∧ bs = bitsOf v ++ rest ∧
      bs.length = n + rest.length := by
  obtain ⟨v, hv⟩ := takeField_ok_of_le (n := n) e bs h
  have := takeField_eq_ok.mp hv
  exact ⟨v, _, hv, this, by rw [List.length_drop]; omega⟩

/-- A slot decodes from any 27 bits (R84), and is encoded by the bits consumed. -/
theorem decodeSlot_total (p : Params) (bs : List Bool) (h : 27 ≤ bs.length) :
    ∃ sl rest, decodeSlot p bs = .ok (sl, rest) ∧ bs = encodeSlot p sl ++ rest ∧ bs.length ≤ 27 + rest.length := by
  cases ho : p.slotOrder
  · obtain ⟨idx, r1, e1, b1, l1⟩ := takeField_total (n := 2) (e := .cutSlot) (bs := bs) (by omega)
    obtain ⟨u, r2, e2, b2, l2⟩ := takeField_total (n := 1) (e := .cutSlot) (bs := r1) (by omega)
    by_cases hu : u = 1#1
    · obtain ⟨c, r3, e3, b3, l3⟩ := takeField_total (n := 24) (e := .cutSlot) (bs := r2) (by omega)
      refine ⟨⟨idx, some c⟩, r3, ?_, ?_, by omega⟩
      · simp [decodeSlot, decodeSlotHead, ho, e1, e2, e3, hu, bind, Except.bind, pure, Except.pure]
      · rw [b1, b2, b3, hu]; simp [encodeSlot, ho, slotFlag]
    · have hu0 : u = 0#1 := by clear e2 b2; revert u; decide
      refine ⟨⟨idx, none⟩, r2, ?_, ?_, by omega⟩
      · simp [decodeSlot, decodeSlotHead, ho, e1, e2, hu, bind, Except.bind, pure, Except.pure]
      · rw [b1, b2, hu0]; simp [encodeSlot, ho, slotFlag]
  · obtain ⟨u, r2, e2, b2, l2⟩ := takeField_total (n := 1) (e := .cutSlot) (bs := bs) (by omega)
    obtain ⟨idx, r1, e1, b1, l1⟩ := takeField_total (n := 2) (e := .cutSlot) (bs := r2) (by omega)
    by_cases hu : u = 1#1
    · obtain ⟨c, r3, e3, b3, l3⟩ := takeField_total (n := 24) (e := .cutSlot) (bs := r1) (by omega)
      refine ⟨⟨idx, some c⟩, r3, ?_, ?_, by omega⟩
      · simp [decodeSlot, decodeSlotHead, ho, e1, e2, e3, hu, bind, Except.bind, pure, Except.pure]
      · rw [b2, b1, b3, hu]; simp [encodeSlot, ho, slotFlag]
    · have hu0 : u = 0#1 := by clear e2 b2; revert u; decide
      refine ⟨⟨idx, none⟩, r1, ?_, ?_, by omega⟩
      · simp [decodeSlot, decodeSlotHead, ho, e1, e2, hu, bind, Except.bind, pure, Except.pure]
      · rw [b2, b1, hu0]; simp [encodeSlot, ho, slotFlag]

/-- A coordinate field decodes from any 24 bits (R83), to a well-formed one, and is encoded by the bits consumed. -/
theorem decodeCoord_total (p : Params) (bs : List Bool) (h : 24 ≤ bs.length) :
    ∃ c rest, decodeCoord p bs = .ok (c, rest) ∧ c.wf p = true ∧ bs = encodeCoord p c ++ rest ∧
      bs.length ≤ 24 + rest.length := by
  obtain ⟨x, r1, e1, b1, l1⟩ := takeField_total (n := 8) (e := .cutCoordinates) (bs := bs) (by omega)
  obtain ⟨y, r2, e2, b2, l2⟩ := takeField_total (n := 8) (e := .cutCoordinates) (bs := r1) (by omega)
  cases ho : p.coordBits
  · obtain ⟨g, r3, e3, b3, l3⟩ := takeField_total (n := 8) (e := .cutCoordinates) (bs := r2) (by omega)
    refine ⟨⟨x, y, g⟩, r3, ?_, by simp [Coord.wf, ho], ?_, by omega⟩
    · simp [decodeCoord, ho, e1, e2, e3, bind, Except.bind, pure, Except.pure]
    · rw [b1, b2, b3]; simp [encodeCoord, ho]
  · refine ⟨⟨x, y, 0⟩, r2, ?_, by simp [Coord.wf, ho], ?_, by omega⟩
    · simp [decodeCoord, ho, e1, e2, bind, Except.bind, pure, Except.pure]
    · rw [b1, b2]; simp [encodeCoord, ho]

theorem decodeVq2_total (p : Params) (bs : List Bool) (h : 118 ≤ bs.length) :
    ∃ a b m rest, decodeVq2 p bs = .ok ((a, b, m), rest) ∧
      bs = encodeSlot p a ++ encodeSlot p b ++ bitsOf m ++ rest := by
  obtain ⟨a, r1, e1, b1, l1⟩ := decodeSlot_total p bs (by omega)
  obtain ⟨b, r2, e2, b2, l2⟩ := decodeSlot_total p r1 (by omega)
  obtain ⟨m, r3, e3, b3, l3⟩ := takeField_total (n := 64) (e := .cutBitmap) (bs := r2) (by omega)
  exact ⟨a, b, m, r3, by simp [decodeVq2, e1, e2, e3, bind, Except.bind, pure, Except.pure],
    by rw [b1, b2, b3]; simp⟩

theorem decodeVq4_total (p : Params) (bs : List Bool) (h : 236 ≤ bs.length) :
    ∃ a b c d m rest, decodeVq4 p bs = .ok ((a, b, c, d, m), rest) ∧
      bs = encodeSlot p a ++ encodeSlot p b ++ encodeSlot p c ++ encodeSlot p d ++ bitsOf m ++ rest := by
  obtain ⟨a, r1, e1, b1, l1⟩ := decodeSlot_total p bs (by omega)
  obtain ⟨b, r2, e2, b2, l2⟩ := decodeSlot_total p r1 (by omega)
  obtain ⟨c, r3, e3, b3, l3⟩ := decodeSlot_total p r2 (by omega)
  obtain ⟨d, r4, e4, b4, l4⟩ := decodeSlot_total p r3 (by omega)
  obtain ⟨m, r5, e5, b5, l5⟩ := takeField_total (n := 128) (e := .cutBitmap) (bs := r4) (by omega)
  exact ⟨a, b, c, d, m, r5, by simp [decodeVq4, e1, e2, e3, e4, e5, bind, Except.bind, pure, Except.pure],
    by rw [b1, b2, b3, b4, b5]; simp⟩

/-- Decoding answers on a sequence long enough for the longest block (R87, R91). -/
theorem decode_total (p : Params) (bs : List Bool) (h : maxBlockBits ≤ bs.length) :
    ∃ i rest, decode p bs = .ok (i, rest) := by
  unfold maxBlockBits at h
  obtain ⟨tag, r, e, -, l⟩ := takeField_total (n := 4) (e := .cutTag) (bs := bs) (by omega)
  obtain ⟨a, r1, e1, -, -⟩ := decodeSlot_total p r (by omega)
  obtain ⟨b, c, m, r2, e2, -⟩ := decodeVq2_total p r (by omega)
  obtain ⟨f, g, j, k, m', r3, e3, -⟩ := decodeVq4_total p r (by omega)
  obtain ⟨x, r0, e0, -, -, l0⟩ := decodeCoord_total p r (by omega)
  obtain ⟨a', r1', e1', -, -⟩ := decodeSlot_total p r0 (by omega)
  obtain ⟨b', c', n, r2', e2', -⟩ := decodeVq2_total p r0 (by omega)
  obtain ⟨f', g', j', k', n', r3', e3', -⟩ := decodeVq4_total p r0 (by omega)
  unfold decode
  simp only [e, e0, e1, e2, e3, e1', e2', e3', decodeVq1, bind, Except.bind, pure, Except.pure]
  split <;> exact ⟨_, _, rfl⟩

end Sys2Proof
end

