-- ==== Sys2Proof/Laws/Memory.lean ====
section
/-!
SUPPORT. The laws of the sparse memory: what a read after a write gives, and that every memory operation keeps the
canonical form and the bound on addresses.
-/

namespace Sys2Proof.Machine

@[simp] theorem Memory.read_nil (a : Nat) : Memory.read [] a = none := rfl

/-- A read at the written address gives the byte written. -/
@[simp] theorem Memory.read_store_same (m : Memory) (a : Nat) (b : Byte) : Memory.read (Memory.store m a b) a = some b := by
  induction m with
  | nil => simp [Memory.store, Memory.read]
  | cons e m ih =>
    obtain ⟨k, v⟩ := e
    by_cases h1 : a < k
    · simp [Memory.store, Memory.read, h1]
    · by_cases h2 : a = k
      · simp [Memory.store, Memory.read, h2]
      · have h3 : ¬ k = a := fun h => h2 h.symm
        simp [Memory.store, Memory.read, h1, h2, h3, ih]

/-- A read elsewhere gives what it gave before. -/
theorem Memory.read_store_other (m : Memory) {a c : Nat} (b : Byte) (h : c ≠ a) :
    Memory.read (Memory.store m a b) c = Memory.read m c := by
  have ha : ¬ a = c := fun e => h e.symm
  induction m with
  | nil => simp [Memory.store, Memory.read, ha, Memory.unlisted]
  | cons e m ih =>
    obtain ⟨k, v⟩ := e
    by_cases h1 : a < k
    · simp [Memory.store, Memory.read, h1, ha]
    · by_cases h2 : a = k
      · subst h2; simp [Memory.store, Memory.read, ha]
      · rw [Memory.store, if_neg h1, if_neg h2, Memory.read, Memory.read, ih]

theorem Memory.above_store {k a : Nat} (m : Memory) (b : Byte) (h : Memory.above k m = true) (ha : k < a) :
    Memory.above k (Memory.store m a b) = true := by
  induction m with
  | nil => simp [Memory.store, Memory.above, ha]
  | cons e m ih =>
    obtain ⟨j, v⟩ := e
    simp only [Memory.above, Bool.and_eq_true, decide_eq_true_eq] at h
    by_cases h1 : a < j
    · simp [Memory.store, Memory.above, h1, ha, h.1, h.2]
    · by_cases h2 : a = j <;> simp [Memory.store, Memory.above, h1, h2, h.1, h.2, ih h.2]

theorem Memory.above_weaken {j k : Nat} (m : Memory) (h : Memory.above k m = true) (hj : j ≤ k) :
    Memory.above j m = true := by
  induction m with
  | nil => rfl
  | cons e m ih =>
    obtain ⟨i, v⟩ := e
    simp only [Memory.above, Bool.and_eq_true, decide_eq_true_eq] at h ⊢
    exact ⟨by omega, ih h.2⟩

/-- A write keeps the canonical form. -/
theorem Memory.store_keeps_wf (m : Memory) (a : Nat) (b : Byte) (h : Memory.wf m = true) :
    Memory.wf (Memory.store m a b) = true := by
  induction m with
  | nil => rfl
  | cons e m ih =>
    obtain ⟨k, v⟩ := e
    simp only [Memory.wf, Bool.and_eq_true] at h
    by_cases h1 : a < k
    · simp [Memory.store, Memory.wf, Memory.above, h1, h.1, h.2, Memory.above_weaken m h.1 h1.le]
    · by_cases h2 : a = k
      · subst h2; simp [Memory.store, Memory.wf, h.1, h.2]
      · have h3 : k < a := by omega
        simp [Memory.store, Memory.wf, h1, h2, ih h.2, Memory.above_store m b h.1 h3]

/-- A write below a bound keeps every address below it. -/
theorem Memory.store_keeps_below {n : Nat} (m : Memory) (a : Nat) (b : Byte) (h : Memory.below n m = true) (ha : a < n) :
    Memory.below n (Memory.store m a b) = true := by
  induction m with
  | nil => simp [Memory.store, Memory.below, ha]
  | cons e m ih =>
    obtain ⟨k, v⟩ := e
    simp only [Memory.below, Bool.and_eq_true, decide_eq_true_eq] at h
    by_cases h1 : a < k
    · simp [Memory.store, Memory.below, h1, ha, h.1, h.2]
    · by_cases h2 : a = k <;> simp [Memory.store, Memory.below, h1, h2, h.1, h.2, ih h.2]

/-- Bytes written at consecutive addresses, the first at `a`. -/
theorem Memory.read_storeAll (bs : List Byte) (m : Memory) (a c : Nat) :
    Memory.read (Memory.storeAll m a bs) c =
      if h : a ≤ c ∧ c < a + bs.length then some (bs[c - a]'(by omega)) else Memory.read m c := by
  induction bs generalizing m a with
  | nil => simp only [Memory.storeAll, List.length_nil]; rw [dif_neg (by omega)]
  | cons b bs ih =>
    rw [Memory.storeAll, ih]
    by_cases hc : c = a
    · subst hc
      simp
    · by_cases h : a + 1 ≤ c ∧ c < a + 1 + bs.length
      · rw [dif_pos h, dif_pos (by simp only [List.length_cons]; omega)]
        have e : c - a = (c - (a + 1)) + 1 := by omega
        simp only [e, List.getElem_cons_succ]
      · rw [dif_neg h, dif_neg (by simp only [List.length_cons]; omega), Memory.read_store_other m b hc]

theorem Memory.storeAll_keeps_wf (bs : List Byte) (m : Memory) (a : Nat) (h : Memory.wf m = true) :
    Memory.wf (Memory.storeAll m a bs) = true := by
  induction bs generalizing m a with
  | nil => exact h
  | cons b bs ih => exact ih _ _ (Memory.store_keeps_wf m a b h)

theorem Memory.storeAll_keeps_below {n : Nat} (bs : List Byte) (m : Memory) (a : Nat) (h : Memory.below n m = true)
    (ha : a + bs.length ≤ n) : Memory.below n (Memory.storeAll m a bs) = true := by
  induction bs generalizing m a with
  | nil => exact h
  | cons b bs ih =>
    simp only [List.length_cons] at ha
    exact ih _ _ (Memory.store_keeps_below m a b h (by omega)) (by omega)

/-- Nothing is listed after reset, which is canonical. -/
theorem State.reset_payload_wf : Memory.wf State.reset.payload = true := rfl

end Sys2Proof.Machine
end

