-- ==== Sys2Proof/Laws/Pixels.lean ====
section
/-!
SUPPORT. The output pixels: what storing one pixel changes, that it stays within the frame, and what a sequence of
pixels at different places leaves.
-/

namespace Sys2Proof.Machine

/-- Different pixels of the frame have different bytes (R63). -/
theorem pixel_offset_inj {w bpp x y k x' y' k' : Nat} (hx : x < w) (hx' : x' < w) (hk : k < bpp) (hk' : k' < bpp)
    (h : (y * w + x) * bpp + k = (y' * w + x') * bpp + k') : x = x' ∧ y = y' ∧ k = k' := by
  have hb : 0 < bpp := by omega
  have hw : 0 < w := by omega
  have h1 : y * w + x = y' * w + x' := by
    have e1 : ((y * w + x) * bpp + k) / bpp = y * w + x := by
      rw [Nat.mul_comm, Nat.mul_add_div hb, Nat.div_eq_of_lt hk, Nat.add_zero]
    have e2 : ((y' * w + x') * bpp + k') / bpp = y' * w + x' := by
      rw [Nat.mul_comm, Nat.mul_add_div hb, Nat.div_eq_of_lt hk', Nat.add_zero]
    rw [← e1, ← e2, h]
  have h2 : y = y' := by
    have e1 : (y * w + x) / w = y := by rw [Nat.mul_comm, Nat.mul_add_div hw, Nat.div_eq_of_lt hx, Nat.add_zero]
    have e2 : (y' * w + x') / w = y' := by rw [Nat.mul_comm, Nat.mul_add_div hw, Nat.div_eq_of_lt hx', Nat.add_zero]
    rw [← e1, ← e2, h1]
  subst h2
  have h3 : x = x' := by omega
  subst h3
  exact ⟨rfl, rfl, by omega⟩

/-- A pixel of the frame lies within its buffer (R38, R63). -/
theorem pixel_offset_lt {w h bpp x y k : Nat} (hx : x < w) (hy : y < h) (hk : k < bpp) :
    (y * w + x) * bpp + k < w * h * bpp := by
  have h1 : y * w + x + 1 ≤ w * h := by
    calc y * w + x + 1 ≤ y * w + w := by omega
      _ = (y + 1) * w := by ring
      _ ≤ h * w := Nat.mul_le_mul_right w hy
      _ = w * h := Nat.mul_comm h w
  calc (y * w + x) * bpp + k < (y * w + x) * bpp + bpp := by omega
    _ = (y * w + x + 1) * bpp := by ring
    _ ≤ w * h * bpp := Nat.mul_le_mul_right bpp h1

theorem length_pixelBytes {bpp : Nat} (hb : bpp = 3 ∨ bpp = 4) (px : Pixel) : (pixelBytes bpp px).length = bpp := by
  rcases hb with rfl | rfl <;> rfl

/-- Byte `k` of a stored pixel: R, G, B and, for `BPP = 4`, the pad 0x00 (R63). -/
theorem getElem_pixelBytes {bpp : Nat} (px : Pixel) (k : Nat) (hk : k < (pixelBytes bpp px).length) :
    (pixelBytes bpp px)[k] = if k = 0 then px.r else if k = 1 then px.g else if k = 2 then px.b else 0 := by
  unfold pixelBytes at hk ⊢
  split at hk <;> rename_i hb
  · simp only [List.length_cons, List.length_nil] at hk
    simp only [hb, if_true]
    interval_cases k <;> rfl
  · simp only [List.length_cons, List.length_nil] at hk
    simp only [hb, if_false]
    interval_cases k <;> rfl

@[simp] theorem putPixelChecked_draw (l : Latched) (x y : Nat) (px : Pixel) (b : Buffer) :
    (putPixelChecked l x y px b).draw = b.draw := by
  unfold putPixelChecked putPixel
  split <;> rfl

theorem byteAt_putPixel {l : Latched} (hb : l.bpp = 3 ∨ l.bpp = 4) (x y : Nat) (px : Pixel) (b : Buffer) (off : Nat) :
    (putPixel l x y px b).byteAt off =
      if pixelOffset l x y ≤ off ∧ off < pixelOffset l x y + l.bpp then
        (if off - pixelOffset l x y = 0 then px.r else if off - pixelOffset l x y = 1 then px.g
          else if off - pixelOffset l x y = 2 then px.b else 0)
      else b.byteAt off := by
  unfold putPixel Buffer.byteAt
  simp only
  rw [Memory.read_storeAll]
  have hl := length_pixelBytes hb px
  by_cases h : pixelOffset l x y ≤ off ∧ off < pixelOffset l x y + l.bpp
  · rw [dif_pos (by omega), if_pos h, getElem_pixelBytes, Option.getD_some]
  · rw [dif_neg (by omega), if_neg h]

/-- The bytes of a pixel that is stored. -/
theorem byteAt_putPixelChecked_same {l : Latched} (hb : l.bpp = 3 ∨ l.bpp = 4) {x y : Nat} (hx : x < l.w) (hy : y < l.h)
    (px : Pixel) (b : Buffer) {k : Nat} (hk : k < l.bpp) :
    (putPixelChecked l x y px b).byteAt ((y * l.w + x) * l.bpp + k) =
      if k = 0 then px.r else if k = 1 then px.g else if k = 2 then px.b else 0 := by
  unfold putPixelChecked
  rw [if_pos ⟨hx, hy⟩, byteAt_putPixel hb]
  have e : pixelOffset l x y = (y * l.w + x) * l.bpp := rfl
  rw [e, if_pos (by omega)]
  have e2 : (y * l.w + x) * l.bpp + k - (y * l.w + x) * l.bpp = k := by omega
  rw [e2]

/-- A byte that is not the pixel's is unchanged; a pixel outside the frame stores nothing. -/
theorem byteAt_putPixelChecked_other {l : Latched} (hb : l.bpp = 3 ∨ l.bpp = 4) (x y : Nat) (px : Pixel) (b : Buffer)
    {off : Nat} (h : x < l.w → y < l.h → ∀ k, k < l.bpp → off ≠ (y * l.w + x) * l.bpp + k) :
    (putPixelChecked l x y px b).byteAt off = b.byteAt off := by
  unfold putPixelChecked
  split
  · rename_i hc
    rw [byteAt_putPixel hb, if_neg]
    rintro ⟨h1, h2⟩
    have e : pixelOffset l x y = (y * l.w + x) * l.bpp := rfl
    exact h hc.1 hc.2 (off - pixelOffset l x y) (by omega) (by omega)
  · rfl

/-- A stored pixel keeps the buffer canonical and within its frame (R205). -/
theorem putPixelChecked_within {l : Latched} (hb : l.bpp = 3 ∨ l.bpp = 4) (x y : Nat) (px : Pixel) {b : Buffer}
    (h : BufferWithin l.size b) : BufferWithin l.size (putPixelChecked l x y px b) := by
  unfold putPixelChecked
  split
  · rename_i hc
    refine ⟨Memory.storeAll_keeps_wf _ _ _ h.canonical, Memory.storeAll_keeps_below _ _ _ h.within ?_⟩
    rw [length_pixelBytes hb]
    have := pixel_offset_lt (bpp := l.bpp) (k := l.bpp - 1) hc.1 hc.2 (by omega)
    unfold pixelOffset Latched.size
    omega
  · exact h

/-! ### A sequence of pixels -/

/-- The pixels `px p` at `(X p, Y p)`, for p from 0 to n-1, in that order. -/
def drawMany (l : Latched) (X Y : Nat → Nat) (px : Nat → Pixel) (n : Nat) (b : Buffer) : Buffer :=
  (List.range n).foldl (fun b p => putPixelChecked l (X p) (Y p) (px p) b) b

theorem drawMany_succ (l : Latched) (X Y : Nat → Nat) (px : Nat → Pixel) (n : Nat) (b : Buffer) :
    drawMany l X Y px (n + 1) b = putPixelChecked l (X n) (Y n) (px n) (drawMany l X Y px n b) := by
  simp [drawMany, List.range_succ]

@[simp] theorem drawMany_draw (l : Latched) (X Y : Nat → Nat) (px : Nat → Pixel) (n : Nat) (b : Buffer) :
    (drawMany l X Y px n b).draw = b.draw := by
  induction n with
  | zero => rfl
  | succ n ih => rw [drawMany_succ, putPixelChecked_draw, ih]

theorem drawMany_within {l : Latched} (hb : l.bpp = 3 ∨ l.bpp = 4) (X Y : Nat → Nat) (px : Nat → Pixel) (n : Nat)
    {b : Buffer} (h : BufferWithin l.size b) : BufferWithin l.size (drawMany l X Y px n b) := by
  induction n with
  | zero => exact h
  | succ n ih => rw [drawMany_succ]; exact putPixelChecked_within hb _ _ _ ih

/-- A byte of none of the pixels is unchanged. -/
theorem byteAt_drawMany_other {l : Latched} (hb : l.bpp = 3 ∨ l.bpp = 4) {X Y : Nat → Nat} (px : Nat → Pixel) (n : Nat)
    (b : Buffer) {off : Nat}
    (h : ∀ p, p < n → X p < l.w → Y p < l.h → ∀ k, k < l.bpp → off ≠ (Y p * l.w + X p) * l.bpp + k) :
    (drawMany l X Y px n b).byteAt off = b.byteAt off := by
  induction n with
  | zero => rfl
  | succ n ih =>
    rw [drawMany_succ, byteAt_putPixelChecked_other hb _ _ _ _ (h n (by omega)), ih fun p hp => h p (by omega)]

/-- Pixels at different places: each one in the frame is there afterwards. -/
theorem byteAt_drawMany_same {l : Latched} (hb : l.bpp = 3 ∨ l.bpp = 4) {X Y : Nat → Nat} (px : Nat → Pixel) {n : Nat}
    (b : Buffer) (inj : ∀ p q, p < n → q < n → X p = X q → Y p = Y q → p = q) {p k : Nat} (hp : p < n)
    (hx : X p < l.w) (hy : Y p < l.h) (hk : k < l.bpp) :
    (drawMany l X Y px n b).byteAt ((Y p * l.w + X p) * l.bpp + k) =
      if k = 0 then (px p).r else if k = 1 then (px p).g else if k = 2 then (px p).b else 0 := by
  induction n with
  | zero => omega
  | succ n ih =>
    rw [drawMany_succ]
    by_cases e : p = n
    · subst e; exact byteAt_putPixelChecked_same hb hx hy _ _ hk
    · rw [byteAt_putPixelChecked_other hb]
      · exact ih (fun a c ha hc => inj a c (by omega) (by omega)) (by omega)
      · intro hxn hyn k' hk' eo
        obtain ⟨ex, ey, -⟩ := pixel_offset_inj hx hxn hk hk' eo
        exact e (inj p n hp (by omega) ex ey)

/-- The 4:4:4 conversion as a sequence of pixels (R203). -/
theorem convert444_eq (bx byy : Nat) (s : State) :
    convert444 bx byy s =
      { s with
        work := s.work.map (drawMany s.latched (fun p => 8 * bx + p % 8) (fun p => 8 * byy + p / 8)
          (fun p => pix (scrAt s.scr p) (scrAt s.scr (64 + p)) (scrAt s.scr (128 + p))) 64) } := rfl

/-- The 4:2:0 conversion as a sequence of pixels (R204). -/
theorem convert420_eq (bx byy : Nat) (s : State) :
    convert420 bx byy s =
      { s with
        work := s.work.map (drawMany s.latched (fun p => 16 * bx + p % 16) (fun p => 16 * byy + p / 16)
          (fun p => pix
            (scrAt s.scr (64 * (2 * (p / 16 / 8) + p % 16 / 8) + 8 * (p / 16 % 8) + p % 16 % 8))
            (scrAt s.scr (256 + (8 * (p / 16 / 2) + p % 16 / 2)))
            (scrAt s.scr (320 + (8 * (p / 16 / 2) + p % 16 / 2)))) 256) } := rfl

end Sys2Proof.Machine
end

