-- ==== Sys2Proof/Laws/Group.lean ====
section
/-!
SUPPORT. The palette group, the tile fill and the conversion in the words of the statements: what each leaves when its
fields fit.
-/

namespace Sys2Proof.Machine

open Sys2Proof.Claims

theorem setIfInBounds_eq_set {α : Type} {n : Nat} (v : Vector α n) (i : Nat) (x : α) (h : i < n) :
    v.setIfInBounds i x = v.set i x h := by
  apply Vector.ext
  intro k hk
  rw [Vector.getElem_setIfInBounds, Vector.getElem_set]

/-- One slot that fits, in the statements' words. -/
theorem readSlot_after (j : BitVec 2) (sl : Slot) {s : State} (h : s.pos + slotBits sl ≤ s.latched.bitEnd) :
    ∃ w, readSlot j sl s = .go
      { s with
        pos := s.pos + slotBits sl, window := w, map := mapAfter s.map j.toNat [sl], pal := palAfter s.pal [sl] } := by
  obtain ⟨w, e⟩ := readSlot_ok j sl (s := s) h
  refine ⟨w, e.trans ?_⟩
  obtain ⟨idx, color⟩ := sl
  cases color <;>
    simp only [palAfter, mapAfter, slotBits, setIfInBounds_eq_set _ _ _ idx.isLt, setIfInBounds_eq_set _ _ _ j.isLt]

theorem palAfter_cons (pal : Vector Color 4) (sl : Slot) (rest : List Slot) :
    palAfter pal (sl :: rest) = palAfter (palAfter pal [sl]) rest := by
  obtain ⟨idx, color⟩ := sl
  cases color <;> rfl

theorem mapAfter_cons (map : Vector (BitVec 2) 4) (j : Nat) (sl : Slot) (rest : List Slot) :
    mapAfter map j (sl :: rest) = mapAfter (mapAfter map j [sl]) (j + 1) rest := rfl

/-- A group that fits (R142): the cursor past it, PAL and MAP after it, nothing else. -/
theorem readGroup_ok (slots : List Slot) (j : BitVec 2) (hj : j.toNat + slots.length ≤ 4) {s : State}
    (h : s.pos + (slots.map slotBits).sum ≤ s.latched.bitEnd) :
    ∃ w, readGroup j slots s = .go
      { s with
        pos := s.pos + (slots.map slotBits).sum
        window := w
        map := mapAfter s.map j.toNat slots
        pal := palAfter s.pal slots } := by
  induction slots generalizing j s with
  | nil => exact ⟨s.window, rfl⟩
  | cons sl rest ih =>
    simp only [List.map_cons, List.sum_cons, List.length_cons] at h hj ⊢
    obtain ⟨w, e⟩ := readSlot_after j sl (s := s) (by omega)
    rw [readGroup, e, Micro.bind_go]
    cases rest with
    | nil => exact ⟨w, rfl⟩
    | cons sl' rest' =>
      have hj1 : (j + 1).toNat = j.toNat + 1 := by
        simp only [List.length_cons] at hj
        bv_omega
      obtain ⟨w', e'⟩ := ih (j + 1) (by omega)
        (s := { s with
          pos := s.pos + slotBits sl, window := w, map := mapAfter s.map j.toNat [sl], pal := palAfter s.pal [sl] })
        (by show s.pos + slotBits sl + _ ≤ s.latched.bitEnd; omega)
      refine ⟨w', e'.trans ?_⟩
      simp only [palAfter_cons s.pal sl (sl' :: rest'), mapAfter_cons s.map j.toNat sl (sl' :: rest'), hj1, Nat.add_assoc]

/-! ### The tile fill -/

/-- Positions `0 .. n-1` of a tile put in order. -/
def putMany (color : Nat → Color) (n : Nat) (scr : Vector Byte 768) : Vector Byte 768 :=
  (List.range n).foldl (fun scr p => putTile p (color p) scr) scr

theorem putMany_succ (color : Nat → Color) (n : Nat) (scr : Vector Byte 768) :
    putMany color (n + 1) scr = putTile n (color n) (putMany color n scr) := by
  simp [putMany, List.range_succ]

theorem scrAt_putMany (color : Nat → Color) (n : Nat) (hn : n ≤ 64) (scr : Vector Byte 768) (q : Nat) :
    scrAt (putMany color n scr) q =
      if q < n then (color q).extractLsb' 16 8
      else if 64 ≤ q ∧ q < 64 + n then (color (q - 64)).extractLsb' 8 8
      else if 128 ≤ q ∧ q < 128 + n then (color (q - 128)).extractLsb' 0 8
      else scrAt scr q := by
  induction n with
  | zero => simp [putMany, show ¬ (64 ≤ q ∧ q < 64) by omega, show ¬ (128 ≤ q ∧ q < 128) by omega]
  | succ n ih =>
    rw [putMany_succ, scrAt_putTile n (by omega), ih (by omega)]
    by_cases h1 : q = n
    · subst h1; simp
    · by_cases h2 : q = 64 + n
      · subst h2
        have e : 64 + n - 64 = n := by omega
        simp [show ¬ (64 + n < n + 1) by omega, e]
      · by_cases h3 : q = 128 + n
        · subst h3
          have e : 128 + n - 128 = n := by omega
          simp [show ¬ (128 + n < n + 1) by omega, show ¬ (64 ≤ 128 + n ∧ 128 + n < 64 + (n + 1)) by omega, e]
        · simp only [h1, h2, h3, if_false]
          have a1 : (q < n + 1) = (q < n) := propext (by omega)
          have a2 : (64 ≤ q ∧ q < 64 + (n + 1)) = (64 ≤ q ∧ q < 64 + n) := propext (by omega)
          have a3 : (128 ≤ q ∧ q < 128 + (n + 1)) = (128 ≤ q ∧ q < 128 + n) := propext (by omega)
          simp only [a1, a2, a3]

/-- A whole tile put: the three planes hold it, and nothing above them changed (R148). -/
theorem planesFilled_putMany (color : Nat → Color) (scr : Vector Byte 768) :
    PlanesFilled color scr (putMany color 64 scr) := by
  refine ⟨fun p hp => ?_, fun p hp => ?_, fun p hp => ?_, fun p hp => ?_⟩ <;> rw [scrAt_putMany color 64 (by omega)]
  · simp [hp]
  · have e : 64 + p - 64 = p := by omega
    simp [show ¬ (64 + p < 64) by omega, show 64 + p < 64 + 64 by omega, e]
  · have e : 128 + p - 128 = p := by omega
    simp [show ¬ (128 + p < 64) by omega, show ¬ (128 + p < 64 + 64) by omega, show 128 + p < 128 + 64 by omega, e]
  · simp [show ¬ (p < 64) by omega, show ¬ (64 ≤ p ∧ p < 64 + 64) by omega,
      show ¬ (128 ≤ p ∧ p < 128 + 64) by omega]

theorem fillSolid_eq (s : State) :
    fillSolid s = .go { s with scr := putMany (fun _ => s.palAt (s.mapAt 0)) 64 s.scr } := rfl

theorem putFrom_eq (f : BitVec 2 → Color) (fields : List (BitVec 2)) (p : Nat) (scr : Vector Byte 768) :
    (fields.foldl (fun (a : Vector Byte 768 × Nat) v => (putTile a.2 (f v) a.1, a.2 + 1)) (scr, p)).1 =
      (List.range fields.length).foldl (fun scr k => putTile (p + k) (f (fields.getD k 0)) scr) scr := by
  induction fields generalizing p scr with
  | nil => rfl
  | cons v rest ih =>
    rw [List.foldl_cons, ih, List.length_cons, List.range_succ_eq_map, List.foldl_cons, List.foldl_map]
    simp only [Nat.add_zero, List.getD_cons_zero, List.getD_cons_succ]
    congr 1
    funext scr k
    rw [show p + 1 + k = p + k.succ by omega]

/-- A whole bitmap that fits (R147). -/
theorem fillBitmap_ok (bits : Nat) {n : Nat} (m : BitVec n) {s : State} (h : s.pos + 64 * bits ≤ s.latched.bitEnd) :
    ∃ w, fillBitmap bits (bitmapFields bits m) s = .go
      { s with
        pos := s.pos + 64 * bits
        window := w
        scr := putMany (fun p => s.palAt (s.mapAt ((bitmapFields bits m).getD p 0))) 64 s.scr } := by
  have hl : (bitmapFields bits m).length = 64 := by simp [bitmapFields]
  obtain ⟨w, e⟩ := fillBitmapFrom_ok bits (bitmapFields bits m) 0 (s := s) (by rw [hl]; omega)
  refine ⟨w, e.trans ?_⟩
  rw [hl, putFrom_eq (fun v => s.palAt (s.mapAt v)), hl, Nat.mul_comm bits 64]
  simp only [Nat.zero_add, putMany]

theorem getD_bitmapFields {n : Nat} (bits : Nat) (m : BitVec n) {p : Nat} (hp : p < 64) :
    (bitmapFields bits m).getD p 0 = BitVec.ofNat 2 (m.toNat / 2 ^ (bits * (63 - p)) % 2 ^ bits) := by
  rw [bitmapFields, List.getD_eq_getElem _ _ (by simpa using hp)]
  simp

/-- Field `p` of a 1-bit bitmap (R86, R92). -/
theorem bitmapFields_one (m : BitVec 64) {p : Nat} (hp : p < 64) :
    (bitmapFields 1 m).getD p 0 = if m.getMsbD p then 1 else 0 := by
  rw [getD_bitmapFields 1 m hp, BitVec.getMsbD_eq_getLsbD, ← BitVec.testBit_toNat]
  simp only [hp, decide_true, Bool.true_and, one_mul, pow_one, Nat.testBit_eq_decide_div_mod_eq]
  have e : 64 - 1 - p = 63 - p := by omega
  rw [e]
  rcases Nat.mod_two_eq_zero_or_one (m.toNat / 2 ^ (63 - p)) with h | h <;> simp [h]

/-- Field `p` of a 2-bit bitmap (R86, R92). -/
theorem bitmapFields_two (m : BitVec 128) {p : Nat} (hp : p < 64) :
    (bitmapFields 2 m).getD p 0 =
      match m.getMsbD (2 * p), m.getMsbD (2 * p + 1) with
      | false, false => 0
      | false, true => 1
      | true, false => 2
      | true, true => 3 := by
  rw [getD_bitmapFields 2 m hp, BitVec.getMsbD_eq_getLsbD, BitVec.getMsbD_eq_getLsbD, ← BitVec.testBit_toNat,
    ← BitVec.testBit_toNat]
  have e1 : 128 - 1 - 2 * p = 2 * (63 - p) + 1 := by omega
  have e2 : 128 - 1 - (2 * p + 1) = 2 * (63 - p) := by omega
  simp only [show 2 * p < 128 by omega, show 2 * p + 1 < 128 by omega, decide_true, Bool.true_and, e1, e2,
    Nat.testBit_eq_decide_div_mod_eq, pow_succ, ← Nat.div_div_eq_div_mul, pow_zero, one_mul]
  generalize m.toNat / 2 ^ (2 * (63 - p)) = q
  have hq : q % (2 * 2) = q % 4 := rfl
  rw [hq]
  rcases (by omega : q % 4 = 0 ∨ q % 4 = 1 ∨ q % 4 = 2 ∨ q % 4 = 3) with h | h | h | h
  · simp [h, show q % 2 = 0 by omega, show q / 2 % 2 = 0 by omega]
  · simp [h, show q % 2 = 1 by omega, show q / 2 % 2 = 0 by omega]
  · simp [h, show q % 2 = 0 by omega, show q / 2 % 2 = 1 by omega]
  · simp [h, show q % 2 = 1 by omega, show q / 2 % 2 = 1 by omega]

/-! ### The conversion -/

/-- The 64 pixels of a 4:4:4 tile are drawn (R203). -/
theorem tileDrawn_444 {l : Latched} (hb : l.bpp = 3 ∨ l.bpp = 4) (bx byy : Nat) (px : Nat → Pixel) (b : Buffer) :
    TileDrawn l 8 bx byy (fun row col => px (8 * row + col)) b
      (drawMany l (fun p => 8 * bx + p % 8) (fun p => 8 * byy + p / 8) px 64 b) := by
  refine ⟨by simp, fun row col k hr hc hx hy hk => ?_, fun off h => ?_⟩
  · have hX : 8 * bx + (8 * row + col) % 8 = 8 * bx + col := by omega
    have hY : 8 * byy + (8 * row + col) / 8 = 8 * byy + row := by omega
    have := byteAt_drawMany_same hb (X := fun p => 8 * bx + p % 8) (Y := fun p => 8 * byy + p / 8) px (n := 64) b
      (by intro p q _ _ e1 e2; omega) (p := 8 * row + col) (k := k) (by omega)
      (by omega) (by omega) hk
    simpa only [hX, hY, pixelByte] using this
  · refine byteAt_drawMany_other hb px 64 b fun p hp hx hy k hk => ?_
    have hp' : p = 8 * (p / 8) + p % 8 := by omega
    exact h (p / 8) (p % 8) k (by omega) (by omega) hx hy hk

end Sys2Proof.Machine
end

