-- ==== Sys2Proof/Laws/PerInstr.lean ====
section
/-!
SUPPORT. Statements made per block, as syntax. `TagFirst`: a block's encoding begins with its own tag, four bits wide
(R80, R81, R82), under every parameter choice.
-/

namespace Sys2Proof.Laws.TagFirst

def Statement (i : Instr) : Prop := ∀ p : Params, (encode p i).take 4 = bitsOf (tagOf i)

/-- The bits of any tag are the first four of what they begin. -/
theorem take_tag (v : BitVec 4) (rest : List Bool) : (bitsOf v ++ rest).take 4 = bitsOf v := by
  rw [List.take_append_of_le_length (by simp), List.take_of_length_le (by simp)]

theorem tc1 : Statement .tc1 := fun _ => take_tag _ _
theorem endTag : Statement .endTag := fun _ => take_tag _ _
theorem tc2 : Statement .tc2 := fun _ => take_tag _ _
theorem unk : Statement .unk := fun _ => take_tag _ _
theorem tc1h : Statement .tc1h := fun _ => take_tag _ _
theorem vq1 (s0 : Slot) : Statement (.vq1 s0) := fun _ => take_tag _ _
theorem vq2 (s0 s1 : Slot) (bitmap : BitVec 64) : Statement (.vq2 s0 s1 bitmap) := fun _ => take_tag _ _
theorem vq4 (s0 s1 s2 s3 : Slot) (bitmap : BitVec 128) : Statement (.vq4 s0 s1 s2 s3 bitmap) := fun _ => take_tag _ _
theorem tc1S : Statement .tc1S := fun _ => take_tag _ _
theorem endTagS : Statement .endTagS := fun _ => take_tag _ _
theorem tc2S : Statement .tc2S := fun _ => take_tag _ _
theorem unkS : Statement .unkS := fun _ => take_tag _ _
theorem tc1hS : Statement .tc1hS := fun _ => take_tag _ _
theorem vq1S (c : Coord) (s0 : Slot) : Statement (.vq1S c s0) := fun _ => take_tag _ _
theorem vq2S (c : Coord) (s0 s1 : Slot) (bitmap : BitVec 64) : Statement (.vq2S c s0 s1 bitmap) := fun _ => take_tag _ _
theorem vq4S (c : Coord) (s0 s1 s2 s3 : Slot) (bitmap : BitVec 128) : Statement (.vq4S c s0 s1 s2 s3 bitmap) :=
  fun _ => take_tag _ _

end Sys2Proof.Laws.TagFirst
end

