-- ==== Sys2Proof/Laws/Quant.lean ====
section
/-!
SUPPORT. The arithmetic of the quantization-table builder in natural numbers.
-/

namespace Sys2Proof.Machine

/-- `round` of a natural numerator over the AAN denominator, in natural numbers (R11). -/
theorem roundRat_aan (x : Nat) :
    (roundRat (x : Int) (10 ^ 14)).toNat = (2 * x + 10 ^ 14) / (2 * 10 ^ 14) := by
  have h : roundRat (x : Int) (10 ^ 14) = (2 * (x : Int) + 100000000000000) / 200000000000000 := by
    simp only [roundRat]
    norm_num
  rw [h]
  norm_num
  omega

/-- Step 4 of the build (R126) without integers. -/
theorem aanScale_eq (t row col : Nat) :
    aanScale t row col = (2 * (t * aan.getD row 0 * aan.getD col 0 * 65536) + 10 ^ 14) / (2 * 10 ^ 14) :=
  roundRat_aan _

/-- Step 2 of the build (R124) answers 1..255. -/
theorem scaleClamp_range (base sf : Nat) : 1 ≤ scaleClamp base sf ∧ scaleClamp base sf ≤ 255 := by
  unfold scaleClamp
  omega

end Sys2Proof.Machine
end

