-- ==== Sys2Proof/Laws/Step.lean ====
section
/-!
SUPPORT. All that one step can do, and all that one host access can do, each said once.
-/

namespace Sys2Proof.Machine

/-! ### The core's move -/

/-- The fetched bits always hold a block (R91). -/
theorem decodeAt_total (s : State) : ∃ i, decodeAt s = .ok i := by
  obtain ⟨i, rest, e⟩ := decode_total s.params (fetchBits s) (by simp [fetchBits])
  exact ⟨i, by simp [decodeAt, e]⟩

/-- The block at the cursor does not depend on what the host will do. -/
@[simp] theorem decodeAt_host (s : State) (h : List HostAction) : decodeAt { s with host := h } = decodeAt s := rfl

theorem frameTurn_bound {s : State} (h : s.latched.bitEnd ≤ s.pos) :
    frameTurn s = .next (endSuccess .payloadBound s) := by rw [frameTurn, if_pos h]

theorem frameTurn_block {s : State} {i : Instr} (h : s.pos < s.latched.bitEnd) (hi : decodeAt s = .ok i) :
    frameTurn s = exec i s := by rw [frameTurn, if_neg (by omega), hi]

/-- All that the core's move can do. -/
theorem coreStep_cases {s t : State} (h : coreStep s = .next t) :
    (s.phase ≠ .busy ∧ t = s) ∨
    (s.phase = .busy ∧ s.latched.bitEnd ≤ s.pos ∧ t = endSuccess .payloadBound s) ∨
    (s.phase = .busy ∧ s.pos < s.latched.bitEnd ∧ ∃ i, decodeAt s = .ok i ∧ exec i s = .next t) := by
  unfold coreStep at h
  by_cases hb : s.phase = .busy
  · rw [if_pos hb] at h
    rcases Nat.lt_or_ge s.pos s.latched.bitEnd with hp | hp
    · obtain ⟨i, hi⟩ := decodeAt_total s
      rw [frameTurn_block hp hi] at h
      exact .inr (.inr ⟨hb, hp, i, hi, h⟩)
    · rw [frameTurn_bound hp] at h
      cases h
      exact .inr (.inl ⟨hb, hp, rfl⟩)
  · rw [if_neg hb] at h
    cases h
    exact .inl ⟨hb, rfl⟩

/-- The core always has a move. -/
theorem coreStep_next (s : State) : ∃ t, coreStep s = .next t := by
  unfold coreStep
  by_cases hb : s.phase = .busy
  · rw [if_pos hb]
    rcases Nat.lt_or_ge s.pos s.latched.bitEnd with hp | hp
    · obtain ⟨i, hi⟩ := decodeAt_total s
      rw [frameTurn_block hp hi]
      exact exec_next i s
    · exact ⟨_, frameTurn_bound hp⟩
  · exact ⟨s, by rw [if_neg hb]⟩

/-- All that one step can do: the core's move, the host's access, or the host's waiting over. -/
theorem step_cases {s t : State} (h : step s = .next t) :
    (∃ rest, coreStep { s with host := rest } = .next t) ∨
    (∃ a rest, s.host = .access a :: rest ∧ hostAccess a { s with host := rest } = .next t) ∨
    (∃ rest, s.phase ≠ .busy ∧ t = { s with host := rest }) := by
  unfold step at h
  split at h
  · rename_i hh
    refine .inl ⟨[], ?_⟩
    rw [← hh]; exact h
  · rename_i a rest hh
    exact .inr (.inl ⟨a, rest, hh, h⟩)
  · rename_i rest hh
    exact .inl ⟨rest, h⟩
  · rename_i rest hh
    split at h
    · refine .inl ⟨s.host, ?_⟩
      exact h
    · rename_i hb
      cases h
      exact .inr (.inr ⟨rest, hb, rfl⟩)

/-! ### A host access -/

theorem hostAccess_idle {s : State} (a : HostAccess) (h : s.phase ≠ .busy) : hostAccess a s = idleAccess a s := by
  rw [hostAccess, if_neg fun hc => h hc.1]

/-- A write to CMD outside BUSY is a command. -/
theorem hostAccess_command {s : State} (v : Word) (h : s.phase ≠ .busy) :
    hostAccess (.writeReg 0x00 v) s = command v { s with rdata := none } := by
  rw [hostAccess_idle _ h]; rfl

/-- A DECODE in a state with a decoder and its five registers written. -/
theorem decodeCommand_written {s : State} {w h c m g : Word} (hp : s.phase = .ready ∨ s.phase = .error)
    (hw : s.desc.width = some w) (hh : s.desc.height = some h) (hc : s.desc.compSize = some c)
    (hm : s.desc.mode = some m) (hg : s.desc.config = some g) :
    decodeCommand s = .next (startDecode (latchOf w h c m g) s) := by
  rcases hp with hp | hp <;> simp only [decodeCommand, hp, decodeAccepted, hw, hh, hc, hm, hg]

/-- All that an accepted DECODE can do. -/
theorem decodeCommand_cases {s t : State} (h : decodeCommand s = .next t) :
    (s.phase = .ready ∨ s.phase = .error) ∧ ∃ w ht c m g, t = startDecode (latchOf w ht c m g) s := by
  unfold decodeCommand at h
  split at h <;> try cases h
  all_goals
    rename_i hp
    unfold decodeAccepted at h
    split at h
    · cases h
      first
        | exact ⟨.inl hp, _, _, _, _, _, rfl⟩
        | exact ⟨.inr hp, _, _, _, _, _, rfl⟩
    · cases h

/-- All that a DECODE's start can do: the header fault, or the set-up. -/
theorem startDecode_cases (l : Latched) (s : State) :
    (headerOk s.params l = true ∧
      startDecode l s = initScanner (initCursor (initWork (buildAllQt { s with phase := .busy, latched := l })))) ∨
    (headerOk s.params l = false ∧
      startDecode l s = takeFault .headerInconsistent 0 { s with phase := .busy, latched := l }) := by
  cases h : headerOk s.params l
  · exact .inr ⟨rfl, by simp [startDecode, h]⟩
  · exact .inl ⟨rfl, by simp [startDecode, h]⟩

/-- All that an accepted host access can do: a read or a plain write, which leaves the core alone, or a command outside
BUSY. -/
theorem hostAccess_cases {a : HostAccess} {s t : State} (h : hostAccess a s = .next t) :
    (∃ r, t = { s with rdata := r }) ∨
    (s.phase ≠ .busy ∧ ∃ d, t = { s with desc := d, rdata := none }) ∨
    (s.phase ≠ .busy ∧ ∃ (off : Word) (v : Byte),
      t = { s with payload := Memory.store s.payload off.toNat v, rdata := none }) ∨
    (s.phase ≠ .busy ∧ a = .writeReg 0x00 1 ∧ resetCommand { s with rdata := none } = .next t) ∨
    (s.phase ≠ .busy ∧ a = .writeReg 0x00 2 ∧ decodeCommand { s with rdata := none } = .next t) ∨
    (s.phase ≠ .busy ∧ a = .writeReg 0x00 3 ∧ destroyCommand { s with rdata := none } = .next t) := by
  have hread : ∀ r, answer r s = .next t → ∃ r, t = { s with rdata := r } := by
    intro r hr
    cases r with
    | ok v => cases hr; exact ⟨_, rfl⟩
    | error e => cases hr
  unfold hostAccess at h
  split at h
  · cases h
  · rename_i hn
    cases a with
    | readReg off => exact .inl (hread _ h)
    | readPub off => exact .inl (hread _ h)
    | writePayload off v =>
      have hb : s.phase ≠ .busy := fun hb => hn ⟨hb, by simp⟩
      cases h
      exact .inr (.inr (.inl ⟨hb, off, v, rfl⟩))
    | writeReg off v =>
      have hb : s.phase ≠ .busy := fun hb => hn ⟨hb, by simp⟩
      simp only [idleAccess, writeReg] at h
      by_cases h0 : off = 0x00
      · subst h0
        rw [if_pos rfl] at h
        unfold command at h
        by_cases h1 : v = 1
        · subst h1
          exact .inr (.inr (.inr (.inl ⟨hb, rfl, by simpa using h⟩)))
        · rw [if_neg h1] at h
          by_cases h2 : v = 2
          · subst h2
            exact .inr (.inr (.inr (.inr (.inl ⟨hb, rfl, by simpa using h⟩))))
          · rw [if_neg h2] at h
            by_cases h3 : v = 3
            · subst h3
              exact .inr (.inr (.inr (.inr (.inr ⟨hb, rfl, by simpa using h⟩))))
            · rw [if_neg h3] at h
              cases h
      · rw [if_neg h0] at h
        split at h
        · cases h
        · split at h
          · cases h
            exact .inr (.inl ⟨hb, _, rfl⟩)
          · cases h

end Sys2Proof.Machine
end

