-- ==== Sys2Proof/Laws/Run.lean ====
section
/-!
SUPPORT. What a block leaves of a running DECODE, in one inversion lemma, and how a run unfolds.
-/

namespace Sys2Proof.Machine

/-- What the fields of a block after its tag leave as they were at the block's start `s`. -/
structure FieldsRead (s t : State) : Prop where
  forward   : s.pos + 4 ≤ t.pos
  within    : t.pos ≤ s.latched.bitEnd
  latched   : t.latched = s.latched
  params    : t.params = s.params
  payload   : t.payload = s.payload
  phase     : t.phase = s.phase
  pub       : t.pub = s.pub
  work      : t.work = s.work
  errCode   : t.errCode = s.errCode
  endReason : t.endReason = s.endReason
  errBit    : t.errBit = s.errBit
  sx        : t.sx = s.sx
  sy        : t.sy = s.sy
  qt        : t.qt = s.qt
  host      : t.host = s.host

theorem fieldsRead_kept (s : State) : KeptByFields (FieldsRead s) where
  cursor n t hn hb h :=
    { h with
      forward := by have := h.forward; show s.pos + 4 ≤ t.pos + n; omega
      within := by rw [h.latched] at hb; exact hb }
  mapping _ _ _ h := { h with }
  palette _ _ _ h := { h with }
  scratch _ _ _ h := { h with }

theorem fieldsRead_tag {s : State} (h : s.pos + 4 ≤ s.latched.bitEnd) : FieldsRead s (advanceCursor 4 s) where
  forward := Nat.le_refl _
  within := h
  latched := rfl
  params := rfl
  payload := rfl
  phase := rfl
  pub := rfl
  work := rfl
  errCode := rfl
  endReason := rfl
  errBit := rfl
  sx := rfl
  sy := rfl
  qt := rfl
  host := rfl

/-- The conversion and the scanner's advance write WORK, SX and SY alone. -/
theorem tile_end (s : State) (x y : Nat) :
    scannerAdvance (convert444 x y s) =
      { s with sx := (scannerAdvance s).sx, sy := (scannerAdvance s).sy, work := (convert444 x y s).work } := by
  unfold scannerAdvance convert444
  simp only
  split <;> rfl

/-- The three ways a block ends. -/
inductive BlockLeaves (s : State) : State → Prop
  | faulted (code : ErrCode) (p : Nat) (u : State)
      (hc : code = .truncatedInput ∨ code = .unknownBlockTag ∨ code = .unsupportedBlockKind)
      (hu : u = s ∨ FieldsRead s u) : BlockLeaves s (takeFault code p u)
  | finished (h : s.pos + 4 ≤ s.latched.bitEnd) : BlockLeaves s (endSuccess .endTag (advanceCursor 4 s))
  | drawn (u : State) (x y : Nat) (hu : FieldsRead s u) : BlockLeaves s (scannerAdvance (convert444 x y u))

/-- All that a block can leave. -/
theorem exec_leaves {i : Instr} {s t : State} (h : exec i s = .next t) : BlockLeaves s t := by
  obtain ⟨t', e, hq⟩ := exec_all (P := FieldsRead s) (Q := BlockLeaves s) (fieldsRead_kept s)
    (fun u hu => .faulted _ _ _ (.inl rfl) (.inr hu)) i fieldsRead_tag
    (fun _ => .faulted _ _ _ (.inl rfl) (.inl rfl))
    (fun code hc hb => .faulted _ _ _ (.inr hc) (.inr (fieldsRead_tag hb)))
    (fun hb => .finished hb) (fun u x y hu => .drawn u x y hu)
  rw [h] at e
  cases e
  exact hq

theorem run_succ (k : Nat) {s t : State} (h : step s = .next t) :
    Host.Core.run core (k + 1) s = Host.Core.run core k t := by
  have h' : core.step s = .next t := h
  simp only [Host.Core.run, h']

/-- An idle core with a silent host stays as it is (R275). -/
theorem run_idle (k : Nat) {t : State} (hh : t.host = []) (hp : t.phase ≠ .busy) :
    Host.Core.run core k t = .next t := by
  induction k with
  | zero => rfl
  | succ k ih =>
    have : step t = .next t := by simp [step, hh, coreStep, hp]
    rw [run_succ k this, ih]

end Sys2Proof.Machine
end

