-- ==== Sys2Proof/Tests/Slice0.lean ====
section
/-!
SUPPORT. The model's own tests: well-formedness, each constructor's decoding from words written out from the spec's
encodings, one step of each block with the end states spec 95_test_vectors.md states, the units it gives vectors for, and
for each statement with hypotheses a witness that meets them. The expected values are the spec's.
-/

-- Each theorem is checked before the next one starts: many kernel evaluations side by side take much memory.
set_option Elab.async false

namespace Sys2Proof.Tests

open Sys2Proof.Machine Sys2Proof.Claims

/-! ### Small states -/

/-- The payload bytes of a word, the big lane order (R62). -/
def bytesOf (w : Word) : List Byte := (List.range 4).map fun j => w.extractLsb' (8 * (3 - j)) 8

/-- A running DECODE at bit 0 of the given words, on a `w` x `h` frame. -/
def running (ws : List Word) (w h : Nat) : State :=
  initCursor
    { State.reset with
      phase := .busy
      payload := Memory.storeAll [] 0 (ws.flatMap bytesOf)
      latched := { Latched.initial with w := w, h := h, n := ws.length }
      work := some { draw := 0, cells := [] }
      qt := Vector.replicate 4 (Vector.replicate 64 65536)
      draws := 1 }

/-- What `f` sees of the next state. -/
def seen {α : Type} (f : State → α) (o : Host.Outcome State Fault Refusal) : Option α :=
  match o with
  | .next t => some (f t)
  | .fault _ => none
  | .refused _ => none

/-- STATE, ERR_CODE, ERR_WORD, ERR_BIT and `pos`. -/
def ending (s : State) : Phase × ErrCode × Nat × Nat × Nat :=
  (s.phase, s.errCode, s.errWord.toNat, s.errBit.toNat, s.pos)

/-- The first `n` written bytes of the working buffer. -/
def workBytes (n : Nat) (s : State) : List (Option Byte) :=
  (List.range n).map fun a => match s.work with
    | some b => Memory.read b.cells a
    | none => none

/-! ### Well-formedness (R83) -/

/-- A 16-bit coordinate field has nothing ignored. -/
def shortCoords : Params := { Params.default with coordBits := .bits16 }

def noisyCoord : Coord := { bx := 1, byy := 2, ignored := 3 }

theorem test_wf_vq1S_refused : Instr.wf shortCoords (.vq1S noisyCoord ⟨0, none⟩) = false := by decide
theorem test_wf_vq2S_refused : Instr.wf shortCoords (.vq2S noisyCoord ⟨0, none⟩ ⟨1, none⟩ 0) = false := by decide
theorem test_wf_vq4S_refused :
    Instr.wf shortCoords (.vq4S noisyCoord ⟨0, none⟩ ⟨1, none⟩ ⟨2, none⟩ ⟨3, none⟩ 0) = false := by decide
theorem test_wf_long_field_accepted : Instr.wf Params.default (.vq1S noisyCoord ⟨0, none⟩) = true := by decide

/-! ### Decoding, from the spec's encodings (R82 to R87, R168 to R183) -/

/-- The block a word sequence begins with. -/
def first (p : Params) (ws : List Word) : Option Instr :=
  match decode p (ws.flatMap fun w => bitsOf w) with
  | .ok (i, _) => some i
  | .error _ => none

theorem test_decode_tc1 : first Params.default [0x00000000] = some .tc1 := by decide +kernel
theorem test_decode_endTag : first Params.default [0x10000000] = some .endTag := by decide +kernel
theorem test_decode_tc2 : first Params.default [0x20000000] = some .tc2 := by decide +kernel
theorem test_decode_unk : first Params.default [0x30000000] = some .unk := by decide +kernel
theorem test_decode_tc1h : first Params.default [0x40000000] = some .tc1h := by decide +kernel
/-- V1. -/
theorem test_decode_vq1 : first Params.default [0x53FE0000, 0x20000000] = some (.vq1 ⟨0, some 0xFF0000⟩) := by
  decide +kernel
/-- T3, row 1 of the fill results. -/
theorem test_decode_vq2 : first Params.default [0x63FF0100, 0x4020203F, 0xFFFFFFFF, 0xFFFFFFC4] =
    some (.vq2 ⟨0, some 0xFF8080⟩ ⟨0, some 0x008080⟩ 0xFFFFFFFFFFFFFFFF) := by decide +kernel
/-- T3, row 3 of the fill results. -/
theorem test_decode_vq4 :
    first Params.default [0x70A61B1B, 0x1B1B1B1B, 0x1B1B1B1B, 0x1B1B1B1B, 0x1B1B1000] =
      some (.vq4 ⟨0, none⟩ ⟨1, none⟩ ⟨2, none⟩ ⟨3, none⟩ 0x1B1B1B1B1B1B1B1B1B1B1B1B1B1B1B1B) := by decide +kernel
theorem test_decode_tc1S : first Params.default [0x80000000] = some .tc1S := by decide +kernel
theorem test_decode_endTagS : first Params.default [0x90000000] = some .endTagS := by decide +kernel
theorem test_decode_tc2S : first Params.default [0xA0000000] = some .tc2S := by decide +kernel
theorem test_decode_unkS : first Params.default [0xB0000000] = some .unkS := by decide +kernel
theorem test_decode_tc1hS : first Params.default [0xC0000000] = some .tc1hS := by decide +kernel
/-- T4, `VQ1.S @1,0 r1`: tag 1101, x 00000001, y 00000000, 8 ignored bits, 01 0. -/
theorem test_decode_vq1S : first Params.default [0xD0100004, 0xB0400000] = some (.vq1S ⟨1, 0, 0⟩ ⟨1, none⟩) := by
  decide +kernel
/-- T3, row 4 of the fill results. -/
theorem test_decode_vq2S : first Params.default [0xE0000000, 0xBFC03FC0, 0x3FC03FC0, 0x04000000] =
    some (.vq2S ⟨0, 0, 0⟩ ⟨0, none⟩ ⟨1, none⟩ 0xFF00FF00FF00FF00) := by decide +kernel
/-- T4, `VQ4.S @255,255 r0, r1, r2, r3 bm 0...`: 1111, FF, FF, 00, 000 010 100 110, then 128 zeros. -/
theorem test_decode_vq4S :
    first Params.default [0xFFFFF000, 0xA6000000, 0, 0, 0, 0x00100000] =
      some (.vq4S ⟨255, 255, 0⟩ ⟨0, none⟩ ⟨1, none⟩ ⟨2, none⟩ ⟨3, none⟩ 0) := by decide +kernel
/-- T3, the `SLOT_ORDER = FLAG_FIRST` variant of V1. -/
theorem test_decode_flag_first :
    first { Params.default with slotOrder := .flagFirst } [0x59FE0000, 0x20000000] = some (.vq1 ⟨0, some 0xFF0000⟩) := by
  decide +kernel
/-- A 16-bit field (R83): tag 1101, x 00000001, y 00000010, then 01 0. -/
theorem test_decode_short_coords : first shortCoords [0xD0102400] = some (.vq1S ⟨1, 2, 0⟩ ⟨1, none⟩) := by decide +kernel
theorem test_decode_cut_tag : decode Params.default [false, true, false] = .error .cutTag := by decide
theorem test_decode_cut_coordinates : decode Params.default (bitsOf 0xD0#8) = .error .cutCoordinates := by decide
theorem test_decode_cut_slot : decode Params.default (bitsOf 0x53F#12) = .error .cutSlot := by decide
theorem test_decode_cut_bitmap : decode Params.default (bitsOf 0x60B#12) = .error .cutBitmap := by decide

/-! ### One step of each block: 95_test_vectors.md T4, one payload word, 8x8 -/

theorem test_step_tc1 : seen ending (step (running [0x00000000] 8 8)) = some (.error, .unsupportedBlockKind, 0, 0, 4) := by
  decide +kernel
theorem test_step_endTag : seen ending (step (running [0x10000000] 8 8)) = some (.ready, .none, 0, 0, 4) := by
  decide +kernel
theorem test_step_tc2 : seen ending (step (running [0x20000000] 8 8)) = some (.error, .unsupportedBlockKind, 0, 0, 4) := by
  decide +kernel
theorem test_step_unk : seen ending (step (running [0x30000000] 8 8)) = some (.error, .unknownBlockTag, 0, 0, 4) := by
  decide +kernel
theorem test_step_tc1h :
    seen ending (step (running [0x40000000] 8 8)) = some (.error, .unsupportedBlockKind, 0, 0, 4) := by decide +kernel
theorem test_step_vq2_cut :
    seen ending (step (running [0x60000000] 8 8)) = some (.error, .truncatedInput, 1, 0, 32) := by decide +kernel
theorem test_step_vq4_cut :
    seen ending (step (running [0x70000000] 8 8)) = some (.error, .truncatedInput, 1, 0, 32) := by decide +kernel
theorem test_step_tc1S :
    seen ending (step (running [0x80000000] 8 8)) = some (.error, .unsupportedBlockKind, 0, 0, 4) := by decide +kernel
theorem test_step_endTagS : seen ending (step (running [0x90000000] 8 8)) = some (.ready, .none, 0, 0, 4) := by
  decide +kernel
theorem test_step_tc2S :
    seen ending (step (running [0xA0000000] 8 8)) = some (.error, .unsupportedBlockKind, 0, 0, 4) := by decide +kernel
theorem test_step_unkS : seen ending (step (running [0xB0000000] 8 8)) = some (.error, .unknownBlockTag, 0, 0, 4) := by
  decide +kernel
theorem test_step_tc1hS :
    seen ending (step (running [0xC0000000] 8 8)) = some (.error, .unsupportedBlockKind, 0, 0, 4) := by decide +kernel
theorem test_step_vq2S_cut :
    seen ending (step (running [0xE0000000] 8 8)) = some (.error, .truncatedInput, 0, 31, 31) := by decide +kernel
theorem test_step_vq4S_cut :
    seen ending (step (running [0xF0000000] 8 8)) = some (.error, .truncatedInput, 0, 31, 31) := by decide +kernel
/-- T4: a coordinate field that passes the end. -/
theorem test_step_vq1S_cut :
    seen ending (step { running [0x51A00000] 8 8 with pos := 7 }) = some (.error, .truncatedInput, 0, 11, 11) := by
  decide +kernel
/-- T4: in 4:2:0 mode a VQ tag is refused its kind before the slot is read. -/
theorem test_step_vq1_420 :
    seen ending (step { running [0x50000000] 16 16 with
      latched := { Latched.initial with w := 16, h := 16, n := 1, m420 := true } }) =
      some (.error, .unsupportedBlockKind, 0, 0, 4) := by decide +kernel

/-- V1 on a 2x1 frame: bytes `49 FF 14 49 FF 14`, PAL[0] = 0xFF0000. -/
theorem test_step_vq1 :
    seen (fun t => (workBytes 7 t, t.pal[0], t.pos, t.phase)) (step (running [0x53FE0000, 0x20000000] 2 1)) =
      some ([some 0x49, some 0xFF, some 0x14, some 0x49, some 0xFF, some 0x14, none], 0xFF0000, 31, .busy) := by
  decide +kernel
/-- T3, row 2 of the fill results on a 2x1 frame: (255,0,0). -/
theorem test_step_vq2 :
    seen (fun t => (workBytes 6 t, t.map[1])) (step (running [0x6E98A9FF, 0x83C3C3C3, 0xC3C3C3C3, 0xC4000000] 2 1)) =
      some ([some 255, some 0, some 0, some 255, some 0, some 0], 3) := by decide +kernel
/-- T3, row 3 of the fill results on a 4x1 frame. -/
theorem test_step_vq4 :
    seen (workBytes 12)
      (step (running [0x70A61B1B, 0x1B1B1B1B, 0x1B1B1B1B, 0x1B1B1B1B, 0x1B1B1000] 4 1)) =
      some [some 0, some 0, some 0, some 255, some 255, some 255, some 130, some 130, some 130, some 204, some 204,
        some 204] := by decide +kernel
/-- T4 on a 9x1 frame: block (1,0) white, the pixels of block (0,0) unwritten, the scanner from (0,0) to (1,0). -/
theorem test_step_vq1S :
    seen (fun t => ((workBytes 27 t).drop 23, t.sx, t.pos)) (step (running [0xD0100004, 0xB0400000] 9 1)) =
      some ([none, some 255, some 255, some 255], 1, 31) := by decide +kernel
/-- T3, row 4 of the fill results on a 1x2 frame: row 0 white, row 1 black. -/
theorem test_step_vq2S :
    seen (workBytes 6) (step (running [0xE0000000, 0xBFC03FC0, 0x3FC03FC0, 0x04000000] 1 2)) =
      some [some 255, some 255, some 255, some 0, some 0, some 0] := by decide +kernel
/-- T4: block (255,255) is outside the frame, nothing is written. -/
theorem test_step_vq4S :
    seen (fun t => (workBytes 3 t, t.pos)) (step (running [0xFFFFF000, 0xA6000000, 0, 0, 0, 0x00100000] 1 1)) =
      some ([none, none, none], 168) := by decide +kernel

/-! ### Units -/

/-- T1: each row's pos, W0, W1, CNT, IDX. -/
def cursorRow (s : State) : Nat × Word × Word × Nat × Nat := (s.pos, s.window.w0, s.window.w1, s.window.cnt, s.window.idx)

/-- T1: the states after reads of the given widths. -/
def readsFrom (s : State) (ns : List Nat) : List (Nat × Word × Word × Nat × Nat) :=
  match ns with
  | [] => [cursorRow s]
  | n :: rest => cursorRow s :: readsFrom (advanceCursor n s) rest

theorem test_window_t1 : readsFrom (running [0x53FE0000, 0x20000000] 8 8) [4, 2, 1, 24, 4] =
    [(0, 0x53FE0000, 0x20000000, 32, 2), (4, 0x3FE00002, 0, 28, 2), (6, 0xFF800008, 0, 26, 2),
     (7, 0xFF000010, 0, 25, 2), (31, 0x10000000, 0, 1, 2), (35, 0, 0, 29, 3)] := by decide +kernel

/-- T1: `Read(32)` at 4. -/
theorem test_read_across_words :
    (match Machine.read 32 (advanceCursor 4 (running [0x53FE0000, 0x20000000] 8 8)) with
      | .ok (v, t) => some (v, t.pos)
      | .error _ => none) = some (0x3FE00002#32, 36) := by decide +kernel

/-- T5. -/
theorem test_pixels_t5 :
    [0x008080, 0x108080, 0x808080, 0xC08080, 0xEB8080, 0xFF8080, 0xFF0000, 0x4C54FF, 0x1DFF6B, 0x123456, 0x000000, 0xFFFFFF,
      0x00FF00, 0x0000FF].map pixOf =
    [⟨0, 0, 0⟩, ⟨0, 0, 0⟩, ⟨130, 130, 130⟩, ⟨204, 204, 204⟩, ⟨254, 254, 254⟩, ⟨255, 255, 255⟩, ⟨73, 255, 20⟩,
     ⟨255, 0, 0⟩, ⟨0, 0, 255⟩, ⟨0, 65, 0⟩, ⟨0, 135, 0⟩, ⟨255, 124, 255⟩, ⟨0, 35, 236⟩, ⟨183, 0, 0⟩] := by decide +kernel

/-- T5, the layout with 4 bytes per pixel. -/
theorem test_layout_bpp4 :
    (putPixelChecked { Latched.initial with w := 2, h := 1, bpp := 4 } 1 0 ⟨0x49, 0xFF, 0x14⟩ { draw := 0, cells := [] }).cells
      = [(4, 0x49), (5, 0xFF), (6, 0x14), (7, 0)] := by decide +kernel

/-- T2, step 2. -/
theorem test_scale_t2 :
    [(0, 16), (1, 32), (50, 20), (16, 16), (17, 16), (255, 16), (255, 1), (200, 12)].map (fun e => scaleClamp e.1 e.2) =
      [1, 1, 40, 16, 17, 255, 255, 255] := by decide +kernel

/-- T2, the zig-zag check, rows 0 and 7, sf = 16. -/
theorem test_quant_zigzag :
    ((List.range 8) ++ (List.range 8).map (56 + ·)).map (quantEntry (fun k => BitVec.ofNat 8 (k + 1)) 16) =
      [65536, 181802, 513761, 539435, 983040, 823861, 993099, 524359,
       650928, 927943, 1157596, 1063071, 1048718, 838179, 616490, 319272] := by decide +kernel

/-- T5: the 4:2:0 unit vector on the first pixel of the top-right and of the bottom-left quadrant, (8,0) and (0,8). -/
theorem test_convert420 :
    let scr : Vector Byte 768 := Vector.ofFn fun p =>
      if p.val < 64 then 16 else if p.val < 128 then 128 else if p.val < 192 then 235 else if p.val < 256 then 255 else 128
    let l : Latched := { Latched.initial with w := 9, h := 9, m420 := true }
    let b := [8, 128].foldl (fun b p => pixel420 l scr 0 0 p b) { draw := 0, cells := [] }
    [24, 216].map (Memory.read b.cells) = [some 130, some 254] := by decide +kernel

/-- T6: (1,1) of a 2x2 frame of blocks returns to (0,0). -/
theorem test_scanner_wraps :
    let s := scannerAdvance { running [] 16 16 with sx := 1, sy := 1 }
    (s.sx, s.sy) = (0, 0) := by decide +kernel

/-- T7: DECODE before any RESET. -/
theorem test_decode_without_decoder :
    hostAccess (.writeReg 0x00 2) State.powerOn = .refused .noDecoder := by rfl

/-- V2, after a fault: STATUS reads ERROR and code 2, with no PUB. -/
theorem test_status_after_unk :
    seen (fun t => statusWord t) (step (running [0x30000000] 8 8)) = some 0x00000023 := by decide +kernel

/-- A placed table word is what the next step runs: UNK ends in its error, from reset. -/
theorem test_withFetchWord_unk :
    seen ending (step (State.withFetchWord State.reset 8 0x3)) = some (.error, .unknownBlockTag, 0, 0, 4) := by
  decide +kernel

/-- A placed VQ1 word with zero operands runs and completes, from reset, on a 1x1 frame. -/
theorem test_withFetchWord_vq1 :
    seen ending (step (State.withFetchWord State.reset 8 0x5)) = some (.busy, .none, 0, 0, 7) := by decide +kernel

/-! ### Witnesses: a state and operands that meet each statement's hypotheses -/

theorem witness_DecodeOfEncodeIsTheBlock : Instr.wf shortCoords (.vq4S ⟨255, 1, 0⟩ ⟨0, none⟩ ⟨1, some 7⟩ ⟨2, none⟩ ⟨3, none⟩ 5) = true := by
  decide

theorem witness_EveryFullFetchDecodesToOneBlock : maxBlockBits ≤ (List.replicate 264 true).length := by decide +kernel

theorem witness_IgnoredCoordinateBitsHaveNoEffect :
    (Coord.mk 1 2 0).bx = (Coord.mk 1 2 9).bx ∧ (Coord.mk 1 2 0).byy = (Coord.mk 1 2 9).byy ∧
      Coord.mk 1 2 0 ≠ Coord.mk 1 2 9 := by decide

theorem witness_PayloadWordsAreFormedFromFourBytes :
    step State.reset = .next State.reset ∧ State.reset.params.laneOrder = .big ∧
      ({ State.reset with params := { Params.default with laneOrder := .little } } : State).params.laneOrder = .little :=
  ⟨rfl, rfl, rfl⟩

theorem witness_StreamBitIsThePayloadWordBit :
    0 < 32 * (running [0x53FE0000] 8 8).latched.n ∧ 31 < 32 * (running [0x53FE0000] 8 8).latched.n := by decide

/-- A read that ends exactly at the payload end, one that passes it by a bit, and `Read(0)` at the end. -/
theorem witness_ReadReturnsTheNextBitsAndAdvances :
    let s := running [0x53FE0000] 8 8
    let e := { s with pos := 32 }
    (32 ≤ 32 ∧ s.pos + 32 ≤ 32 * s.latched.n) ∧ (0 ≤ 32 ∧ e.pos + 0 ≤ 32 * e.latched.n) ∧
      (1 ≤ 32 ∧ 32 * e.latched.n < e.pos + 1) := by decide

theorem witness_PeekAfterAdvanceReturnsTheBitsThatRemained :
    let s := running [0x53FE0000] 8 8
    (∃ v t, Machine.read 4 s = .ok (v, t)) ∧ s.pos + 4 + 28 ≤ 32 * s.latched.n :=
  ⟨⟨_, _, read_ok (by decide)⟩, by decide⟩

theorem witness_WindowRealisationReturnsTheStreamBits :
    WindowAgrees (running [0x53FE0000] 8 8) ∧ ∃ v t, Machine.read 32 (running [0x53FE0000] 8 8) = .ok (v, t) := by
  refine ⟨⟨by decide, by decide, by decide +kernel, by decide +kernel, fun k hk => ?_⟩, _, _, read_ok (by decide)⟩
  have : (running [0x53FE0000] 8 8).window.w1 = 0 := by decide +kernel
  rw [this]
  simp

theorem witness_TransformTagsFaultUnsupportedBlockKind :
    Instr.tc1hS ∈ transformTags ∧ (running [0xC0000000] 8 8).pos + 4 ≤ 32 * (running [0xC0000000] 8 8).latched.n := by
  decide

theorem witness_UnknownTagsFaultUnknownBlockTag :
    Instr.unkS ∈ [Instr.unk, .unkS] ∧ (running [0xB0000000] 8 8).pos + 4 ≤ 32 * (running [0xB0000000] 8 8).latched.n := by
  decide

theorem witness_EndTagsFinishTheFrame :
    let s := { running [0x00000009] 8 8 with pos := 28 }
    Instr.endTagS ∈ [Instr.endTag, .endTagS] ∧ s.pos + 4 ≤ 32 * s.latched.n := by decide

theorem witness_CutTagFaultsTruncatedInput :
    let s := { running [0x00000009] 8 8 with pos := 29 }
    32 * s.latched.n < s.pos + 4 := by decide

/-- A VQ1 block that ends exactly at the payload end, and a VQ1.S block. -/
theorem witness_SolidBlocksDrawTheirTile :
    let s := { running [0] 8 8 with pos := 25 }
    let r := { running [0] 8 8 with pos := 1 }
    (s.latched.m420 = false ∧ (s.latched.bpp = 3 ∨ s.latched.bpp = 4) ∧ s.work = some ⟨0, []⟩ ∧
      s.pos + vqBits s.params none [⟨0, none⟩] 0 ≤ 32 * s.latched.n) ∧
    (r.latched.m420 = false ∧ (r.latched.bpp = 3 ∨ r.latched.bpp = 4) ∧ r.work = some ⟨0, []⟩ ∧
      r.pos + vqBits r.params (some ⟨1, 1, 0⟩) [⟨0, none⟩] 0 ≤ 32 * r.latched.n) := by decide

theorem witness_OneBitBlocksDrawTheirTile :
    let s := { running [0, 0, 0] 8 8 with pos := 22 }
    let r := { running [0, 0, 0, 0] 8 8 with pos := 30 }
    (s.latched.m420 = false ∧ (s.latched.bpp = 3 ∨ s.latched.bpp = 4) ∧ s.work = some ⟨0, []⟩ ∧
      s.pos + vqBits s.params none [⟨0, none⟩, ⟨0, none⟩] 1 ≤ 32 * s.latched.n) ∧
    (r.latched.m420 = false ∧ (r.latched.bpp = 3 ∨ r.latched.bpp = 4) ∧ r.work = some ⟨0, []⟩ ∧
      r.pos + vqBits r.params (some ⟨1, 1, 0⟩) [⟨0, none⟩, ⟨0, none⟩] 1 ≤ 32 * r.latched.n) := by decide

theorem witness_TwoBitBlocksDrawTheirTile :
    let s := { running [0, 0, 0, 0, 0] 8 8 with pos := 16 }
    let r := { running [0, 0, 0, 0, 0, 0, 0, 0, 0] 8 8 with pos := 24 }
    (s.latched.m420 = false ∧ (s.latched.bpp = 3 ∨ s.latched.bpp = 4) ∧ s.work = some ⟨0, []⟩ ∧
      s.pos + vqBits s.params none [⟨0, none⟩, ⟨1, none⟩, ⟨2, none⟩, ⟨3, none⟩] 2 ≤ 32 * s.latched.n) ∧
    (r.latched.m420 = false ∧ (r.latched.bpp = 3 ∨ r.latched.bpp = 4) ∧ r.work = some ⟨0, []⟩ ∧
      r.pos + vqBits r.params (some ⟨1, 1, 0⟩) [⟨0, some 1⟩, ⟨1, some 2⟩, ⟨2, some 3⟩, ⟨3, some 4⟩] 2 ≤ 32 * r.latched.n) := by
  decide

theorem witness_VqTagsFaultIn420Mode :
    let s := { running [0x50000000] 16 16 with latched := { Latched.initial with w := 16, h := 16, n := 1, m420 := true } }
    (vqOperands (.vq1 ⟨0, none⟩)).isSome = true ∧ s.latched.m420 = true ∧ s.pos + 4 ≤ 32 * s.latched.n := by decide

/-- One bit short of the block that fits exactly. -/
theorem witness_CutVqBlocksFaultTruncatedInput :
    let s := { running [0] 8 8 with pos := 26 }
    vqOperands (.vq1 ⟨0, none⟩) = some (none, [⟨0, none⟩], 0) ∧ s.latched.m420 = false ∧ s.pos ≤ 32 * s.latched.n ∧
      32 * s.latched.n < s.pos + vqBits s.params none [⟨0, none⟩] 0 := by decide

theorem witness_EveryBlockTakesAStepWithinItsFrame :
    let s := { running [0] 8 8 with pos := 32 }
    s.pos ≤ 32 * s.latched.n := by decide

theorem witness_FaultedBlocksPublishNothing :
    let s := running [0x30000000] 8 8
    s.phase = .busy ∧ s.pos ≤ 32 * s.latched.n ∧ ∃ t, exec .unk s = .next t ∧ t.phase = .error :=
  ⟨rfl, by decide, _, rfl, by decide +kernel⟩

theorem witness_RangeLimitTableHoldsItsRanges :
    255 < 256 ∧ (256 ≤ 256 ∧ 511 < 512) ∧ (512 ≤ 512 ∧ 895 < 896) ∧ (896 ≤ 896 ∧ 1279 < 1280) ∧
      (1280 ≤ 1280 ∧ 1407 < 1408) := by decide

theorem witness_LimitIsTheClamp : ((-277 : Int) ≤ -277 ∧ (-277 : Int) ≤ 639) ∧ ((-277 : Int) ≤ 639 ∧ (639 : Int) ≤ 639) := by
  decide

theorem witness_Convert420DrawsTheMacroblock :
    (running [] 16 16).latched.bpp = 3 ∧ (running [] 16 16).work = some ⟨0, []⟩ ∧ (0 < 16 ∧ 15 < 16 ∧ 2 < 3) := by decide

theorem witness_QuantEntryIsTheScaledBaseEntry : 63 < 64 ∧ 1 ≤ 1 := by decide

theorem witness_QuantEntriesLieInTheirRange : (1 ≤ 1 ∧ 63 < 64) ∧ (1 ≤ 255 ∧ 255 ≤ 255 ∧ 7 < 8) := by decide

theorem witness_ScannerWalksTheFrameInRasterOrder :
    let s := running [] 24 16
    1 ≤ s.latched.bpr ∧ s.sy < s.latched.bpc ∧ s.sx = 0 ∧ s.sy = 0 ∧ 2 < s.latched.bpr := by decide

/-- The same fetch under each of the host's three next actions. -/
theorem witness_StepRunsTheDecodedBlock :
    let s := running [0x30000000] 8 8
    s.phase = .busy ∧ s.pos < 32 * s.latched.n ∧ (∃ rest, decode s.params (fetchBits s) = .ok (.unk, rest)) ∧
      s.host = [] ∧ ({ s with host := [.pause] } : State).host = .pause :: [] ∧
      ({ s with host := [.awaitIdle] } : State).host = .awaitIdle :: [] :=
  ⟨rfl, by decide, ⟨(fetchBits (running [0x30000000] 8 8)).drop 4, by decide +kernel⟩, rfl, rfl, rfl⟩

theorem witness_StepRunsTheEncodedBlock :
    let s := running [0x30000000] 8 8
    s.phase = .busy ∧ s.pos < 32 * s.latched.n ∧ s.host = [] ∧ Instr.wf s.params .unk = true ∧
      (List.range 4).map (fun k => streamBit s (s.pos + k)) = encode s.params .unk :=
  ⟨rfl, by decide, rfl, rfl, by decide +kernel⟩

theorem witness_PayloadBoundFinishesTheFrame :
    let s := { running [0] 8 8 with pos := 32 }
    s.phase = .busy ∧ s.host = [] ∧ 32 * s.latched.n ≤ s.pos ∧
      ({ s with host := [.pause] } : State).host = .pause :: [] ∧
      ({ s with host := [.awaitIdle] } : State).host = .awaitIdle :: [] := by decide

/-- A running DECODE in a state that meets the invariant. -/
theorem running_inv : State.Inv (running [0x53FE0000] 8 8) := by
  refine ⟨by decide, fun p h => by (cases h), fun _ => ?_, fun h => absurd rfl h, fun h => by (cases h), fun h => by (cases h),
    fun h => by (cases h), by decide⟩
  exact ⟨by decide, by decide, by decide, by decide, by decide, by decide, ⟨_, rfl, rfl, rfl⟩,
    witness_WindowRealisationReturnsTheStreamBits.1, by unfold QuantInRange; decide +kernel⟩

theorem witness_EveryDecodeEndsWithinItsBound :
    State.Inv (running [0x53FE0000] 8 8) ∧ (running [0x53FE0000] 8 8).phase = .busy ∧ (running [0x53FE0000] 8 8).host = [] :=
  ⟨running_inv, rfl, rfl⟩

/-- A state whose host is about to write `v` to CMD, its five registers describing a `w` x `h` frame. -/
def commanding (v w h : Word) : State :=
  { State.reset with
    host := [.access (.writeReg 0x00 v)]
    desc := { Descriptors.unwritten with
      width := some w, height := some h, compSize := some 8, mode := some 0, config := some 0 } }

theorem witness_ResetCommandCreatesADecoder :
    (commanding 1 8 8).phase ≠ .busy ∧ (commanding 1 8 8).host = .access (.writeReg 0x00 1) :: [] := by decide

theorem witness_DestroyDiscardsTheDecoder :
    ((commanding 3 8 8).phase = .ready ∧ (commanding 3 8 8).host = .access (.writeReg 0x00 3) :: []) ∧
      ({ commanding 3 8 8 with phase := .error } : State).phase = .error := by decide

/-- Frames at both bounds of the size; without a PUB, with one of the same geometry, and with another one. -/
theorem witness_DecodeSetsUpTheFrame :
    let s := commanding 2 1 4096
    let p : Published := { buf := ⟨5, []⟩, w := 1, h := 4096, bpp := 3 }
    (s.phase = .ready ∧ s.host = .access (.writeReg 0x00 2) :: [] ∧ Described 1 4096 8 0 0 s ∧
      1 ≤ (1 : Word).toNat ∧ 1 ≤ (4096 : Word).toNat ∧ (1 : Word).toNat ≤ s.params.maxDim ∧
      (4096 : Word).toNat ≤ s.params.maxDim) ∧
    (p.w = (1 : Word).toNat ∧ p.h = (4096 : Word).toNat ∧ p.bpp = (if (0 : Word).getLsbD 0 then 4 else 3)) ∧ s.pub = none ∧
    ¬ ({ p with bpp := 4 } : Published).bpp = (if (0 : Word).getLsbD 0 then 4 else 3) :=
  ⟨⟨rfl, rfl, ⟨rfl, rfl, rfl, rfl, rfl⟩, by decide, by decide, by decide, by decide⟩, by decide, rfl, by decide⟩

theorem witness_InconsistentHeaderEndsTheDecode :
    let s := commanding 2 0 8
    let r := commanding 2 8 4097
    (s.phase = .ready ∧ s.host = .access (.writeReg 0x00 2) :: [] ∧ Described 0 8 8 0 0 s ∧ (0 : Word).toNat = 0) ∧
    (r.phase = .ready ∧ r.host = .access (.writeReg 0x00 2) :: [] ∧ Described 8 4097 8 0 0 r ∧
      r.params.maxDim < (4097 : Word).toNat) :=
  ⟨⟨rfl, rfl, ⟨rfl, rfl, rfl, rfl, rfl⟩, rfl⟩, rfl, rfl, ⟨rfl, rfl, rfl, rfl, rfl⟩, by decide⟩

theorem witness_CommandsAreRefusedByTheAcceptanceTable :
    State.powerOn.phase = .uninit ∧ (State.reset.phase ≠ .busy ∧ State.reset.phase ≠ .uninit ∧ State.reset.desc.config = none) ∧
      ((0 : Word) ≠ 1 ∧ (0 : Word) ≠ 2 ∧ (0 : Word) ≠ 3) ∧ ((4 : Word) ≠ 1 ∧ (4 : Word) ≠ 2 ∧ (4 : Word) ≠ 3) := by decide

theorem witness_BusyRefusesAllButStatusReads :
    (running [0] 8 8).phase = .busy ∧ HostAccess.readReg 0x08 ≠ .readReg 0x04 ∧ HostAccess.writeReg 0x00 1 ≠ .readReg 0x04 ∧
      ((0 : Word) ≠ 1 ∧ (0 : Word) ≠ 2 ∧ (0 : Word) ≠ 3) := by decide

theorem witness_StatusWordFieldsAreTheFlags : (statusWord (running [0] 8 8)).getLsbD 10 = false ∧ 10 ≤ 10 := by decide +kernel

theorem witness_DescriptorRegistersHoldWhatIsWritten :
    State.reset.phase ≠ .busy ∧ State.reset.desc.get .frameSize = none ∧ State.reset.desc.get .width = none ∧
      (Desc.width, 0x14) ∈ descriptorMap ∧ (Desc.frameSize, 0x58) ∈ descriptorMap ∧
      (0x5C ∉ [0x00, 0x04, 0x08, 0x0C, 0x10] ∧ 0x5C ∉ descriptorMap.map Prod.snd) ∧
      (0x15 ∉ [0x00, 0x04, 0x08, 0x0C, 0x10] ∧ 0x15 ∉ descriptorMap.map Prod.snd) := by decide

theorem witness_ErrorRegistersAreReadOnly :
    State.reset.phase ≠ .busy ∧ (0x04 = 0x04 ∨ 0x04 = 0x08 ∨ 0x04 = 0x0C ∨ 0x04 = 0x10) := by decide

theorem witness_PublishedBytesAreReadWithinTheirBounds :
    let p : Published := { buf := ⟨0, []⟩, w := 2, h := 1, bpp := 3 }
    let s := { State.reset with pub := some p }
    s.phase ≠ .busy ∧ State.reset.pub = none ∧ s.pub = some p ∧ 5 < p.w * p.h * p.bpp ∧ p.w * p.h * p.bpp ≤ 6 := by decide

theorem witness_PayloadWritesChangeOneByte : State.reset.phase ≠ .busy ∧ 1 ≠ (0 : Word).toNat := by decide

theorem witness_HostAccessesLeaveTheCoreAlone :
    (∀ v, HostAccess.writeReg 0x14 8 ≠ .writeReg 0x00 v) ∧ ∃ t, hostAccess (.writeReg 0x14 8) State.reset = .next t :=
  ⟨fun v h => by (injection h with h _; cases h), _, rfl⟩

/-- A VQ1 block with an update, and a RESET, change PAL. -/
theorem witness_PaletteChangesOnlyBySlotsResetAndDestroy :
    (∃ t, step (running [0x53FE0000] 1 1) = .next t ∧ t.pal ≠ (running [0x53FE0000] 1 1).pal) ∧
    (∃ t, step { commanding 1 8 8 with pal := Vector.replicate 4 7 } = .next t ∧ t.pal ≠ Vector.replicate 4 7) := by
  refine ⟨?_, ⟨_, rfl, by decide⟩⟩
  obtain ⟨t, ht⟩ := coreStep_next (running [0x53FE0000] 1 1)
  have hs : step (running [0x53FE0000] 1 1) = .next t := ht
  refine ⟨t, hs, fun h => ?_⟩
  have e : seen (fun t => t.pal[0]) (step (running [0x53FE0000] 1 1)) = some 0xFF0000 := by decide +kernel
  rw [hs] at e
  simp only [seen, Option.some.injEq] at e
  rw [h] at e
  revert e
  decide +kernel

/-- A frame that ends replaces PUB. -/
theorem witness_PublishedBufferIsReplacedWholeOrDiscarded :
    let s := { running [0] 8 8 with pos := 32 }
    step s = .next (endSuccess .payloadBound s) ∧ (endSuccess .payloadBound s).pub ≠ s.pub :=
  ⟨rfl, by decide⟩

theorem witness_StateChangesFollowTheStatusTable :
    let s := { running [0] 8 8 with pos := 32 }
    step s = .next (endSuccess .payloadBound s) ∧ (endSuccess .payloadBound s).phase ≠ s.phase :=
  ⟨rfl, by decide⟩

theorem witness_EveryStepKeepsTheInvariant :
    State.Inv (running [0x53FE0000] 8 8) ∧ ∃ t, step (running [0x53FE0000] 8 8) = .next t := by
  obtain ⟨t, ht⟩ := coreStep_next (running [0x53FE0000] 8 8)
  exact ⟨running_inv, t, ht⟩

theorem witness_TheCoreNeverStops : ∀ a rest, (running [0] 8 8).host ≠ .access a :: rest := fun _ _ h => by (cases h)

theorem witness_StepMakesTheHostsAccess :
    (commanding 2 8 8).host = .access (.writeReg 0x00 2) :: [] ∧
      ({ running [0] 8 8 with host := [.access (.readReg 0x04)] } : State).host = .access (.readReg 0x04) :: [] := ⟨rfl, rfl⟩

theorem witness_IdleCoreRetainsAllState :
    let e := { State.reset with phase := .error, host := [.awaitIdle] }
    (State.reset.phase ≠ .busy ∧ State.reset.host = []) ∧ (State.powerOn.phase ≠ .busy ∧ State.powerOn.host = []) ∧
      (e.phase ≠ .busy ∧ e.host = .awaitIdle :: []) ∧
      ({ e with host := [.pause] } : State).host = .pause :: [] := by decide

end Sys2Proof.Tests
end

section
/-!
PROOFS. The family of spec 30_encoding.md: the decoder on a full fetch (O3).
-/

namespace Sys2Proof

/-- A sequence that begins with a block's tag and goes on with its operands is the block's encoding and what follows
(R80): the tag may be known by its number alone, which is how `decode` tells the tags apart. -/
theorem eq_encode_append {p : Params} {i : Instr} {tag : BitVec 4} {bs ops rest : List Bool}
    (ht : tag.toNat = (tagOf i).toNat) (hb : bs = bitsOf tag ++ ops) (ho : ops = encodeOperands p i ++ rest) :
    bs = encode p i ++ rest := by
  rw [hb, ho, BitVec.eq_of_toNat_eq ht, encode, List.append_assoc]

/-- The first four bits of an encoded block are its tag (R81). -/
theorem take_encode_append (p : Params) (i : Instr) (rest : List Bool) :
    (encode p i ++ rest).take 4 = bitsOf (tagOf i) := by
  rw [encode, List.append_assoc, List.take_left' (length_bitsOf _)]

/-- On a sequence long enough for the longest block (R87) every value of the tag decodes (R91), to a well-formed block
that is encoded by the bits consumed. One case per row of the opcode table. -/
theorem decode_total_wf_encode (p : Params) (bs : List Bool) (h : maxBlockBits ≤ bs.length) :
    ∃ i rest, decode p bs = .ok (i, rest) ∧ i.wf p = true ∧ bs = encode p i ++ rest := by
  unfold maxBlockBits at h
  obtain ⟨tag, r, e, b, l⟩ := takeField_total (n := 4) (e := .cutTag) (bs := bs) (by omega)
  obtain ⟨x, rx, ex, wx, bx, lx⟩ := decodeCoord_total p r (by omega)
  simp only [decode, decodeVq1, e, ex, bind, Except.bind, pure, Except.pure]
  split
  case h_1 ht => exact ⟨.tc1, r, rfl, rfl, eq_encode_append ht b rfl⟩
  case h_2 ht => exact ⟨.endTag, r, rfl, rfl, eq_encode_append ht b rfl⟩
  case h_3 ht => exact ⟨.tc2, r, rfl, rfl, eq_encode_append ht b rfl⟩
  case h_4 ht => exact ⟨.unk, r, rfl, rfl, eq_encode_append ht b rfl⟩
  case h_5 ht => exact ⟨.tc1h, r, rfl, rfl, eq_encode_append ht b rfl⟩
  case h_6 ht =>
    obtain ⟨s, rest, es, bs', -⟩ := decodeSlot_total p r (by omega)
    exact ⟨.vq1 s, rest, by rw [es], rfl, eq_encode_append ht b bs'⟩
  case h_7 ht =>
    obtain ⟨s0, s1, m, rest, es, bs'⟩ := decodeVq2_total p r (by omega)
    exact ⟨.vq2 s0 s1 m, rest, by rw [es], rfl, eq_encode_append ht b bs'⟩
  case h_8 ht =>
    obtain ⟨s0, s1, s2, s3, m, rest, es, bs'⟩ := decodeVq4_total p r (by omega)
    exact ⟨.vq4 s0 s1 s2 s3 m, rest, by rw [es], rfl, eq_encode_append ht b bs'⟩
  case h_9 ht => exact ⟨.tc1S, r, rfl, rfl, eq_encode_append ht b rfl⟩
  case h_10 ht => exact ⟨.endTagS, r, rfl, rfl, eq_encode_append ht b rfl⟩
  case h_11 ht => exact ⟨.tc2S, r, rfl, rfl, eq_encode_append ht b rfl⟩
  case h_12 ht => exact ⟨.unkS, r, rfl, rfl, eq_encode_append ht b rfl⟩
  case h_13 ht => exact ⟨.tc1hS, r, rfl, rfl, eq_encode_append ht b rfl⟩
  case h_14 ht =>
    obtain ⟨s, rest, es, bs', -⟩ := decodeSlot_total p rx (by omega)
    exact ⟨.vq1S x s, rest, by rw [es], wx, eq_encode_append ht b (by simp [encodeOperands, bx, bs'])⟩
  case h_15 ht =>
    obtain ⟨s0, s1, m, rest, es, bs'⟩ := decodeVq2_total p rx (by omega)
    exact ⟨.vq2S x s0 s1 m, rest, by rw [es], wx, eq_encode_append ht b (by simp [encodeOperands, bx, bs'])⟩
  case h_16 =>
    have ht : tag.toNat = 15 := by
      have := tag.isLt
      simp only [imp_false] at *
      omega
    obtain ⟨s0, s1, s2, s3, m, rest, es, bs'⟩ := decodeVq4_total p rx (by omega)
    exact ⟨.vq4S x s0 s1 s2 s3 m, rest, by rw [es], wx, eq_encode_append ht b (by simp [encodeOperands, bx, bs'])⟩

/-- Settles O3: every tag decodes on a full fetch, and the first four bits of the block's encoding are its tag. -/
theorem everyFullFetchDecodesToOneBlock : Obligations.EveryFullFetchDecodesToOneBlock := by
  intro p bs h
  obtain ⟨i, rest, hd, hw, rfl⟩ := decode_total_wf_encode p bs h
  exact ⟨i, rest, hd, hw, (take_encode_append p i rest).symm, rfl⟩

end Sys2Proof
end

section
/-!
PROOFS. The family of spec 41_bitcursor.md: the stream as the payload words' bits (O7), a peek after an advance (O9).
-/

namespace Sys2Proof.Machine

/-- Within the payload no word is absent (R108). -/
theorem wordOrZero_of_lt {s : State} {i : Nat} (h : i < s.latched.n) : wordOrZero s i = payloadWord s i := if_pos h

/-- All that an answered read says (R103): the field was within the payload, the value is the field, and the cursor moved
past it. -/
theorem read_eq_ok_iff {n : Nat} {s t : State} {v : BitVec n} :
    read n s = .ok (v, t) ↔ s.pos + n ≤ s.latched.bitEnd ∧ v = streamField s s.pos n ∧ t = advanceCursor n s := by
  rcases Nat.lt_or_ge s.latched.bitEnd (s.pos + n) with hcut | hfits
  · simp [read_cut hcut, Nat.not_le.mpr hcut]
  · simp [read_ok hfits, hfits, eq_comm]

end Sys2Proof.Machine

namespace Sys2Proof

open Machine

/-- Settles O7: the word of a bit below `32*N` is there, and its bits are numbered from the most significant one. -/
theorem streamBitIsThePayloadWordBit : Obligations.StreamBitIsThePayloadWordBit := by
  intro s j hj
  have hword : j / 32 < s.latched.n := Nat.div_lt_of_lt_mul hj
  have hbit : j % 32 < 32 := Nat.mod_lt _ (by decide)
  rw [streamBit, wordOrZero_of_lt hword, BitVec.getMsbD_eq_getLsbD, decide_eq_true hbit, Bool.true_and]

/-- Settles O9: an answered read leaves the stream as it was and the cursor at `p + n`, where the peek's field begins. -/
theorem peekAfterAdvanceReturnsTheBitsThatRemained : Obligations.PeekAfterAdvanceReturnsTheBitsThatRemained := by
  intro n m s t v hread hbound
  obtain ⟨-, -, rfl⟩ := read_eq_ok_iff.mp hread
  have hfits : (advanceCursor n s).pos + m ≤ (advanceCursor n s).latched.bitEnd := hbound
  refine ⟨_, peek_ok hfits, fun k hk => ?_⟩
  rw [getMsbD_streamField _ _ _ _ hk, streamBit_advanceCursor, advanceCursor_pos]

end Sys2Proof
end

section
/-!
PROOFS. The family of spec 46_scanner.md: a row of advances, and the frame as BPC rows (O33).
-/

namespace Sys2Proof.Machine

/-- R221 before the last column. -/
theorem scannerAdvance_within_row {s : State} (h : s.sx + 1 ≠ s.latched.bpr) :
    scannerAdvance s = { s with sx := s.sx + 1 } := if_neg h

/-- R221 at the last column. -/
theorem scannerAdvance_row_end {s : State} (h : s.sx + 1 = s.latched.bpr) :
    scannerAdvance s = { s with sx := 0, sy := if s.sy + 1 = s.latched.bpc then 0 else s.sy + 1 } := if_pos h

/-- Inside a row each advance moves one column on. -/
theorem scannerAdvance_iterate_within_row {s : State} (hx : s.sx = 0) (k : Nat) (hk : k < s.latched.bpr) :
    scannerAdvance^[k] s = { s with sx := k } := by
  induction k with
  | zero => rw [Function.iterate_zero_apply, ← hx]
  | succ k ih =>
    rw [Function.iterate_succ_apply', ih (by omega)]
    exact scannerAdvance_within_row hk.ne

/-- A row's worth of advances: to the start of the next row, or of row 0 after the last. -/
theorem scannerAdvance_iterate_row {s : State} (hx : s.sx = 0) (hbpr : 1 ≤ s.latched.bpr) :
    scannerAdvance^[s.latched.bpr] s = { s with sx := 0, sy := if s.sy + 1 = s.latched.bpc then 0 else s.sy + 1 } := by
  obtain ⟨k, hk⟩ := Nat.exists_eq_add_of_le' hbpr
  rw [hk, Function.iterate_succ_apply', scannerAdvance_iterate_within_row hx k (by omega)]
  exact scannerAdvance_row_end hk.symm

/-- From row 0, rows of advances step through the rows, until the last one is reached. -/
theorem scannerAdvance_iterate_rows {s : State} (hx : s.sx = 0) (hy : s.sy = 0) (hbpr : 1 ≤ s.latched.bpr) (r : Nat)
    (hr : r < s.latched.bpc) : (scannerAdvance^[s.latched.bpr])^[r] s = { s with sy := r } := by
  induction r with
  | zero => rw [Function.iterate_zero_apply, ← hy]
  | succ r ih =>
    rw [Function.iterate_succ_apply', ih (by omega)]
    refine (scannerAdvance_iterate_row (s := { s with sy := r }) hx hbpr).trans ?_
    simp only [if_neg hr.ne, ← hx]

/-- From (0, 0), as many advances as the frame has blocks give the state back. -/
theorem scannerAdvance_iterate_frame {s : State} (hx : s.sx = 0) (hy : s.sy = 0) (hbpr : 1 ≤ s.latched.bpr)
    (hbpc : 1 ≤ s.latched.bpc) : scannerAdvance^[s.latched.bpr * s.latched.bpc] s = s := by
  obtain ⟨r, hr⟩ := Nat.exists_eq_add_of_le' hbpc
  rw [Function.iterate_mul, hr, Function.iterate_succ_apply', scannerAdvance_iterate_rows hx hy hbpr r (by omega)]
  refine (scannerAdvance_iterate_row (s := { s with sy := r }) hx hbpr).trans ?_
  rw [if_pos hr.symm]
  exact congrArg₂ (fun x y => { s with sx := x, sy := y }) hx.symm hy.symm

end Sys2Proof.Machine

namespace Sys2Proof

open Machine

/-- Settles O33: along a row by induction on the column, then over the rows by induction on the row. -/
theorem scannerWalksTheFrameInRasterOrder : Obligations.ScannerWalksTheFrameInRasterOrder := by
  intro s hbpr hsy hx
  exact ⟨scannerAdvance_iterate_within_row hx, scannerAdvance_iterate_row hx hbpr,
    fun hy => scannerAdvance_iterate_frame hx hy hbpr (by omega)⟩

end Sys2Proof
end

section
/-!
PROOFS. The family of spec 47_frame_loop.md: a size rounded up to a positive multiple, and the padded frame (O32).
-/

namespace Sys2Proof.Machine

/-- `ceil` of R26 is Mathlib's rounded-up division, which brings the lower bound. -/
theorem le_mul_ceilDiv {b : Nat} (hb : 0 < b) (a : Nat) : a ≤ b * ceilDiv a b := le_smul_ceilDiv hb

/-- Rounding up adds less than one unit. -/
theorem mul_ceilDiv_lt {b : Nat} (hb : 0 < b) (a : Nat) : b * ceilDiv a b < a + b :=
  calc b * ((a + b - 1) / b) ≤ a + b - 1 := Nat.mul_div_le _ _
    _ < a + b := by omega

/-- `b * ceil(a / b)` is the whole number of units of size `b` that first reaches `a`: R236 on one axis. -/
theorem mul_ceilDiv_rounds_up {b : Nat} (hb : 0 < b) (a : Nat) :
    a ≤ b * ceilDiv a b ∧ b * ceilDiv a b < a + b ∧ b * ceilDiv a b = b * ceilDiv a b / b * b :=
  ⟨le_mul_ceilDiv hb a, mul_ceilDiv_lt hb a, (Nat.div_mul_cancel (Nat.dvd_mul_right _ _)).symm⟩

theorem blockSize_pos (l : Latched) : 0 < l.blockSize := by
  unfold Latched.blockSize
  split <;> decide

end Sys2Proof.Machine

namespace Sys2Proof

open Machine

/-- Settles O32: the width and the height are each rounded up to the block size, which is positive in both modes. -/
theorem paddedSizeIsRoundedUpToTheBlockSize : Obligations.PaddedSizeIsRoundedUpToTheBlockSize := fun l =>
  ⟨rfl, mul_ceilDiv_rounds_up (blockSize_pos l) l.w, mul_ceilDiv_rounds_up (blockSize_pos l) l.h⟩

end Sys2Proof
end

section
/-!
PROOFS. The family of spec 30_encoding.md: decoding what was encoded (O2), the spec's own words (O1), the lengths of the
blocks (O4) and the ignored coordinate bits (O5).
-/

namespace Sys2Proof

open Machine Claims

/-! ### Decoding the encoding -/

theorem decodeVq2_encodeSlots (p : Params) (a b : Slot) (m : BitVec 64) (rest : List Bool) :
    decodeVq2 p (encodeSlot p a ++ (encodeSlot p b ++ (bitsOf m ++ rest))) = .ok ((a, b, m), rest) := by
  simp [decodeVq2, decodeSlot_encodeSlot, bind, Except.bind, pure, Except.pure]

theorem decodeVq4_encodeSlots (p : Params) (a b c d : Slot) (m : BitVec 128) (rest : List Bool) :
    decodeVq4 p (encodeSlot p a ++ (encodeSlot p b ++ (encodeSlot p c ++ (encodeSlot p d ++ (bitsOf m ++ rest))))) =
      .ok ((a, b, c, d, m), rest) := by
  simp [decodeVq4, decodeSlot_encodeSlot, bind, Except.bind, pure, Except.pure]

/-- R80 to R88: the tag selects the row of the table, and each operand's reader inverts its writer. -/
theorem decode_encode (p : Params) (i : Instr) (rest : List Bool) (h : i.wf p = true) :
    decode p (encode p i ++ rest) = .ok (i, rest) := by
  rw [encode, List.append_assoc, decode, takeField_bitsOf]
  cases i with
  | tc1 | endTag | tc2 | unk | tc1h | tc1S | endTagS | tc2S | unkS | tc1hS => rfl
  | vq1 a =>
    simp [tagOf, encodeOperands, decodeVq1, decodeSlot_encodeSlot, bind, Except.bind, pure, Except.pure]
  | vq2 a b m =>
    simp [tagOf, encodeOperands, decodeVq2_encodeSlots, bind, Except.bind, pure, Except.pure]
  | vq4 a b c d m =>
    simp [tagOf, encodeOperands, decodeVq4_encodeSlots, bind, Except.bind, pure, Except.pure]
  | vq1S x a =>
    simp [tagOf, encodeOperands, decodeCoord_encodeCoord p x h, decodeVq1, decodeSlot_encodeSlot, bind, Except.bind,
      pure, Except.pure]
  | vq2S x a b m =>
    simp [tagOf, encodeOperands, decodeCoord_encodeCoord p x h, decodeVq2_encodeSlots, bind, Except.bind, pure,
      Except.pure]
  | vq4S x a b c d m =>
    simp [tagOf, encodeOperands, decodeCoord_encodeCoord p x h, decodeVq4_encodeSlots, bind, Except.bind, pure,
      Except.pure]

/-- Settles O2: the tag selects the row, and each operand's reader inverts its writer. -/
theorem decodeOfEncodeIsTheBlock : Obligations.DecodeOfEncodeIsTheBlock := decode_encode

/-! ### The spec's own words -/

/-- Settles O1: the streams are the blocks' encodings, which decoding inverts; the table's words are decoded one by
one. -/
theorem specWordsDecodeToTheirBlocks : Obligations.SpecWordsDecodeToTheirBlocks := by
  have v1 : bitsOf 0x53FE0000#32 ++ bitsOf 0x20000000#32 = encode Params.default (.vq1 ⟨0, some 0xFF0000⟩) ++
      (encode Params.default .endTag ++ List.replicate 29 false) := by decide +kernel
  have t4 : bitsOf 0xD0100004#32 ++ bitsOf 0xB0400000#32 = encode Params.default (.vq1S ⟨1, 0, 0⟩ ⟨1, none⟩) ++
      (encode Params.default (.vq1 ⟨2, none⟩) ++ (bitsOf 0xB0400000#32).drop 6) := by decide +kernel
  refine ⟨⟨_, v1 ▸ decode_encode _ _ _ rfl, _, decode_encode _ _ _ rfl⟩,
    ⟨_, t4 ▸ decode_encode _ _ _ rfl, _, decode_encode _ _ _ rfl⟩, ?_⟩
  decide +kernel

/-! ### Lengths -/

theorem length_encodeSlot_slotBits (p : Params) (sl : Slot) : (encodeSlot p sl).length = slotBits sl :=
  length_encodeSlot p sl

theorem coordWidth_eq_coordBits (p : Params) (c : Coord) : coordWidth p = coordBits p (some c) := by
  unfold coordWidth coordBits
  cases p.coordBits <;> rfl

theorem length_encodeCoord_coordBits (p : Params) (c : Coord) : (encodeCoord p c).length = coordBits p (some c) := by
  rw [length_encodeCoord, coordWidth_eq_coordBits p c]

/-- R87: the tag alone, or the sum of a VQ block's fields. -/
theorem length_encode (p : Params) (i : Instr) :
    (encode p i).length = ((vqOperands i).map fun o => vqBits p o.1 o.2.1 o.2.2).getD 4 := by
  cases i <;>
    simp [encode, encodeOperands, vqOperands, vqBits, length_encodeSlot_slotBits, length_encodeCoord_coordBits,
      coordBits, Nat.add_assoc]

theorem slotBits_le (sl : Slot) : slotBits sl ≤ 27 := by
  unfold slotBits
  split <;> omega

theorem three_le_slotBits (sl : Slot) : 3 ≤ slotBits sl := by
  unfold slotBits
  split <;> omega

theorem coordBits_le (p : Params) (at? : Option Coord) : coordBits p at? ≤ 24 := by
  unfold coordBits
  split <;> omega

/-- R87: a VQ block has at most four slots, and its bitmap at most 2 bits per position. -/
theorem vqBits_le_maxBlockBits (p : Params) {i : Instr} {at? : Option Coord} {slots : List Slot} {bits : Nat}
    (h : vqOperands i = some (at?, slots, bits)) : vqBits p at? slots bits ≤ maxBlockBits := by
  have hc := coordBits_le p at?
  have hs : ∀ l : List Slot, (l.map slotBits).sum ≤ 27 * l.length := fun l => by
    simpa [Nat.mul_comm] using List.sum_le_card_nsmul (l.map slotBits) 27 (by simpa using fun sl _ => slotBits_le sl)
  have hl : 27 * slots.length + 64 * bits ≤ 236 := by
    cases i <;> cases h <;> simp
  have := hs slots
  unfold vqBits maxBlockBits
  omega

/-- Settles O4: the lengths are the sums of the fields, each within its bound. -/
theorem blockLengthsAreTheTables : Obligations.BlockLengthsAreTheTables := by
  intro p i
  rw [length_encode]
  cases h : vqOperands i with
  | none => simp [maxBlockBits]
  | some o =>
    refine ⟨rfl, ?_, vqBits_le_maxBlockBits p h⟩
    simp [vqBits, Nat.add_assoc]

/-! ### The ignored coordinate bits -/

/-- A block's coordinates enter only as the place it is converted at. -/
theorem vqBlock_coord_congr {c d : Coord} (hx : c.bx = d.bx) (hy : c.byy = d.byy) (slots : List Slot)
    (fill : State → Micro) (s : State) : vqBlock (some c) slots fill s = vqBlock (some d) slots fill s := by
  have hat : ∀ u, blockAt (some c) u = blockAt (some d) u := fun u => by simp only [blockAt, hx, hy]
  simp only [vqBlock, readCoords, hat]

/-- Settles O5: no VQ block with coordinates reads more of them than the place. -/
theorem ignoredCoordinateBitsHaveNoEffect : Obligations.IgnoredCoordinateBitsHaveNoEffect := by
  intro c d s0 s1 s2 s3 m2 m4 s hx hy
  simp only [exec, execVq1S, execVq2S, execVq4S, vqBlock_coord_congr hx hy, and_self]

end Sys2Proof
end

section
/-!
PROOFS. The family of spec 41_bitcursor.md, continued: a read and its fault (O8), the payload words as numbers (O6, with
the parameters' part in the family of the steps), the window realisation (O10).
-/

namespace Sys2Proof.Machine

open Claims

/-! ### Reads -/

/-- Every error but the header's is recorded where it was raised (R242). -/
theorem takeFault_eq_faulted {code : ErrCode} (h : code ≠ .headerInconsistent) (p : Nat) (s : State) :
    takeFault code p s = faulted code p s := by
  simp only [takeFault, faulted, if_neg h]

end Sys2Proof.Machine

namespace Sys2Proof

open Machine Claims

/-- Settles O8: the read's two cases, on the two sides of the payload end. -/
theorem readReturnsTheNextBitsAndAdvances : Obligations.ReadReturnsTheNextBitsAndAdvances := by
  intro n s _
  refine ⟨fun hfits => ?_, fun hcut => ?_⟩
  · exact ⟨_, _, read_ok hfits, peek_ok hfits, fun k hk => getMsbD_streamField s s.pos n k hk, rfl, readField_ok hfits⟩
  · exact ⟨read_cut hcut, peek_cut hcut, by rw [readField_cut hcut, takeFault_eq_faulted (by decide)]⟩

end Sys2Proof

namespace Sys2Proof.Machine

/-! ### Words as numbers -/

theorem toNat_append_byte {m : Nat} (a : BitVec m) (b : Byte) : (a ++ b).toNat = 2 ^ 8 * a.toNat + b.toNat := by
  rw [BitVec.toNat_append, ← Nat.shiftLeft_add_eq_or_of_lt b.isLt, Nat.shiftLeft_eq, Nat.mul_comm]

/-- The number that four bytes form, the first most significant. -/
theorem toNat_append_bytes (a b c d : Byte) :
    (a ++ b ++ c ++ d).toNat = 2 ^ 24 * a.toNat + 2 ^ 16 * b.toNat + 2 ^ 8 * c.toNat + d.toNat := by
  rw [toNat_append_byte, toNat_append_byte, toNat_append_byte]
  ring

theorem toNat_payloadWord_big {s : State} (h : s.params.laneOrder = .big) (i : Nat) :
    (payloadWord s i).toNat =
      2 ^ 24 * (payloadByte s (4 * i)).toNat + 2 ^ 16 * (payloadByte s (4 * i + 1)).toNat
        + 2 ^ 8 * (payloadByte s (4 * i + 2)).toNat + (payloadByte s (4 * i + 3)).toNat := by
  rw [payloadWord, h]
  exact toNat_append_bytes _ _ _ _

theorem toNat_payloadWord_little {s : State} (h : s.params.laneOrder = .little) (i : Nat) :
    (payloadWord s i).toNat =
      2 ^ 24 * (payloadByte s (4 * i + 3)).toNat + 2 ^ 16 * (payloadByte s (4 * i + 2)).toNat
        + 2 ^ 8 * (payloadByte s (4 * i + 1)).toNat + (payloadByte s (4 * i)).toNat := by
  rw [payloadWord, h]
  exact toNat_append_bytes _ _ _ _

/-! ### The window -/

/-- The high half of a pair of words shifted by `n`, when the pair writes `f` up to bit `c` of its low word. -/
theorem getMsbD_pair_high {a b : Word} {f : Nat → Bool} {c n : Nat} (ha : ∀ k, k < 32 → a.getMsbD k = f k)
    (hb : ∀ k, k < c → b.getMsbD k = f (32 + k)) (hn : n ≤ c) (k : Nat) (hk : k < 32) :
    (((a ++ b) <<< n).extractLsb' 32 32).getMsbD k = f (n + k) := by
  have hs : (((a ++ b) <<< n).extractLsb' 32 32).getMsbD k = (a ++ b).getMsbD (n + k) := by
    rw [BitVec.getMsbD_extractLsb', BitVec.getMsbD_shiftLeft]
    simp [hk, show 32 + 32 - k ≤ 64 by omega, show 64 - (64 - k) + n = n + k by omega]
  rw [hs, BitVec.getMsbD_append]
  split
  · rw [hb _ (by omega), show 32 + (n + k - 32) = n + k by omega]
  · exact ha _ (by omega)

/-- The low half of a pair of words shifted by `n`: the low word's bits from `n` on, and zeros behind them. -/
theorem getMsbD_pair_low (a b : Word) (n k : Nat) :
    (((a ++ b) <<< n).extractLsb' 0 32).getMsbD k = b.getMsbD (n + k) := by
  rw [BitVec.getMsbD_extractLsb', BitVec.getMsbD_shiftLeft, BitVec.getMsbD_append]
  by_cases hk : k < 32
  · simp [hk, show 64 - (32 - k) + n - 32 = n + k by omega, show 32 ≤ 64 - (32 - k) + n by omega,
      show 32 ≤ 64 + k by omega]
  · simp [hk, BitVec.getMsbD_of_ge b (n + k) (by omega)]

/-- A loaded word is the stream's 32 bits from its first bit on. -/
theorem getMsbD_wordOrZero (s : State) (i k : Nat) (hk : k < 32) :
    (wordOrZero s i).getMsbD k = streamBit s (32 * i + k) := by
  rw [streamBit, show (32 * i + k) / 32 = i by omega, show (32 * i + k) % 32 = k by omega]

/-- The window's value is the top of its current word (R107). -/
theorem getMsbD_top {n : Nat} (hn : n ≤ 32) (w : Window) (k : Nat) (hk : k < n) :
    (w.top n).getMsbD k = w.w0.getMsbD k := by
  rw [Window.top, BitVec.getMsbD_eq_getLsbD, BitVec.getLsbD_ofNat, Nat.testBit_div_two_pow, BitVec.testBit_toNat,
    BitVec.getMsbD_eq_getLsbD]
  simp [hk, show k < 32 by omega, show n - 1 - k < n by omega, show n - 1 - k + (32 - n) = 31 - k by omega]

@[simp] theorem streamBit_initCursor (s : State) (j : Nat) : streamBit (initCursor s) j = streamBit s j := rfl

/-- R102 establishes the window's invariant. -/
theorem windowAgrees_initCursor (s : State) : WindowAgrees (initCursor s) where
  count := Nat.le_refl _
  index := rfl
  current k hk := by simpa using getMsbD_wordOrZero s 0 k hk
  lookahead k hk := by simpa using getMsbD_wordOrZero s 1 k hk
  beyond k hk := BitVec.getMsbD_of_ge _ k hk

/-- The invariant speaks of the cursor and of what the stream depends on, and of nothing else. -/
theorem WindowAgrees.congr {s t : State} (h : WindowAgrees s) (hw : t.window = s.window) (hpos : t.pos = s.pos)
    (hp : t.params = s.params) (hn : t.latched.n = s.latched.n) (hm : t.payload = s.payload) : WindowAgrees t := by
  have hs := streamBit_congr hp hn hm
  obtain ⟨count, index, current, lookahead, beyond⟩ := h
  constructor <;> simp only [hw, hpos, hs] <;> assumption

theorem Window.advance_of_le {n : Nat} {w : Window} (h : n ≤ w.cnt) (next : Word) :
    w.advance n next =
      { w with
        w0 := ((w.w0 ++ w.w1) <<< n).extractLsb' 32 32
        w1 := ((w.w0 ++ w.w1) <<< n).extractLsb' 0 32
        cnt := w.cnt - n } := if_pos h

theorem Window.advance_of_lt {n : Nat} {w : Window} (h : w.cnt < n) (next : Word) :
    w.advance n next =
      { w0 := (((((w.w0 ++ w.w1) <<< w.cnt).extractLsb' 32 32) ++ next) <<< (n - w.cnt)).extractLsb' 32 32
        w1 := (((((w.w0 ++ w.w1) <<< w.cnt).extractLsb' 32 32) ++ next) <<< (n - w.cnt)).extractLsb' 0 32
        cnt := w.cnt + 32 - n
        idx := w.idx + 1 } := if_neg (Nat.not_le.mpr h)

/-- Every advance keeps the window's invariant (R106, R107): within the lookahead the pair is shifted; past it the
lookahead is drained first, and the next word, whose bits are the stream's from `pos + 32 + CNT` on, comes in. -/
theorem WindowAgrees.advance {n : Nat} {s : State} (hn : n ≤ 32) (h : WindowAgrees s) :
    WindowAgrees (advanceCursor n s) := by
  obtain ⟨count, index, current, lookahead, beyond⟩ := h
  have pair {m : Nat} (hm : m ≤ s.window.cnt) := getMsbD_pair_high (f := fun k => streamBit s (s.pos + k)) current
    (by simpa only [Nat.add_assoc] using lookahead) hm
  rcases Nat.lt_or_ge s.window.cnt n with hlt | hle
  · have e := Window.advance_of_lt hlt (wordOrZero s s.window.idx)
    have hnext : ∀ k, k < 32 → (wordOrZero s s.window.idx).getMsbD k = streamBit s (s.pos + s.window.cnt + (32 + k)) :=
      fun k hk => by rw [getMsbD_wordOrZero s _ k hk, show 32 * s.window.idx + k = s.pos + s.window.cnt + (32 + k) by omega]
    have drained := pair (Nat.le_refl _)
    have pair' := getMsbD_pair_high (f := fun k => streamBit s (s.pos + s.window.cnt + k)) (c := 32)
      (by simpa only [Nat.add_assoc] using drained) hnext (n := n - s.window.cnt) (by omega)
    constructor <;> simp only [advanceCursor_window, advanceCursor_pos, streamBit_advanceCursor, e, getMsbD_pair_low]
    case count => omega
    case index => omega
    case current =>
      intro k hk
      rw [pair' k hk, show s.pos + s.window.cnt + (n - s.window.cnt + k) = s.pos + n + k by omega]
    case lookahead =>
      intro k hk
      rw [hnext _ (by omega),
        show s.pos + s.window.cnt + (32 + (n - s.window.cnt + k)) = s.pos + n + 32 + k by omega]
    case beyond => exact fun k hk => BitVec.getMsbD_of_ge _ _ (by omega)
  · have e := Window.advance_of_le hle (wordOrZero s s.window.idx)
    constructor <;> simp only [advanceCursor_window, advanceCursor_pos, streamBit_advanceCursor, e, getMsbD_pair_low]
    case count => omega
    case index => omega
    case current =>
      intro k hk
      rw [pair hle k hk, Nat.add_assoc]
    case lookahead =>
      intro k hk
      rw [lookahead _ (by omega), show s.pos + 32 + (n + k) = s.pos + n + 32 + k by omega]
    case beyond => exact fun k hk => beyond _ (by omega)

/-- Under the invariant the window returns the stream's field (R107, R109). -/
theorem WindowAgrees.top_eq {n : Nat} {s : State} (hn : n ≤ 32) (h : WindowAgrees s) :
    s.window.top n = streamField s s.pos n := by
  refine BitVec.eq_of_getMsbD_eq fun k hk => ?_
  rw [getMsbD_top hn _ k hk, getMsbD_streamField s s.pos n k hk, h.current k (by omega)]

end Sys2Proof.Machine

namespace Sys2Proof

open Machine

/-- Settles O10: the invariant is established, gives the value, and is kept by the advance that a read makes. -/
theorem windowRealisationReturnsTheStreamBits : Obligations.WindowRealisationReturnsTheStreamBits := by
  refine ⟨windowAgrees_initCursor, fun n s hn h => ⟨h.top_eq hn, fun v t hread => ?_⟩⟩
  obtain ⟨-, -, rfl⟩ := read_eq_ok_iff.mp hread
  exact h.advance hn

end Sys2Proof
end

section
/-!
PROOFS. The family of spec 42_quant_tables.md: an entry is its base entry scaled (O30), and lies in its range (O31).
-/

namespace Sys2Proof.Machine

/-! ### The range -/

theorem aan_range {r : Nat} (h : r < 8) : 2758994 ≤ aan.getD r 0 ∧ aan.getD r 0 ≤ 13870400 := by
  revert r
  decide

/-- R127: the scaled value is in 1..255 and each factor between the vector's smallest and largest, and the rounding is
monotone. -/
theorem aanScale_range {t r c : Nat} (ht : 1 ≤ t ∧ t ≤ 255) (hr : r < 8) (hc : c < 8) :
    4989 ≤ aanScale t r c ∧ aanScale t r c ≤ 32151266 := by
  obtain ⟨hr1, hr2⟩ := aan_range hr
  obtain ⟨hc1, hc2⟩ := aan_range hc
  have lower : 1 * 2758994 * 2758994 ≤ t * aan.getD r 0 * aan.getD c 0 := Nat.mul_le_mul (Nat.mul_le_mul ht.1 hr1) hc1
  have upper : t * aan.getD r 0 * aan.getD c 0 ≤ 255 * 13870400 * 13870400 :=
    Nat.mul_le_mul (Nat.mul_le_mul ht.2 hr2) hc2
  rw [aanScale_eq]
  omega

theorem quantEntry_range (base : Nat → Byte) (sf : Nat) {i : Nat} (hi : i < 64) :
    4989 ≤ quantEntry base sf i ∧ quantEntry base sf i ≤ 32151266 :=
  aanScale_range (scaleClamp_range _ sf) (by omega) (by omega)

/-- An entry of a built table, as a number: it fits its 25 bits. -/
theorem toNat_buildTable (base : Nat → Byte) (sf : Nat) {i : Nat} (hi : i < 64) :
    ((buildTable base sf)[i]).toNat = quantEntry base sf i := by
  have := quantEntry_range base sf hi
  simp only [buildTable, Vector.getElem_ofFn, BitVec.toNat_ofNat]
  omega

/-! ### The zig-zag order -/

theorem naturalOrder_lt {k : Nat} (h : k < 64) : naturalOrder.getD k 0 < 64 := by
  revert k
  decide

/-- `NATURAL` has no index twice, so the build's look-up inverts it. -/
theorem idxOf_naturalOrder {k : Nat} (h : k < 64) : naturalOrder.idxOf (naturalOrder.getD k 0) = k := by
  have hk : k < naturalOrder.length := h
  rw [List.getD_eq_getElem _ _ hk]
  exact List.Nodup.idxOf_getElem (by decide) k hk

theorem naturalOrder_surjective {i : Nat} (h : i < 64) : ∃ k, k < 64 ∧ naturalOrder.getD k 0 = i := by
  have all : ∀ i < 64, i ∈ naturalOrder := by decide
  obtain ⟨k, hk, e⟩ := List.mem_iff_getElem.mp (all i h)
  exact ⟨k, hk, by rw [List.getD_eq_getElem _ _ hk, e]⟩

end Sys2Proof.Machine

namespace Sys2Proof

open Machine

/-- Settles O30: the build looks its base entry up through `NATURAL`, a permutation, and scales it. -/
theorem quantEntryIsTheScaledBaseEntry : Obligations.QuantEntryIsTheScaledBaseEntry := by
  refine ⟨rfl, rfl, fun i hi => naturalOrder_surjective hi, fun base sf k _ hk => ⟨naturalOrder_lt hk, ?_⟩⟩
  have hi := naturalOrder_lt hk
  rw [Vector.getElem?_eq_getElem hi, Option.map_some, toNat_buildTable base sf hi, quantEntry, idxOf_naturalOrder hk,
    aanScale_eq]
  rfl

/-- Settles O31: the bounds by monotony, and no tie because a tie would have one factor 2 less than the products. -/
theorem quantEntriesLieInTheirRange : Obligations.QuantEntriesLieInTheirRange := by
  refine ⟨fun base sf i _ hi => ?_, by decide, by decide, fun t r c _ _ _ _ => ?_⟩
  · obtain ⟨h1, h2⟩ := quantEntry_range base sf hi
    exact ⟨h1, h2, by omega⟩
  · generalize t * aan.getD r 0 * aan.getD c 0 = m
    omega

end Sys2Proof
end

section
/-!
PROOFS. The family of spec 44_block_decoder.md, the tags: the transform-coded, unknown and end tags (O11, O12, O13), a cut
tag (O14), and a VQ tag in 4:2:0 mode (O18).
-/

namespace Sys2Proof.Machine

open Claims

theorem endSuccess_eq_finished (r : EndReason) (s : State) : endSuccess r s = finished r s := rfl

/-! ### What each row of the opcode table runs -/

theorem exec_transformTag {i : Instr} (h : i ∈ transformTags) (s : State) :
    exec i s = (faultingTag .unsupportedBlockKind s).outcome := by
  simp only [transformTags, List.mem_cons, List.not_mem_nil, or_false] at h
  rcases h with rfl | rfl | rfl | rfl | rfl | rfl <;> rfl

theorem exec_unknownTag {i : Instr} (h : i ∈ [Instr.unk, .unkS]) (s : State) :
    exec i s = (faultingTag .unknownBlockTag s).outcome := by
  simp only [List.mem_cons, List.not_mem_nil, or_false] at h
  rcases h with rfl | rfl <;> rfl

theorem exec_endingTag {i : Instr} (h : i ∈ [Instr.endTag, .endTagS]) (s : State) :
    exec i s = (endingTag s).outcome := by
  simp only [List.mem_cons, List.not_mem_nil, or_false] at h
  rcases h with rfl | rfl <;> rfl

/-- The tile fill of a VQ kind with `bits` bits per position (R163): solid, or from a bitmap of 64 fields. -/
def FillsTile (bits : Nat) (fill : State → Micro) : Prop :=
  (bits = 0 ∧ fill = fillSolid) ∨
    (0 < bits ∧ bits ≤ 2 ∧ ∃ fields : List (BitVec 2), fields.length = 64 ∧ fill = fillBitmap bits fields)

theorem fillsTile_bitmap {bits n : Nat} (h : 0 < bits ∧ bits ≤ 2) (m : BitVec n) :
    FillsTile bits (fillBitmap bits (bitmapFields bits m)) :=
  .inr ⟨h.1, h.2, _, by simp [bitmapFields], rfl⟩

/-- A VQ row runs `VQBlock` on its operands. -/
theorem exec_vq {i : Instr} {at? : Option Coord} {slots : List Slot} {bits : Nat}
    (h : vqOperands i = some (at?, slots, bits)) :
    ∃ fill, FillsTile bits fill ∧ ∀ s, exec i s = (vqBlock at? slots fill s).outcome := by
  cases i with
  | vq1 | vq1S => cases h; exact ⟨_, .inl ⟨rfl, rfl⟩, fun _ => rfl⟩
  | vq2 | vq2S => cases h; exact ⟨_, fillsTile_bitmap (by omega) _, fun _ => rfl⟩
  | vq4 | vq4S => cases h; exact ⟨_, fillsTile_bitmap (by omega) _, fun _ => rfl⟩
  | tc1 | endTag | tc2 | unk | tc1h | tc1S | endTagS | tc2S | unkS | tc1hS => cases h

/-- The rows that are no VQ row. -/
theorem tag_of_vqOperands_none {i : Instr} (h : vqOperands i = none) :
    i ∈ transformTags ∨ i ∈ [Instr.unk, .unkS] ∨ i ∈ [Instr.endTag, .endTagS] := by
  cases i with
  | tc1 | tc2 | tc1h | tc1S | tc2S | tc1hS => exact .inl (by decide)
  | unk | unkS => exact .inr (.inl (by decide))
  | endTag | endTagS => exact .inr (.inr (by decide))
  | vq1 | vq2 | vq4 | vq1S | vq2S | vq4S => cases h

/-! ### The tag's read -/

theorem faultingTag_ok (code : ErrCode) {s : State} (h : s.pos + 4 ≤ s.latched.bitEnd) :
    faultingTag code s = .ended (takeFault code s.pos (advanceCursor 4 s)) := by
  rw [faultingTag, readTag, readField_ok h, Micro.bind_go]

theorem endingTag_ok {s : State} (h : s.pos + 4 ≤ s.latched.bitEnd) :
    endingTag s = .ended (endSuccess .endTag (advanceCursor 4 s)) := by
  rw [endingTag, readTag, readField_ok h, Micro.bind_go]

/-- A cut tag is all that a block does, whatever would follow the tag. -/
theorem readTag_bind_cut {s : State} (h : s.latched.bitEnd < s.pos + 4) (f : State → Micro) :
    (readTag s).bind f = .ended (takeFault .truncatedInput s.pos s) := by
  rw [readTag, readField_cut h, Micro.bind_ended]

/-- Every block begins with the read of its tag (R160). -/
theorem exec_cutTag (i : Instr) {s : State} (h : s.latched.bitEnd < s.pos + 4) :
    exec i s = .next (takeFault .truncatedInput s.pos s) := by
  cases hv : vqOperands i with
  | some o =>
    obtain ⟨fill, -, e⟩ := exec_vq hv
    rw [e, vqBlock, readTag_bind_cut h]
    rfl
  | none =>
    rcases tag_of_vqOperands_none hv with hi | hi | hi
    · rw [exec_transformTag hi, faultingTag, readTag_bind_cut h]
      rfl
    · rw [exec_unknownTag hi, faultingTag, readTag_bind_cut h]
      rfl
    · rw [exec_endingTag hi, endingTag, readTag_bind_cut h]
      rfl

/-- In 4:2:0 mode a VQ block ends right after its tag (R164). -/
theorem vqBlock_420 (at? : Option Coord) (slots : List Slot) (fill : State → Micro) {s : State}
    (h : s.pos + 4 ≤ s.latched.bitEnd) (hm : s.latched.m420 = true) :
    vqBlock at? slots fill s = .ended (takeFault .unsupportedBlockKind s.pos (advanceCursor 4 s)) := by
  rw [vqBlock, readTag, readField_ok h, Micro.bind_go]
  exact if_pos hm

end Sys2Proof.Machine

namespace Sys2Proof

open Machine Claims

/-- Settles O11: the tag is read whole, and the error is raised at its first bit. -/
theorem transformTagsFaultUnsupportedBlockKind : Obligations.TransformTagsFaultUnsupportedBlockKind := by
  intro i s hi hfits
  rw [exec_transformTag hi, faultingTag_ok _ hfits, takeFault_eq_faulted (by decide)]
  rfl

/-- Settles O12: the tag is read whole, and the error is raised at its first bit. -/
theorem unknownTagsFaultUnknownBlockTag : Obligations.UnknownTagsFaultUnknownBlockTag := by
  intro i s hi hfits
  rw [exec_unknownTag hi, faultingTag_ok _ hfits, takeFault_eq_faulted (by decide)]
  rfl

/-- Settles O13: the tag is read whole, and the frame ends. -/
theorem endTagsFinishTheFrame : Obligations.EndTagsFinishTheFrame := by
  intro i s hi hfits
  rw [exec_endingTag hi, endingTag_ok hfits, endSuccess_eq_finished]
  rfl

/-- Settles O14: the tag's read is the first thing that every block does. -/
theorem cutTagFaultsTruncatedInput : Obligations.CutTagFaultsTruncatedInput := by
  intro i s hcut
  rw [exec_cutTag i hcut, takeFault_eq_faulted (by decide)]

/-- Settles O18: the check stands before every other read. -/
theorem vqTagsFaultIn420Mode : Obligations.VqTagsFaultIn420Mode := by
  intro i s hi hm hfits
  obtain ⟨⟨at?, slots, bits⟩, hv⟩ := Option.isSome_iff_exists.mp hi
  obtain ⟨fill, -, e⟩ := exec_vq hv
  rw [e, vqBlock_420 at? slots fill hfits hm, takeFault_eq_faulted (by decide)]
  rfl

end Sys2Proof
end

section
/-!
PROOFS. Rules over every step: all that a step can do, in one inversion lemma (O6, O52, O53, O54), and who moves (O57,
O58, O59).
-/

namespace Sys2Proof.Machine

open Claims

/-! ### All that a step can do -/

/-- The state a DECODE starts its set-up from: BUSY, its registers latched. -/
def latching (h : List HostAction) (l : Latched) (s : State) : State :=
  { s with host := h, rdata := none, phase := .busy, latched := l }

/-- The state a DECODE with a consistent header leaves (R236 to R239). -/
def frameSetUp (h : List HostAction) (l : Latched) (s : State) : State :=
  initScanner (initCursor (initWork (buildAllQt (latching h l s))))

section

variable (h : List HostAction) (l : Latched) (s : State)

@[simp] theorem frameSetUp_params : (frameSetUp h l s).params = s.params := by simp [frameSetUp, latching, buildAllQt]
@[simp] theorem frameSetUp_latched : (frameSetUp h l s).latched = l := by simp [frameSetUp, latching, buildAllQt]
@[simp] theorem frameSetUp_pal : (frameSetUp h l s).pal = s.pal := by simp [frameSetUp, latching, buildAllQt]
@[simp] theorem frameSetUp_pub : (frameSetUp h l s).pub = s.pub := by simp [frameSetUp, latching, buildAllQt]
@[simp] theorem frameSetUp_phase : (frameSetUp h l s).phase = .busy := by simp [frameSetUp, latching, buildAllQt]
@[simp] theorem frameSetUp_payload : (frameSetUp h l s).payload = s.payload := by
  simp [frameSetUp, latching, buildAllQt]
@[simp] theorem frameSetUp_errBit : (frameSetUp h l s).errBit = s.errBit := by simp [frameSetUp, latching, buildAllQt]
@[simp] theorem frameSetUp_pos : (frameSetUp h l s).pos = 0 := rfl
@[simp] theorem frameSetUp_sx : (frameSetUp h l s).sx = 0 := rfl
@[simp] theorem frameSetUp_sy : (frameSetUp h l s).sy = 0 := rfl

end

/-- The ways a step goes from `s`; `h` is what is left of the host's list. -/
inductive StepTo (s : State) : State → Prop
  /-- The core is idle (R246). -/
  | idle (h : List HostAction) (hp : s.phase ≠ .busy) : StepTo s { s with host := h }
  /-- The payload bound ends the frame (R240). -/
  | bound (h : List HostAction) (hp : s.phase = .busy) (hb : s.latched.bitEnd ≤ s.pos) :
    StepTo s (endSuccess .payloadBound { s with host := h })
  /-- The block at the cursor runs (R240). -/
  | block (h : List HostAction) (i : Instr) (t : State) (hp : s.phase = .busy) (hb : s.pos < s.latched.bitEnd)
    (hi : decodeAt s = .ok i) (ht : exec i { s with host := h } = .next t) : StepTo s t
  /-- The host reads (R43). -/
  | read (h : List HostAction) (r : Option Word) : StepTo s { s with host := h, rdata := r }
  /-- The host writes a descriptor register (R28). -/
  | descriptor (h : List HostAction) (d : Descriptors) (hp : s.phase ≠ .busy) :
    StepTo s { s with host := h, rdata := none, desc := d }
  /-- The host writes a payload byte (R61). -/
  | payload (h : List HostAction) (off : Word) (v : Byte) (hp : s.phase ≠ .busy) :
    StepTo s { s with host := h, rdata := none, payload := Memory.store s.payload off.toNat v }
  /-- RESET (R231). -/
  | reset (h : List HostAction) (hp : s.phase ≠ .busy) (hc : commandNext 1 s) :
    StepTo s
      { s with
        host := h, rdata := none, pal := palDefaults, map := mapDefaults, pub := none, phase := .ready, errCode := .none
        endReason := .endTag, errWord := 0, errBit := 0, errMb := 0 }
  /-- A DECODE whose header is consistent sets up its frame (R236 to R239). -/
  | setUp (h : List HostAction) (w ht c m g : Word) (hp : s.phase = .ready ∨ s.phase = .error) (hc : commandNext 2 s)
    (hok : headerOk s.params (latchOf w ht c m g) = true) :
    StepTo s (frameSetUp h (latchOf w ht c m g) s)
  /-- A DECODE whose header is inconsistent faults (R235). -/
  | headerFault (h : List HostAction) (l : Latched) (hp : s.phase = .ready ∨ s.phase = .error) (hc : commandNext 2 s) :
    StepTo s (takeFault .headerInconsistent 0 (latching h l s))
  /-- DESTROY (R232). -/
  | destroy (h : List HostAction) (hp : s.phase = .ready ∨ s.phase = .error) (hc : commandNext 3 s) :
    StepTo s (destroyed { s with host := h, rdata := none })

theorem destroyCommand_cases {s t : State} (h : destroyCommand s = .next t) :
    (s.phase = .ready ∨ s.phase = .error) ∧ t = destroyed s := by
  unfold destroyCommand at h
  cases hp : s.phase <;> rw [hp] at h <;> cases h
  · exact ⟨.inl rfl, rfl⟩
  · exact ⟨.inr rfl, rfl⟩

/-- A step that has a next state goes one of these ways. -/
theorem stepTo_of_step {s t : State} (h : step s = .next t) : StepTo s t := by
  rcases step_cases h with ⟨rest, hcore⟩ | ⟨a, rest, hhost, hacc⟩ | ⟨rest, hp, rfl⟩
  · rcases coreStep_cases hcore with ⟨hp, rfl⟩ | ⟨hp, hb, rfl⟩ | ⟨hp, hb, i, hi, ht⟩
    · exact .idle rest hp
    · exact .bound rest hp hb
    · exact .block rest i t hp hb hi ht
  · rcases hostAccess_cases hacc with ⟨r, rfl⟩ | ⟨hp, d, rfl⟩ | ⟨hp, off, v, rfl⟩ | ⟨hp, rfl, hcmd⟩ | ⟨hp, rfl, hcmd⟩ |
      ⟨hp, rfl, hcmd⟩
    · exact .read rest r
    · exact .descriptor rest d hp
    · exact .payload rest off v hp
    · cases hcmd
      exact .reset rest hp ⟨rest, hhost⟩
    · obtain ⟨hph, w, ht, c, m, g, rfl⟩ := decodeCommand_cases hcmd
      rcases startDecode_cases (latchOf w ht c m g) { s with host := rest, rdata := none } with ⟨hok, e⟩ | ⟨-, e⟩
      · rw [e]
        exact .setUp rest w ht c m g hph ⟨rest, hhost⟩ hok
      · rw [e]
        exact .headerFault rest _ hph ⟨rest, hhost⟩
    · obtain ⟨hph, rfl⟩ := destroyCommand_cases hcmd
      exact .destroy rest hph ⟨rest, hhost⟩
  · exact .idle rest hp

/-! ### What the ways leave -/

theorem BlockLeaves.params {s t : State} (h : BlockLeaves s t) : t.params = s.params := by
  cases h with
  | faulted code p u _ hu =>
    rcases hu with rfl | hu
    · rfl
    · exact hu.params
  | finished => rfl
  | drawn u x y hu => simpa using hu.params

/-- No step changes the parameters (R8). -/
theorem StepTo.params {s t : State} (h : StepTo s t) : t.params = s.params := by
  cases h with
  | block h i t _ _ _ ht => exact (exec_leaves ht).params
  | setUp => exact frameSetUp_params _ _ _
  | idle | bound | read | descriptor | payload | reset | headerFault | destroy => rfl

/-- A block that is no VQ block leaves PAL as it was. -/
theorem exec_pal_of_not_vq {i : Instr} {s t : State} (hv : vqOperands i = none) (h : exec i s = .next t) :
    t.pal = s.pal := by
  have hfault : ∀ code, (faultingTag code s).state.pal = s.pal := fun code => by
    rcases faultingTag_cases code s with ⟨-, e⟩ | ⟨-, e⟩ <;> rw [e] <;> rfl
  have hend : (endingTag s).state.pal = s.pal := by
    rcases endingTag_cases s with ⟨-, e⟩ | ⟨-, e⟩ <;> rw [e] <;> rfl
  rcases tag_of_vqOperands_none hv with hi | hi | hi
  · rw [exec_transformTag hi] at h
    cases h
    exact hfault _
  · rw [exec_unknownTag hi] at h
    cases h
    exact hfault _
  · rw [exec_endingTag hi] at h
    cases h
    exact hend

end Sys2Proof.Machine

namespace Sys2Proof

open Machine Claims

/-- Settles O6: the word as a number, and the order as one of the parameters that no step changes. -/
theorem payloadWordsAreFormedFromFourBytes : Obligations.PayloadWordsAreFormedFromFourBytes :=
  ⟨rfl, fun _ _ h => congrArg Params.laneOrder (stepTo_of_step h).params,
    fun _ i => ⟨fun hbig => toNat_payloadWord_big hbig i, fun hlittle => toNat_payloadWord_little hlittle i⟩⟩

/-- Settles O52: of the ways of a step, a VQ block, RESET and DESTROY write PAL, and no other. -/
theorem paletteChangesOnlyBySlotsResetAndDestroy : Obligations.PaletteChangesOnlyBySlotsResetAndDestroy := by
  intro s t h hpal
  cases stepTo_of_step h with
  | block h i t hp _ hi ht =>
    refine .inl ⟨hp, i, hi, ?_⟩
    by_contra hv
    have hkept := exec_pal_of_not_vq (by simpa using hv) ht
    exact hpal hkept
  | reset _ hp hc => exact .inr ⟨hp, .inl hc⟩
  | destroy _ hp hc => exact .inr ⟨by rcases hp with hp | hp <;> simp [hp], .inr hc⟩
  | setUp => exact absurd (frameSetUp_pal _ _ _) hpal
  | idle | bound | read | descriptor | payload | headerFault => exact absurd rfl hpal

/-- Settles O53: a successful end replaces PUB, RESET and DESTROY discard it, and no other way of a step writes it. -/
theorem publishedBufferIsReplacedWholeOrDiscarded : Obligations.PublishedBufferIsReplacedWholeOrDiscarded := by
  intro s t h hpub
  cases stepTo_of_step h with
  | bound _ hp => exact .inl ⟨hp, rfl, rfl, rfl⟩
  | block h i t hp _ _ ht =>
    cases exec_leaves ht with
    | faulted code p u _ hu =>
      rcases hu with rfl | hu
      · exact absurd rfl hpub
      · exact absurd hu.pub hpub
    | finished => exact .inl ⟨hp, rfl, rfl, rfl⟩
    | drawn u x y hu => exact absurd (by simpa using hu.pub) hpub
  | reset _ hp hc => exact .inr ⟨hp, rfl, .inl hc⟩
  | destroy _ hp hc => exact .inr ⟨by rcases hp with hp | hp <;> simp [hp], rfl, .inr hc⟩
  | setUp => exact absurd (frameSetUp_pub _ _ _) hpub
  | idle | read | descriptor | payload | headerFault => exact absurd rfl hpub

/-- Settles O54: the ways of a step against the rows of the status table. -/
theorem stateChangesFollowTheStatusTable : Obligations.StateChangesFollowTheStatusTable := by
  intro s t h hphase
  cases stepTo_of_step h with
  | bound _ hp => exact .inl ⟨hp, rfl, rfl⟩
  | block h i t hp _ _ ht =>
    cases exec_leaves ht with
    | faulted code p u _ hu =>
      rcases hu with rfl | hu
      · exact .inr (.inl ⟨hp, rfl, rfl, rfl⟩)
      · exact .inr (.inl ⟨hp, rfl, hu.endReason, hu.pub⟩)
    | finished => exact .inl ⟨hp, rfl, rfl⟩
    | drawn u x y hu => exact absurd (by simpa using hu.phase) hphase
  | reset _ hp hc => exact .inr (.inr (.inl ⟨hp, rfl, hc, rfl, rfl⟩))
  | destroy _ hp hc => exact .inr (.inr (.inr (.inl ⟨hp, rfl, hc, rfl, rfl, rfl⟩)))
  | setUp _ _ _ _ _ _ hp hc =>
    exact .inr (.inr (.inr (.inr (.inl ⟨hp, frameSetUp_phase _ _ _, hc, frameSetUp_pub _ _ _⟩))))
  | headerFault _ _ hp hc =>
    rcases hp with hp | hp
    · exact .inr (.inr (.inr (.inr (.inr ⟨hp, rfl, hc, rfl, rfl⟩))))
    · exact absurd hp.symm hphase
  | idle | read | descriptor | payload => exact absurd rfl hphase

/-! ### Who moves -/

/-- Settles O57: without an access a step is the core's move, which is total, or the end of the host's waiting. -/
theorem theCoreNeverStops : Obligations.TheCoreNeverStops := by
  intro s hno
  unfold step
  split
  · exact coreStep_next s
  · next a rest hhost => exact absurd hhost (hno a rest)
  · exact coreStep_next _
  · split
    · exact coreStep_next s
    · exact ⟨_, rfl⟩

/-- Settles O58: the step's case for an access. -/
theorem stepMakesTheHostsAccess : Obligations.StepMakesTheHostsAccess := by
  intro s a rest h
  simp only [step, h]

/-- Settles O59: outside BUSY the core's move is to stay. -/
theorem idleCoreRetainsAllState : Obligations.IdleCoreRetainsAllState := by
  intro s hp
  have idle : ∀ u : State, u.phase ≠ .busy → coreStep u = .next u := fun u hu => if_neg hu
  refine ⟨fun h => ?_, fun more h => ?_, fun more h => ?_⟩ <;> simp only [step, h]
  · exact idle s hp
  · exact idle _ hp
  · exact if_neg hp

end Sys2Proof
end

section
/-!
PROOFS. The state invariant: it holds at reset and at power-on (O55), and every step keeps it (O56).
-/

namespace Sys2Proof.Machine

/-! ### Outside a DECODE, and its two ends -/

theorem inv_reset : State.Inv State.reset :=
  ⟨by decide, nofun, nofun, fun _ => rfl, fun _ => rfl, nofun, nofun, by decide⟩

theorem inv_powerOn : State.Inv State.powerOn :=
  ⟨by decide, nofun, nofun, fun _ => rfl, nofun, nofun, fun _ => rfl, by decide⟩

/-- What a running DECODE's invariant speaks of. -/
theorem Decoding.congr {s t : State} (h : Decoding s) (hp : t.params = s.params) (hl : t.latched = s.latched)
    (hpos : t.pos = s.pos) (hx : t.sx = s.sx) (hy : t.sy = s.sy) (hw : t.work = s.work) (hwin : t.window = s.window)
    (hm : t.payload = s.payload) (hq : t.qt = s.qt) : Decoding t where
  header := by rw [hp, hl]; exact h.header
  bpp := by rw [hl]; exact h.bpp
  words := by rw [hl]; exact h.words
  cursor := by rw [hpos, hl]; exact h.cursor
  scannerX := by rw [hx, hl]; exact h.scannerX
  scannerY := by rw [hy, hl]; exact h.scannerY
  working := by rw [hw, hl]; exact h.working
  window := h.window.congr hwin hpos hp (by rw [hl]) hm
  quant := by unfold QuantInRange; rw [hq]; exact h.quant

/-- The host's side is not in the invariant. -/
theorem State.Inv.withHost {s : State} (h : State.Inv s) (host : List HostAction) (r : Option Word) :
    State.Inv { s with host := host, rdata := r } :=
  { h with busy := fun hb => (h.busy hb).congr rfl rfl rfl rfl rfl rfl rfl rfl rfl }

/-- Taking an error ends a DECODE soundly wherever it is taken. -/
theorem inv_takeFault {code : ErrCode} {u : State} (p : Nat) (hc : code ≠ .none)
    (hm : Memory.wf u.payload = true ∧ Memory.below (2 ^ 32) u.payload = true)
    (hpub : ∀ p, u.pub = some p → BufferWithin p.size p.buf) : State.Inv (takeFault code p u) where
  payload := hm
  published := hpub
  busy := nofun
  idle _ := rfl
  ready := nofun
  error _ := hc
  uninit := nofun
  errBit := by
    rw [takeFault_errBit]
    split
    · decide
    · rw [BitVec.toNat_ofNat]
      omega

/-- A successful end publishes a WORK that is within its frame (R241). -/
theorem inv_endSuccess {u : State} (r : EndReason)
    (hm : Memory.wf u.payload = true ∧ Memory.below (2 ^ 32) u.payload = true)
    (hwork : ∀ b, u.work = some b → BufferWithin u.latched.size b) (hbit : u.errBit.toNat < 32) :
    State.Inv (endSuccess r u) where
  payload := hm
  published p hp := by
    obtain ⟨b, hb, rfl⟩ := Option.map_eq_some_iff.mp hp
    exact hwork b hb
  busy := nofun
  idle _ := rfl
  ready _ := rfl
  error := nofun
  uninit := nofun
  errBit := hbit

theorem Decoding.work_within {s : State} (h : Decoding s) {b : Buffer} (hb : s.work = some b) :
    BufferWithin s.latched.size b := by
  obtain ⟨b', hb', hin⟩ := h.working
  cases hb.symm.trans hb'
  exact hin

/-! ### A block -/

theorem KeptByFields.and {P P' : State → Prop} (k : KeptByFields P) (k' : KeptByFields P') :
    KeptByFields fun s => P s ∧ P' s where
  cursor n s hn hb h := ⟨k.cursor n s hn hb h.1, k'.cursor n s hn hb h.2⟩
  mapping j idx s h := ⟨k.mapping j idx s h.1, k'.mapping j idx s h.2⟩
  palette i c s h := ⟨k.palette i c s h.1, k'.palette i c s h.2⟩
  scratch p c s h := ⟨k.scratch p c s h.1, k'.scratch p c s h.2⟩

/-- The reads of a block keep the window exact, and its other writes do not touch it. -/
theorem windowAgrees_kept : KeptByFields WindowAgrees where
  cursor _ _ hn _ h := h.advance hn
  mapping _ _ _ h := h.congr rfl rfl rfl rfl rfl
  palette _ _ _ h := h.congr rfl rfl rfl rfl rfl
  scratch _ _ _ h := h.congr rfl rfl rfl rfl rfl

/-- The scanner stays within the frame (R220, R221). -/
theorem scannerAdvance_within {s : State} (hx : s.sx < s.latched.bpr) (hy : s.sy < s.latched.bpc) :
    (scannerAdvance s).sx < s.latched.bpr ∧ (scannerAdvance s).sy < s.latched.bpc := by
  rw [scannerAdvance_sx, scannerAdvance_sy]
  constructor <;> repeat' split
  all_goals omega

/-- A drawn tile, after fields that were read, leaves a running DECODE sound. -/
theorem decoding_tile {s u : State} (h : Decoding s) (hu : FieldsRead s u) (hw : WindowAgrees u) (x y : Nat) :
    Decoding (scannerAdvance (convert444 x y u)) := by
  obtain ⟨b, hb, hin⟩ := h.working
  obtain ⟨hsx, hsy⟩ := scannerAdvance_within (s := u) (by rw [hu.sx, hu.latched]; exact h.scannerX)
    (by rw [hu.sy, hu.latched]; exact h.scannerY)
  rw [tile_end]
  exact {
    header := by rw [← h.header, ← hu.params, ← hu.latched]
    bpp := by rw [hu.latched]; exact h.bpp
    words := by rw [hu.latched]; exact h.words
    cursor := by rw [hu.latched]; exact hu.within
    scannerX := hsx
    scannerY := hsy
    working := by
      refine ⟨_, by rw [convert444_eq, hu.work, hb]; rfl, ?_⟩
      rw [hu.latched]
      exact drawMany_within h.bpp _ _ _ _ hin
    window := hw.congr rfl rfl rfl rfl rfl
    quant := by unfold QuantInRange; rw [hu.qt]; exact h.quant }

/-- Every block keeps the invariant of a running DECODE: its fields keep the window exact and touch nothing else that the
invariant speaks of, and each of its ends is sound. -/
theorem exec_keeps_inv {i : Instr} {s t : State} (h : State.Inv s) (hb : s.phase = .busy) (ht : exec i s = .next t) :
    State.Inv t := by
  have hd := h.busy hb
  have fault : ∀ {u} code p, code ≠ .none → FieldsRead s u → State.Inv (takeFault code p u) := fun code p hc hu =>
    inv_takeFault p hc (by rw [hu.payload]; exact h.payload) (by rw [hu.pub]; exact h.published)
  obtain ⟨t', e, hq⟩ := exec_all (P := fun u => FieldsRead s u ∧ WindowAgrees u) (Q := State.Inv)
    ((fieldsRead_kept s).and windowAgrees_kept)
    (fun u hu => fault _ _ (by decide) hu.1) i
    (fun hfits => ⟨fieldsRead_tag hfits, hd.window.advance (by decide)⟩)
    (fun _ => inv_takeFault _ (by decide) h.payload h.published)
    (fun code hc hfits => fault _ _ (by rcases hc with rfl | rfl <;> decide) (fieldsRead_tag hfits))
    (fun _ => inv_endSuccess _ h.payload (fun b hw => hd.work_within hw) h.errBit)
    (fun u x y ⟨hu, hw⟩ => {
      payload := by simpa [hu.payload] using h.payload
      published := by simpa [hu.pub] using h.published
      busy := fun _ => decoding_tile hd hu hw x y
      idle := fun hi => absurd (by simpa [hu.phase] using hb) hi
      ready := fun hi => by simp [hu.phase, hb] at hi
      error := fun hi => by simp [hu.phase, hb] at hi
      uninit := fun hi => by simp [hu.phase, hb] at hi
      errBit := by simpa [hu.errBit] using h.errBit })
  rw [ht] at e
  cases e
  exact hq

/-! ### The set-up of a DECODE -/

theorem latchOf_bpp (w h c m g : Word) : (latchOf w h c m g).bpp = 3 ∨ (latchOf w h c m g).bpp = 4 := by
  unfold latchOf
  split <;> simp

theorem latchOf_n_lt (w h c m g : Word) : (latchOf w h c m g).n < 2 ^ 30 := by
  have := c.isLt
  show c.toNat / 4 < 2 ^ 30
  omega

/-- A positive size has at least one block (R26). -/
theorem blocks_pos (l : Latched) {a : Nat} (h : 1 ≤ a) : 0 < l.blockSize * ceilDiv a l.blockSize / l.blockSize := by
  have hb := blockSize_pos l
  have hle := le_mul_ceilDiv hb a
  rw [Nat.mul_div_cancel_left _ hb]
  exact Nat.pos_of_mul_pos_left (a := l.blockSize) (by omega)

theorem bpr_pos {l : Latched} (h : 1 ≤ l.w) : 0 < l.bpr := blocks_pos l h

theorem bpc_pos {l : Latched} (h : 1 ≤ l.h) : 0 < l.bpc := blocks_pos l h

/-- A PUB that matches the latched geometry fits the frame (R238). -/
theorem matchingPub_within {s : State} {b : Buffer} (h : ∀ p, s.pub = some p → BufferWithin p.size p.buf)
    (hb : matchingPub s = some b) : BufferWithin s.latched.size b := by
  unfold matchingPub at hb
  split at hb
  · next p hp =>
    split at hb
    · next hgeom =>
      obtain ⟨hw, hh, hbpp⟩ := hgeom
      cases hb
      have := h p hp
      rwa [Published.size, hw, hh, hbpp] at this
    · cases hb
  · cases hb

/-- The tables a DECODE rebuilds are in their range (R127). -/
theorem quantInRange_buildAllQt (s : State) : QuantInRange (buildAllQt s) := by
  have hbuilt : ∀ sel var b (i : Fin 64), 4989 ≤ ((buildQt sel var b)[i]).toNat ∧ ((buildQt sel var b)[i]).toNat ≤ 32151266 :=
    fun sel var b i => by
      have e := toNat_buildTable (Config.baseTable sel var) (Config.scaleFactor b) i.isLt
      have := quantEntry_range (Config.baseTable sel var) (Config.scaleFactor b) i.isLt
      rw [← e] at this
      exact this
  intro t i
  match t with
  | 0 | 1 | 2 | 3 => exact hbuilt _ _ _ i

/-- A consistent header's set-up begins a sound DECODE. -/
theorem decoding_frameSetUp {s : State} (h : State.Inv s) (host : List HostAction) {l : Latched}
    (hok : headerOk s.params l = true) (hbpp : l.bpp = 3 ∨ l.bpp = 4) (hn : l.n < 2 ^ 30) :
    Decoding (frameSetUp host l s) := by
  have hsize : 1 ≤ l.w ∧ 1 ≤ l.h := by
    simp only [headerOk, Bool.and_eq_true, decide_eq_true_eq] at hok
    exact hok.1.1
  constructor
  case header => simpa using hok
  case bpp => simpa using hbpp
  case words => simpa using hn
  case cursor => exact Nat.zero_le _
  case scannerX => simpa using bpr_pos hsize.1
  case scannerY => simpa using bpc_pos hsize.2
  case working =>
    refine ⟨_, initWork_work _, ?_⟩
    rw [frameSetUp_latched]
    cases hm : matchingPub (buildAllQt (latching host l s)) with
    | none => exact ⟨rfl, rfl⟩
    | some b => exact matchingPub_within (s := buildAllQt (latching host l s)) h.published hm
  case window => exact (windowAgrees_initCursor _).congr rfl rfl rfl rfl rfl
  case quant =>
    have : (frameSetUp host l s).qt = (buildAllQt (latching host l s)).qt := by simp [frameSetUp]
    unfold QuantInRange
    rw [this]
    exact quantInRange_buildAllQt _

/-! ### Every step -/

/-- Each way of a step keeps the invariant. -/
theorem StepTo.keeps_inv {s t : State} (h : State.Inv s) (ht : StepTo s t) : State.Inv t := by
  cases ht with
  | idle host => exact h.withHost host s.rdata
  | bound host hb => exact inv_endSuccess _ h.payload (fun b hw => (h.busy hb).work_within hw) h.errBit
  | block host i t hb _ _ he => exact exec_keeps_inv (h.withHost host s.rdata) hb he
  | read host r => exact h.withHost host r
  | descriptor host d hp => exact { h with busy := fun hb => absurd hb hp }
  | payload host off v hp =>
    exact { h with
      payload := ⟨Memory.store_keeps_wf _ _ _ h.payload.1, Memory.store_keeps_below _ _ _ h.payload.2 off.isLt⟩
      busy := fun hb => absurd hb hp }
  | reset host hp => exact ⟨h.payload, nofun, nofun, fun _ => h.idle hp, fun _ => rfl, nofun, nofun,
      show 0 < 32 by decide⟩
  | setUp host w ht c m g hp _ hok =>
    exact {
      payload := by simpa using h.payload
      published := by simpa using h.published
      busy := fun _ => decoding_frameSetUp h host hok (latchOf_bpp ..) (latchOf_n_lt ..)
      idle := fun hi => absurd (frameSetUp_phase _ _ _) hi
      ready := fun hi => by simp at hi
      error := fun hi => by simp at hi
      uninit := fun hi => by simp at hi
      errBit := by simpa using h.errBit }
  | headerFault host l => exact inv_takeFault 0 (by decide) h.payload h.published
  | destroy host hp =>
    have hb : s.phase ≠ .busy := by rcases hp with hp | hp <;> simp [hp]
    exact ⟨h.payload, nofun, nofun, fun _ => h.idle hb, nofun, nofun, fun _ => rfl, h.errBit⟩

end Sys2Proof.Machine

namespace Sys2Proof

open Machine

/-- Settles O55: both states are outside a DECODE, with nothing published and nothing written. -/
theorem invariantHoldsAtReset : Obligations.InvariantHoldsAtReset := ⟨inv_reset, inv_powerOn⟩

/-- Settles O56: each of the ways a step can go keeps the invariant. -/
theorem everyStepKeepsTheInvariant : Obligations.EveryStepKeepsTheInvariant :=
  fun _ _ h ht => (stepTo_of_step ht).keeps_inv h

end Sys2Proof
end

section
/-!
PROOFS. The family of spec 44_block_decoder.md, the VQ blocks that complete: VQ1, VQ2 and VQ4 with either S bit (O15, O16,
O17).
-/

namespace Sys2Proof.Machine

open Claims

/-! ### The registers a group leaves -/

/-- `MAP` after a group from slot `j` on: the indices of its slots, and the other entries as they were. -/
theorem getElem_mapAfter (map : Vector (BitVec 2) 4) (j : Nat) (slots : List Slot) (i : Nat) (hi : i < 4) :
    (mapAfter map j slots)[i] =
      if h : j ≤ i ∧ i < j + slots.length then (slots[i - j]'(by omega)).idx else map[i] := by
  induction slots generalizing map j with
  | nil => simp [mapAfter, show ¬ (j ≤ i ∧ i < j) by omega]
  | cons sl rest ih =>
    rw [mapAfter, ih]
    by_cases hfirst : j = i
    · subst hfirst
      simp
    · by_cases hin : j + 1 ≤ i ∧ i < j + 1 + rest.length
      · rw [dif_pos hin, dif_pos (by simp only [List.length_cons]; omega)]
        simp only [show i - j = i - (j + 1) + 1 by omega, List.getElem_cons_succ]
      · rw [dif_neg hin, dif_neg (by simp only [List.length_cons]; omega), Vector.getElem_setIfInBounds_ne hi hfirst]

/-- The color a field of value `v` selects after a group (R147): that of the register slot `v` names. -/
theorem palAt_mapAt {u : State} {pal : Vector Color 4} {map : Vector (BitVec 2) 4} {slots : List Slot} {v : BitVec 2}
    (hpal : u.pal = pal) (hmap : u.map = mapAfter map 0 slots) (hv : v.toNat < slots.length) :
    u.palAt (u.mapAt v) = colorOf pal slots[v.toNat] := by
  have e : u.mapAt v = slots[v.toNat].idx := by
    simp only [State.mapAt, hmap]
    rw [getElem_mapAfter, dif_pos ⟨Nat.zero_le _, by omega⟩]
    rfl
  simp only [State.palAt, colorOf, hpal, e]

/-! ### The block -/

theorem readCoords_after (at? : Option Coord) {s : State} (h : s.pos + coordBits s.params at? ≤ s.latched.bitEnd) :
    ∃ w, readCoords at? s = .go { s with pos := s.pos + coordBits s.params at?, window := w } := by
  cases at? with
  | none => exact ⟨s.window, rfl⟩
  | some c =>
    rw [← coordWidth_eq_coordBits] at h ⊢
    exact ⟨_, readField_ok h⟩

theorem putMany_congr {f g : Nat → Color} (h : ∀ p, p < 64 → f p = g p) (scr : Vector Byte 768) :
    putMany f 64 scr = putMany g 64 scr := by
  refine List.foldl_ext _ _ _ fun scr p hp => ?_
  rw [h p (List.mem_range.mp hp)]

/-- A fill that draws `color` in every state that has the palette and the mapping of the group. -/
def FillDraws (pal : Vector Color 4) (map : Vector (BitVec 2) 4) (slots : List Slot) (bits : Nat) (color : Nat → Color)
    (fill : State → Micro) : Prop :=
  ∀ u : State, u.pal = palAfter pal slots → u.map = mapAfter map 0 slots → u.pos + 64 * bits ≤ u.latched.bitEnd →
    ∃ w, fill u = .go { u with pos := u.pos + 64 * bits, window := w, scr := putMany color 64 u.scr }

theorem tileDrawn_congr {l : Latched} {size bx byy : Nat} {px px' : Nat → Nat → Pixel} {b b' : Buffer}
    (h : TileDrawn l size bx byy px b b') (e : ∀ row col, row < size → col < size → px row col = px' row col) :
    TileDrawn l size bx byy px' b b' where
  draw := h.draw
  drawn row col k hr hc hx hy hk := by rw [← e row col hr hc]; exact h.drawn row col k hr hc hx hy hk
  others := h.others

/-- A converted tile whose planes hold `color` draws its colors' pixels (R140, R203). -/
theorem tileDrawn_planes {l : Latched} (hb : l.bpp = 3 ∨ l.bpp = 4) (bx byy : Nat) {color : Nat → Color}
    {scr scr' : Vector Byte 768} (h : PlanesFilled color scr scr') (b : Buffer) :
    TileDrawn l 8 bx byy (fun row col => pixOf (color (8 * row + col))) b
      (drawMany l (fun p => 8 * bx + p % 8) (fun p => 8 * byy + p / 8)
        (fun p => pix (scrAt scr' p) (scrAt scr' (64 + p)) (scrAt scr' (128 + p))) 64 b) :=
  tileDrawn_congr (tileDrawn_444 hb bx byy _ b) fun row col hr hc => by
    have hp : 8 * row + col < 64 := by omega
    simp only [h.luma _ hp, h.cb _ hp, h.cr _ hp, pixOf]

/-- The coordinates and the group of a block whose fields fit: the cursor past them, PAL and MAP after the group. -/
theorem readOperands_ok (at? : Option Coord) {slots : List Slot} (hlen : slots.length ≤ 4) {s : State}
    (h : s.pos + coordBits s.params at? + (slots.map slotBits).sum ≤ s.latched.bitEnd) :
    ∃ w, (readCoords at? s).bind (readGroup 0 slots) = .go
      { s with
        pos := s.pos + coordBits s.params at? + (slots.map slotBits).sum
        window := w
        map := mapAfter s.map 0 slots
        pal := palAfter s.pal slots } := by
  obtain ⟨w1, e1⟩ := readCoords_after at? (s := s) (by omega)
  obtain ⟨w2, e2⟩ := readGroup_ok slots 0 (by simpa using hlen)
    (s := { s with pos := s.pos + coordBits s.params at?, window := w1 }) h
  exact ⟨w2, by rw [e1, Micro.bind_go, e2]; rfl⟩

/-- A VQ block outside 4:2:0 mode whose reads all succeed (R163). -/
theorem vqBlock_reads {at? : Option Coord} {slots : List Slot} {fill : State → Micro} {s u v : State}
    (hm : s.latched.m420 = false) (htag : s.pos + 4 ≤ s.latched.bitEnd)
    (hu : (readCoords at? (advanceCursor 4 s)).bind (readGroup 0 slots) = .go u) (hv : fill u = .go v) :
    vqBlock at? slots fill s = .go (scannerAdvance (convert444 (blockAt at? v).1 (blockAt at? v).2 v)) := by
  have hm' : ¬ (advanceCursor 4 s).latched.m420 = true := by simp [hm]
  rw [vqBlock, readTag, readField_ok htag, Micro.bind_go, if_neg hm', hu, Micro.bind_go, hv, Micro.bind_go]

/-- A block's place depends on the scanner alone, if not on the block. -/
theorem blockAt_congr (at? : Option Coord) {s t : State} (hx : t.sx = s.sx) (hy : t.sy = s.sy) :
    blockAt at? t = blockAt at? s := by
  cases at? with
  | none => simp only [blockAt, hx, hy]
  | some c => rfl

/-- `s` once a VQ block's fields are read and its tile is filled, before the conversion. -/
def tileFilled (at? : Option Coord) (slots : List Slot) (bits : Nat) (color : Nat → Color) (w : Window) (s : State) :
    State :=
  { s with
    pos := s.pos + vqBits s.params at? slots bits
    window := w
    pal := palAfter s.pal slots
    map := mapAfter s.map 0 slots
    scr := putMany color 64 s.scr }

/-- A VQ block that fits its payload, outside 4:2:0 mode (R163): every read succeeds, so the coordinates, the group and
the fill have their exact next states. -/
theorem vqBlock_fits {at? : Option Coord} {slots : List Slot} {bits : Nat} {fill : State → Micro} {color : Nat → Color}
    {s : State} (hm : s.latched.m420 = false) (hlen : slots.length ≤ 4)
    (hfits : s.pos + vqBits s.params at? slots bits ≤ s.latched.bitEnd)
    (hfill : FillDraws s.pal s.map slots bits color fill) :
    ∃ w, vqBlock at? slots fill s = .go (scannerAdvance (convert444 (blockAt at? s).1 (blockAt at? s).2
      (tileFilled at? slots bits color w s))) := by
  have hbits : s.pos + vqBits s.params at? slots bits =
      s.pos + 4 + coordBits s.params at? + (slots.map slotBits).sum + 64 * bits := by
    unfold vqBits
    omega
  obtain ⟨w, hu⟩ := readOperands_ok at? hlen (s := advanceCursor 4 s)
    (by show s.pos + 4 + coordBits s.params at? + (slots.map slotBits).sum ≤ s.latched.bitEnd; omega)
  obtain ⟨w', hv⟩ := hfill
    { s with
      pos := s.pos + 4 + coordBits s.params at? + (slots.map slotBits).sum
      window := w
      pal := palAfter s.pal slots
      map := mapAfter s.map 0 slots }
    rfl rfl (hbits ▸ hfits)
  refine ⟨w', (vqBlock_reads hm (by omega) hu hv).trans ?_⟩
  rw [blockAt_congr at? (s := s) rfl rfl, tileFilled, hbits]
  rfl

/-- A VQ block that fits its payload, outside 4:2:0 mode, completes: what the conversion draws is what the fill left in
the planes. -/
theorem vqBlock_done {at? : Option Coord} {slots : List Slot} {bits : Nat} {fill : State → Micro} {color : Nat → Color}
    {b : Buffer} {s : State} (hm : s.latched.m420 = false) (hbpp : s.latched.bpp = 3 ∨ s.latched.bpp = 4)
    (hwork : s.work = some b) (hlen : slots.length ≤ 4)
    (hfits : s.pos + vqBits s.params at? slots bits ≤ s.latched.bitEnd)
    (hfill : FillDraws s.pal s.map slots bits color fill) :
    ∃ t, vqBlock at? slots fill s = .go t ∧ VqDone at? slots bits color b s t := by
  obtain ⟨w, e⟩ := vqBlock_fits hm hlen hfits hfill
  have hplanes := planesFilled_putMany color s.scr
  have hdrawn := tileDrawn_planes hbpp (blockAt at? s).1 (blockAt at? s).2 hplanes b
  refine ⟨_, e, ?_⟩
  rw [tile_end, convert444_eq, scannerAdvance_sx, scannerAdvance_sy]
  simp only [tileFilled, hwork, Option.map_some]
  exact ⟨⟨_, rfl⟩, hplanes, _, rfl, hdrawn⟩

/-! ### The three fills -/

theorem fillSolid_draws (pal : Vector Color 4) (map : Vector (BitVec 2) 4) (s0 : Slot) :
    FillDraws pal map [s0] 0 (fun _ => colorOf (palAfter pal [s0]) s0) fillSolid := by
  intro u hpal hmap _
  have hcolor : u.palAt (u.mapAt 0) = colorOf (palAfter pal [s0]) s0 := palAt_mapAt hpal hmap (by simp)
  exact ⟨u.window, by rw [fillSolid_eq, hcolor]; rfl⟩

/-- A bitmap draws the colors its fields select, if those are `color`. -/
theorem fillBitmap_draws {pal : Vector Color 4} {map : Vector (BitVec 2) 4} {slots : List Slot} {bits n : Nat}
    (m : BitVec n) {color : Nat → Color}
    (h : ∀ u : State, u.pal = palAfter pal slots → u.map = mapAfter map 0 slots → ∀ p, p < 64 →
      u.palAt (u.mapAt ((bitmapFields bits m).getD p 0)) = color p) :
    FillDraws pal map slots bits color (fillBitmap bits (bitmapFields bits m)) := by
  intro u hpal hmap hfits
  obtain ⟨w, e⟩ := fillBitmap_ok bits m hfits
  exact ⟨w, by rw [e, putMany_congr (h u hpal hmap)]⟩

theorem fillOneBit_draws (pal : Vector Color 4) (map : Vector (BitVec 2) 4) (s0 s1 : Slot) (m : BitVec 64) :
    FillDraws pal map [s0, s1] 1 (fun p => colorOf (palAfter pal [s0, s1]) (select2 s0 s1 m p))
      (fillBitmap 1 (bitmapFields 1 m)) := by
  refine fillBitmap_draws m fun u hpal hmap p hp => ?_
  rw [bitmapFields_one m hp, select2]
  cases m.getMsbD p
  · exact palAt_mapAt (v := 0) hpal hmap (by simp)
  · exact palAt_mapAt (v := 1) hpal hmap (by simp)

theorem fillTwoBit_draws (pal : Vector Color 4) (map : Vector (BitVec 2) 4) (s0 s1 s2 s3 : Slot) (m : BitVec 128) :
    FillDraws pal map [s0, s1, s2, s3] 2 (fun p => colorOf (palAfter pal [s0, s1, s2, s3]) (select4 s0 s1 s2 s3 m p))
      (fillBitmap 2 (bitmapFields 2 m)) := by
  refine fillBitmap_draws m fun u hpal hmap p hp => ?_
  rw [bitmapFields_two m hp, select4]
  cases m.getMsbD (2 * p) <;> cases m.getMsbD (2 * p + 1)
  · exact palAt_mapAt (v := 0) hpal hmap (by simp)
  · exact palAt_mapAt (v := 1) hpal hmap (by simp)
  · exact palAt_mapAt (v := 2) hpal hmap (by simp)
  · exact palAt_mapAt (v := 3) hpal hmap (by simp)

end Sys2Proof.Machine

namespace Sys2Proof

open Machine Claims

/-- Settles O15: slot 0's register is the color of every position. -/
theorem solidBlocksDrawTheirTile : Obligations.SolidBlocksDrawTheirTile := by
  intro at? s0 b s hm hbpp hwork hfits
  obtain ⟨t, e, hdone⟩ := vqBlock_done hm hbpp hwork (by simp) hfits (fillSolid_draws s.pal s.map s0)
  refine ⟨t, ?_, hdone⟩
  cases at? <;> exact congrArg Micro.outcome e

/-- Settles O16: a position's bit names the slot whose register is its color. -/
theorem oneBitBlocksDrawTheirTile : Obligations.OneBitBlocksDrawTheirTile := by
  intro at? s0 s1 bitmap b s hm hbpp hwork hfits
  obtain ⟨t, e, hdone⟩ := vqBlock_done hm hbpp hwork (by simp) hfits (fillOneBit_draws s.pal s.map s0 s1 bitmap)
  refine ⟨t, ?_, hdone⟩
  cases at? <;> exact congrArg Micro.outcome e

/-- Settles O17: a position's two bits name the slot whose register is its color. -/
theorem twoBitBlocksDrawTheirTile : Obligations.TwoBitBlocksDrawTheirTile := by
  intro at? s0 s1 s2 s3 bitmap b s hm hbpp hwork hfits
  obtain ⟨t, e, hdone⟩ := vqBlock_done hm hbpp hwork (by simp) hfits (fillTwoBit_draws s.pal s.map s0 s1 s2 s3 bitmap)
  refine ⟨t, ?_, hdone⟩
  cases at? <;> exact congrArg Micro.outcome e

end Sys2Proof
end

section
/-!
PROOFS. The family of spec 44_block_decoder.md, the VQ blocks that the payload end cuts (O19).
-/

namespace Sys2Proof.Machine

open Claims

/-! ### Reads that the payload end cuts -/

/-- `m`, which makes reads of the widths `ws` from `s` on, is cut by the payload end: it ends in `TruncatedInput` at the
first field that passes it (R260), the cursor before that field, PAL and MAP being `pal` and `map`, and nothing else but
the window and the scratch buffer changed. -/
def CutsIn (s : State) (ws : List Nat) (pal : Vector Color 4) (map : Vector (BitVec 2) 4) (m : Micro) : Prop :=
  ∃ before w after win scr, ws = before ++ w :: after ∧ s.pos + before.sum ≤ s.latched.bitEnd ∧
    s.latched.bitEnd < s.pos + before.sum + w ∧
    m = .ended (takeFault .truncatedInput (s.pos + before.sum)
      { s with pos := s.pos + before.sum, window := win, pal := pal, map := map, scr := scr })

variable {s : State} {ws ws' : List Nat} {pal : Vector Color 4} {map : Vector (BitVec 2) 4} {m : Micro}

/-- What would follow a cut read does not happen. -/
theorem CutsIn.bind (h : CutsIn s ws pal map m) (ws' : List Nat) (f : State → Micro) :
    CutsIn s (ws ++ ws') pal map (m.bind f) := by
  obtain ⟨before, w, after, win, scr, rfl, hle, hlt, rfl⟩ := h
  exact ⟨before, w, after ++ ws', win, scr, by simp, hle, hlt, rfl⟩

/-- Reads that succeeded stand before the ones that are cut. -/
theorem CutsIn.after {p : Vector Color 4} {q : Vector (BitVec 2) 4} {win : Window} {scr : Vector Byte 768}
    (h : CutsIn { s with pos := s.pos + ws.sum, window := win, pal := p, map := q, scr := scr } ws' pal map m) :
    CutsIn s (ws ++ ws') pal map m := by
  obtain ⟨before, w, after, win', scr', rfl, hle, hlt, rfl⟩ := h
  refine ⟨ws ++ before, w, after, win', scr', by simp, ?_, ?_, ?_⟩ <;> rw [List.sum_append, ← Nat.add_assoc]
  · exact hle
  · exact hlt

theorem readField_cutsIn {n : Nat} (hpos : s.pos ≤ s.latched.bitEnd) (h : s.latched.bitEnd < s.pos + n) :
    CutsIn s [n] s.pal s.map (readField n s) :=
  ⟨[], n, [], s.window, s.scr, rfl, hpos, h, readField_cut h⟩

/-- Two fields in a row, of which one is cut. -/
theorem readTwo_cutsIn {a b : Nat} (hpos : s.pos ≤ s.latched.bitEnd) (h : s.latched.bitEnd < s.pos + (a + b)) :
    CutsIn s [a, b] s.pal s.map ((readField a s).bind (readField b)) := by
  rcases readField_cases a s with ⟨hfits, e⟩ | ⟨hcut, -⟩
  · rw [e, Micro.bind_go]
    exact CutsIn.after (ws := [a]) (readField_cutsIn (s := advanceCursor a s) hfits
      (show s.latched.bitEnd < s.pos + a + b by omega))
  · exact (readField_cutsIn hpos hcut).bind [b] _

/-! ### The widths of a block's parts -/

/-- The widths of a slot's index and flag (R142, R143). -/
def headWidths (p : Params) : List Nat :=
  match p.slotOrder with
  | .indexFirst => [2, 1]
  | .flagFirst => [1, 2]

/-- The widths of a slot's reads (R142). -/
def slotWidths (p : Params) (sl : Slot) : List Nat := headWidths p ++ if sl.color.isSome then [24] else []

theorem sum_headWidths (p : Params) : (headWidths p).sum = 3 := by
  unfold headWidths
  cases p.slotOrder <;> rfl

theorem sum_slotWidths (p : Params) (sl : Slot) : (slotWidths p sl).sum = slotBits sl := by
  rw [slotWidths, List.sum_append, sum_headWidths]
  unfold slotBits
  split <;> rfl

theorem sum_groupWidths (p : Params) (slots : List Slot) :
    (slots.flatMap (slotWidths p)).sum = (slots.map slotBits).sum := by
  induction slots with
  | nil => rfl
  | cons sl rest ih => rw [List.flatMap_cons, List.sum_append, ih, sum_slotWidths, List.map_cons, List.sum_cons]

/-- A block's widths are its parts': tag, coordinates, group, bitmap. -/
theorem readWidths_eq (p : Params) (at? : Option Coord) (slots : List Slot) (bits : Nat) :
    readWidths p at? slots bits =
      [4] ++ ((if at?.isSome then [coordBits p at?] else []) ++
        (slots.flatMap (slotWidths p) ++ if bits = 0 then [] else List.replicate 64 bits)) := by
  unfold readWidths slotWidths headWidths
  cases p.slotOrder <;> cases at? <;> simp

/-! ### The parts -/

theorem readSlotHead_cutsIn (hpos : s.pos ≤ s.latched.bitEnd) (h : s.latched.bitEnd < s.pos + 3) :
    CutsIn s (headWidths s.params) s.pal s.map (readSlotHead s) := by
  unfold readSlotHead headWidths
  cases s.params.slotOrder
  · exact readTwo_cutsIn (a := 2) (b := 1) hpos h
  · exact readTwo_cutsIn (a := 1) (b := 2) hpos h

/-- A cut slot (R142, R144): no update, and its mapping only if the cut field is the color. -/
theorem readSlot_cutsIn (j : BitVec 2) (sl : Slot) (hpos : s.pos ≤ s.latched.bitEnd)
    (h : s.latched.bitEnd < s.pos + slotBits sl) :
    CutsIn s (slotWidths s.params sl) s.pal
      (if s.pos + 3 ≤ s.latched.bitEnd then s.map.set j.toNat sl.idx j.isLt else s.map) (readSlot j sl s) := by
  unfold readSlot
  by_cases hhead : s.pos + 3 ≤ s.latched.bitEnd
  · obtain ⟨idx, color⟩ := sl
    cases color with
    | none => exact absurd hhead (by simpa [slotBits] using h)
    | some c =>
      have h27 : s.latched.bitEnd < s.pos + 3 + 24 := by simpa [slotBits] using h
      obtain ⟨w, e⟩ := readSlotHead_ok hhead
      rw [if_pos hhead, e, Micro.bind_go]
      refine CutsIn.after (win := w) (p := s.pal) (q := s.map.set j.toNat idx j.isLt) (scr := s.scr) ?_
      rw [sum_headWidths]
      have hcut := readField_cutsIn (n := 24) (s := State.setMap { s with pos := s.pos + 3, window := w } j idx) hhead h27
      exact hcut.bind [] _
  · rw [if_neg hhead]
    exact (readSlotHead_cutsIn hpos (by omega)).bind _ _

/-- A cut group: the slots before the cut one are complete (R144). -/
theorem readGroup_cutsIn (slots : List Slot) (j : BitVec 2) (hj : j.toNat + slots.length ≤ 4)
    (hpos : s.pos ≤ s.latched.bitEnd) (h : s.latched.bitEnd < s.pos + (slots.map slotBits).sum) :
    CutsIn s (slots.flatMap (slotWidths s.params))
      (palAfter s.pal (slotsComplete (s.latched.bitEnd - s.pos) slots))
      (mapAfter s.map j.toNat (slotsHeaded (s.latched.bitEnd - s.pos) slots)) (readGroup j slots s) := by
  induction slots generalizing j s with
  | nil => exact absurd hpos (by simpa using h)
  | cons sl rest ih =>
    have h3 := three_le_slotBits sl
    simp only [List.map_cons, List.sum_cons, List.length_cons] at h hj
    rw [readGroup, List.flatMap_cons, slotsComplete, slotsHeaded]
    by_cases hsl : s.pos + slotBits sl ≤ s.latched.bitEnd
    · rw [if_pos (by omega), if_pos (by omega), if_pos (by omega), palAfter_cons, mapAfter_cons,
        show s.latched.bitEnd - s.pos - slotBits sl = s.latched.bitEnd - (s.pos + slotBits sl) by omega]
      have hrest : 1 ≤ rest.length := by
        by_contra hnil
        have : rest = [] := List.length_eq_zero_iff.mp (by omega)
        subst this
        simp only [List.map_nil, List.sum_nil] at h
        omega
      obtain ⟨w, e⟩ := readSlot_after j sl hsl
      rw [e, Micro.bind_go]
      refine CutsIn.after (win := w) (p := palAfter s.pal [sl]) (q := mapAfter s.map j.toNat [sl]) (scr := s.scr) ?_
      rw [sum_slotWidths]
      have hj1 : (j + 1).toNat = j.toNat + 1 := by bv_omega
      have hcut := ih (j + 1) (by omega) (s := { s with
          pos := s.pos + slotBits sl, window := w, map := mapAfter s.map j.toNat [sl], pal := palAfter s.pal [sl] })
        hsl (show s.latched.bitEnd < s.pos + slotBits sl + _ by omega)
      rw [hj1] at hcut
      exact hcut
    · have hsl' : ¬ slotBits sl ≤ s.latched.bitEnd - s.pos := by omega
      rw [if_neg hsl', if_neg hsl']
      have hmap : mapAfter s.map j.toNat (if 3 ≤ s.latched.bitEnd - s.pos then [sl] else []) =
          if s.pos + 3 ≤ s.latched.bitEnd then s.map.set j.toNat sl.idx j.isLt else s.map := by
        by_cases hhead : s.pos + 3 ≤ s.latched.bitEnd
        · rw [if_pos hhead, if_pos (by omega), mapAfter, mapAfter, setIfInBounds_eq_set _ _ _ j.isLt]
        · rw [if_neg hhead, if_neg (by omega), mapAfter]
      rw [hmap]
      exact (readSlot_cutsIn j sl hpos (by omega)).bind _ _

/-- A cut bitmap: neither PAL nor MAP is written any more. -/
theorem fillBitmapFrom_cutsIn {bits : Nat} (fields : List (BitVec 2)) (p : Nat) (hpos : s.pos ≤ s.latched.bitEnd)
    (h : s.latched.bitEnd < s.pos + bits * fields.length) :
    CutsIn s (List.replicate fields.length bits) s.pal s.map (fillBitmapFrom bits p fields s) := by
  induction fields generalizing p s with
  | nil => exact absurd hpos (by simpa using h)
  | cons v rest ih =>
    rw [List.length_cons, Nat.mul_succ] at h
    rw [fillBitmapFrom, List.length_cons, List.replicate_succ, ← List.singleton_append]
    rcases readField_cases bits s with ⟨hfits, e⟩ | ⟨hcut, -⟩
    · rw [e, Micro.bind_go]
      exact CutsIn.after (ws := [bits]) (ih (p + 1)
        (s := { advanceCursor bits s with
          scr := putTile p ((advanceCursor bits s).palAt ((advanceCursor bits s).mapAt v)) (advanceCursor bits s).scr })
        hfits (show s.latched.bitEnd < s.pos + bits + bits * rest.length by omega))
    · exact (readField_cutsIn hpos hcut).bind _ _

/-- A cut tile fill is a cut bitmap: a solid fill reads nothing. -/
theorem fill_cutsIn {bits : Nat} {fill : State → Micro} (hf : FillsTile bits fill) (hpos : s.pos ≤ s.latched.bitEnd)
    (h : s.latched.bitEnd < s.pos + 64 * bits) :
    CutsIn s (if bits = 0 then [] else List.replicate 64 bits) s.pal s.map (fill s) := by
  rcases hf with ⟨rfl, -⟩ | ⟨hb, -, fields, hlen, rfl⟩
  · exact absurd hpos (by omega)
  · have hcut := fillBitmapFrom_cutsIn fields 0 hpos (bits := bits) (by rw [hlen]; omega)
    rw [hlen] at hcut
    rw [if_neg (by omega)]
    exact hcut

theorem slotsComplete_zero (slots : List Slot) : slotsComplete 0 slots = [] := by
  cases slots with
  | nil => rfl
  | cons sl rest =>
    have := three_le_slotBits sl
    rw [slotsComplete, if_neg (by omega)]

theorem slotsHeaded_zero (slots : List Slot) : slotsHeaded 0 slots = [] := by
  cases slots <;> rfl

/-- A group that fits is complete. -/
theorem slotsComplete_of_le {avail : Nat} {slots : List Slot} (h : (slots.map slotBits).sum ≤ avail) :
    slotsComplete avail slots = slots := by
  induction slots generalizing avail with
  | nil => rfl
  | cons sl rest ih =>
    rw [List.map_cons, List.sum_cons] at h
    rw [slotsComplete, if_pos (by omega), ih (by omega)]

theorem slotsHeaded_of_le {avail : Nat} {slots : List Slot} (h : (slots.map slotBits).sum ≤ avail) :
    slotsHeaded avail slots = slots := by
  induction slots generalizing avail with
  | nil => rfl
  | cons sl rest ih =>
    have := three_le_slotBits sl
    rw [List.map_cons, List.sum_cons] at h
    rw [slotsHeaded, if_pos (by omega), if_pos (by omega), ih (by omega)]

/-- A cut coordinate field leaves nothing for the group. -/
theorem readCoords_cutsIn (at? : Option Coord) (hpos : s.pos ≤ s.latched.bitEnd)
    (h : s.latched.bitEnd < s.pos + coordBits s.params at?) :
    CutsIn s (if at?.isSome then [coordBits s.params at?] else []) s.pal s.map (readCoords at? s) := by
  cases at? with
  | none => exact absurd hpos (by simpa [coordBits] using h)
  | some c =>
    rw [← coordWidth_eq_coordBits] at h ⊢
    exact readField_cutsIn hpos h

/-- The sum of the coordinate field's widths is its width. -/
theorem sum_coordWidths (p : Params) (at? : Option Coord) :
    (if at?.isSome then [coordBits p at?] else []).sum = coordBits p at? := by
  cases at? <;> simp [coordBits]

/-! ### The block -/

/-- The group and the fill, of which one is cut. -/
theorem groupFill_cutsIn {slots : List Slot} {bits : Nat} {fill : State → Micro} (hf : FillsTile bits fill)
    (hlen : slots.length ≤ 4) (hpos : s.pos ≤ s.latched.bitEnd)
    (h : s.latched.bitEnd < s.pos + (slots.map slotBits).sum + 64 * bits) (f : State → Micro) :
    CutsIn s (slots.flatMap (slotWidths s.params) ++ if bits = 0 then [] else List.replicate 64 bits)
      (palAfter s.pal (slotsComplete (s.latched.bitEnd - s.pos) slots))
      (mapAfter s.map 0 (slotsHeaded (s.latched.bitEnd - s.pos) slots))
      ((readGroup 0 slots s).bind fun t => (fill t).bind f) := by
  by_cases hgroup : s.pos + (slots.map slotBits).sum ≤ s.latched.bitEnd
  · obtain ⟨w, e⟩ := readGroup_ok slots 0 (by simpa using hlen) hgroup
    rw [slotsComplete_of_le (by omega), slotsHeaded_of_le (by omega), e, Micro.bind_go]
    refine CutsIn.after (win := w) (p := palAfter s.pal slots) (q := mapAfter s.map 0 slots) (scr := s.scr) ?_
    rw [sum_groupWidths]
    have hcut := fill_cutsIn hf hgroup h (s := { s with
      pos := s.pos + (slots.map slotBits).sum, window := w, pal := palAfter s.pal slots, map := mapAfter s.map 0 slots })
    simpa using hcut.bind [] f
  · exact (readGroup_cutsIn slots 0 (by simpa using hlen) hpos (by omega)).bind _ _

/-- All that follows the tag, of which one part is cut. -/
theorem operandsFill_cutsIn (at? : Option Coord) {slots : List Slot} {bits : Nat} {fill : State → Micro}
    (hf : FillsTile bits fill) (hlen : slots.length ≤ 4) (hpos : s.pos ≤ s.latched.bitEnd)
    (h : s.latched.bitEnd < s.pos + coordBits s.params at? + (slots.map slotBits).sum + 64 * bits) (f : State → Micro) :
    CutsIn s ((if at?.isSome then [coordBits s.params at?] else []) ++
        (slots.flatMap (slotWidths s.params) ++ if bits = 0 then [] else List.replicate 64 bits))
      (palAfter s.pal (slotsComplete (s.latched.bitEnd - (s.pos + coordBits s.params at?)) slots))
      (mapAfter s.map 0 (slotsHeaded (s.latched.bitEnd - (s.pos + coordBits s.params at?)) slots))
      (((readCoords at? s).bind (readGroup 0 slots)).bind fun t => (fill t).bind f) := by
  rw [Micro.bind_assoc]
  by_cases hcoord : s.pos + coordBits s.params at? ≤ s.latched.bitEnd
  · obtain ⟨w, e⟩ := readCoords_after at? hcoord
    rw [e, Micro.bind_go]
    refine CutsIn.after (win := w) (p := s.pal) (q := s.map) (scr := s.scr) ?_
    rw [sum_coordWidths]
    exact groupFill_cutsIn hf hlen hcoord h f (s := { s with pos := s.pos + coordBits s.params at?, window := w })
  · rw [show s.latched.bitEnd - (s.pos + coordBits s.params at?) = 0 by omega, slotsComplete_zero, slotsHeaded_zero]
    exact (readCoords_cutsIn at? hpos (by omega)).bind _ _

/-- A VQ block that the payload end cuts (R260, R144): the first of its parts that does not fit is cut. -/
theorem vqBlock_cutsIn {at? : Option Coord} {slots : List Slot} {bits : Nat} {fill : State → Micro}
    (hf : FillsTile bits fill) (hm : s.latched.m420 = false) (hlen : slots.length ≤ 4) (hpos : s.pos ≤ s.latched.bitEnd)
    (h : s.latched.bitEnd < s.pos + vqBits s.params at? slots bits) :
    CutsIn s (readWidths s.params at? slots bits)
      (palAfter s.pal (slotsComplete (s.latched.bitEnd - (s.pos + 4 + coordBits s.params at?)) slots))
      (mapAfter s.map 0 (slotsHeaded (s.latched.bitEnd - (s.pos + 4 + coordBits s.params at?)) slots))
      (vqBlock at? slots fill s) := by
  unfold vqBits at h
  rw [readWidths_eq, vqBlock, readTag]
  by_cases htag : s.pos + 4 ≤ s.latched.bitEnd
  · have hm' : ¬ (advanceCursor 4 s).latched.m420 = true := by simp [hm]
    rw [readField_ok htag, Micro.bind_go, if_neg hm']
    exact CutsIn.after (ws := [4]) (operandsFill_cutsIn at? hf hlen htag
      (show s.latched.bitEnd < s.pos + 4 + coordBits s.params at? + (slots.map slotBits).sum + 64 * bits by omega) _
      (s := advanceCursor 4 s))
  · rw [show s.latched.bitEnd - (s.pos + 4 + coordBits s.params at?) = 0 by omega, slotsComplete_zero, slotsHeaded_zero]
    exact (readField_cutsIn hpos (by omega)).bind _ _

theorem length_slots_le {i : Instr} {at? : Option Coord} {slots : List Slot} {bits : Nat}
    (h : vqOperands i = some (at?, slots, bits)) : slots.length ≤ 4 := by
  cases i <;> cases h <;> simp

end Sys2Proof.Machine

namespace Sys2Proof

open Machine Claims

/-- Settles O19: the block's reads are cut in one of its parts, and the parts before it are complete. -/
theorem cutVqBlocksFaultTruncatedInput : Obligations.CutVqBlocksFaultTruncatedInput := by
  intro i at? slots bits s hv hm hpos hcut
  obtain ⟨fill, hf, e⟩ := exec_vq hv
  obtain ⟨before, w, after, win, scr, hwidths, hle, hlt, hblock⟩ := vqBlock_cutsIn hf hm (length_slots_le hv) hpos hcut
  refine ⟨_, before, w, after, hwidths, hle, hlt, (e s).trans (congrArg Micro.outcome hblock), ?_⟩
  rw [Micro.state_ended, takeFault_eq_faulted (by decide)]
  rfl

end Sys2Proof
end

section
/-!
PROOFS. The family of spec 44_block_decoder.md, rules over every block: its frame (O20), what a fault records (O21), and
that neither the quantization tables nor old scratch contents reach anything (O22, O23).
-/

namespace Sys2Proof.Machine

open Claims

/-! ### The frame of a block -/

/-- What every block leaves as it was, and the bounds of its cursor. -/
structure WithinFrame (s t : State) : Prop where
  forward : s.pos ≤ t.pos
  within  : t.pos ≤ s.latched.bitEnd
  params  : t.params = s.params
  latched : t.latched = s.latched
  qt      : t.qt = s.qt
  desc    : t.desc = s.desc
  payload : t.payload = s.payload
  draws   : t.draws = s.draws
  host    : t.host = s.host
  rdata   : t.rdata = s.rdata
  scratch : ∀ p, 384 ≤ p → scrAt t.scr p = scrAt s.scr p

theorem withinFrame_refl {s : State} (h : s.pos ≤ s.latched.bitEnd) : WithinFrame s s :=
  ⟨Nat.le_refl _, h, rfl, rfl, rfl, rfl, rfl, rfl, rfl, rfl, fun _ _ => rfl⟩

theorem WithinFrame.advance {s t : State} {n : Nat} (h : WithinFrame s t) (hb : t.pos + n ≤ t.latched.bitEnd) :
    WithinFrame s (advanceCursor n t) :=
  { h with
    forward := Nat.le_add_right_of_le h.forward
    within := by rw [h.latched] at hb; exact hb }

/-- A tile position's samples lie below 192 (R148). -/
theorem scrAt_putTile_above (p : Nat) (c : Color) (scr : Vector Byte 768) {q : Nat} (hq : 192 ≤ q) :
    scrAt (putTile p c scr) q = scrAt scr q := by
  by_cases hp : p < 64
  · rw [scrAt_putTile p hp, if_neg (by omega), if_neg (by omega), if_neg (by omega)]
  · rw [putTile, dif_neg hp]

theorem withinFrame_kept (s : State) : KeptByFields (WithinFrame s) where
  cursor _ _ _ hb h := h.advance hb
  mapping _ _ _ h := { h with }
  palette _ _ _ h := { h with }
  scratch p c t h :=
    { h with scratch := fun q hq => (scrAt_putTile_above p c t.scr (by omega)).trans (h.scratch q hq) }

/-- Every block takes a step within its frame: its fields keep to the frame, and so do its ends. -/
theorem exec_withinFrame (i : Instr) {s : State} (h : s.pos ≤ s.latched.bitEnd) :
    ∃ t, exec i s = .next t ∧ WithinFrame s t :=
  exec_all (withinFrame_kept s) (fun _ hu => { hu with }) i
    (fun hfits => (withinFrame_refl h).advance hfits)
    (fun _ => { withinFrame_refl h with })
    (fun _ _ hfits => { (withinFrame_refl h).advance hfits with })
    (fun hfits => { (withinFrame_refl h).advance hfits with })
    (fun u x y hu => by rw [tile_end]; exact { hu with })

/-! ### What a fault records -/

/-- What a block's fault records (R242, R262), `s` being the state at the block's start. -/
structure FaultRecorded (s t : State) : Prop where
  code      : t.errCode = .truncatedInput ∨ t.errCode = .unknownBlockTag ∨ t.errCode = .unsupportedBlockKind
  position  : ∃ p, s.pos ≤ p ∧ p ≤ s.latched.bitEnd ∧
    t.errWord = BitVec.ofNat 32 (p / 32) ∧ t.errBit = BitVec.ofNat 32 (p % 32)
  scanner   : t.errMb = BitVec.ofNat 16 s.sy ++ BitVec.ofNat 16 s.sx
  work      : t.work = none
  pub       : t.pub = s.pub
  endReason : t.endReason = s.endReason
  sx        : t.sx = s.sx
  sy        : t.sy = s.sy

/-- An error of a block taken within the payload, where the scanner and what was published are the block's. -/
theorem faultRecorded_takeFault {s u : State} {code : ErrCode} {p : Nat}
    (hc : code = .truncatedInput ∨ code = .unknownBlockTag ∨ code = .unsupportedBlockKind) (hp : s.pos ≤ p)
    (hp' : p ≤ s.latched.bitEnd) (hpub : u.pub = s.pub) (hr : u.endReason = s.endReason) (hx : u.sx = s.sx)
    (hy : u.sy = s.sy) : FaultRecorded s (takeFault code p u) := by
  have hne : code ≠ .headerInconsistent := by rcases hc with rfl | rfl | rfl <;> decide
  rw [takeFault_eq_faulted hne]
  exact ⟨hc, ⟨p, hp, hp', rfl, rfl⟩, by rw [← hx, ← hy]; rfl, rfl, hpub, hr, hx, hy⟩

/-- A block of a running DECODE that leaves ERROR has recorded its error. -/
theorem exec_faultRecorded {i : Instr} {s t : State} (hb : s.phase = .busy) (hpos : s.pos ≤ s.latched.bitEnd)
    (h : exec i s = .next t) (he : t.phase = .error) : FaultRecorded s t := by
  obtain ⟨t', e, hq⟩ := exec_all (P := FieldsRead s) (Q := fun t => t.phase = .error → FaultRecorded s t)
    (fieldsRead_kept s)
    (fun u hu _ => faultRecorded_takeFault (.inl rfl) (by have := hu.forward; omega) hu.within hu.pub hu.endReason
      hu.sx hu.sy) i
    fieldsRead_tag
    (fun _ _ => faultRecorded_takeFault (.inl rfl) (Nat.le_refl _) hpos rfl rfl rfl rfl)
    (fun _ hc _ _ => faultRecorded_takeFault (.inr hc) (Nat.le_refl _) hpos rfl rfl rfl rfl)
    (fun _ hready => nomatch hready)
    (fun u x y hu herr => by simp [hu.phase, hb] at herr)
  rw [h] at e
  cases e
  exact hq he

/-! ### Two runs that differ in the tables and the scratch buffer -/

/-- `s'` is `s` but for the quantization tables, which are `q`, and the scratch buffer, which agrees on the set `A`. -/
def SameBut (q : Vector (Vector (BitVec 25) 64) 4) (A : Nat → Prop) (s s' : State) : Prop :=
  ∃ c, s' = { s with qt := q, scr := c } ∧ ∀ p, A p → scrAt c p = scrAt s.scr p

/-- Two runs of a part of a block that go the same way, to states related by `P` or by `Q`. -/
def Micro.Rel (P Q : State → State → Prop) : Micro → Micro → Prop
  | .go s, .go s' => P s s'
  | .ended s, .ended s' => Q s s'
  | _, _ => False

theorem Micro.Rel.bind {P P' Q : State → State → Prop} {m m' : Micro} {f f' : State → Micro} (h : m.Rel P Q m')
    (hf : ∀ s s', P s s' → (f s).Rel P' Q (f' s')) : (m.bind f).Rel P' Q (m'.bind f') := by
  cases m <;> cases m'
  case go.go s s' => exact hf s s' h
  case ended.ended s s' => exact h
  all_goals exact h.elim

section

variable {q : Vector (Vector (BitVec 25) 64) 4} {A B : Nat → Prop} {s s' : State}

theorem SameBut.mono (h : SameBut q A s s') (hB : ∀ p, B p → A p) : SameBut q B s s' := by
  obtain ⟨c, rfl, hc⟩ := h
  exact ⟨c, rfl, fun p hp => hc p (hB p hp)⟩

theorem SameBut.takeFault (h : SameBut q A s s') (code : ErrCode) (p : Nat) :
    SameBut q A (takeFault code p s) (takeFault code p s') := by
  obtain ⟨c, rfl, hc⟩ := h
  exact ⟨c, rfl, hc⟩

theorem readField_rel (n : Nat) (h : SameBut q A s s') :
    (readField n s).Rel (SameBut q A) (SameBut q A) (readField n s') := by
  obtain ⟨c, rfl, hc⟩ := h
  rcases readField_cases n s with ⟨hfits, e⟩ | ⟨hcut, e⟩
  · rw [e, readField_ok (s := { s with qt := q, scr := c }) hfits]
    exact ⟨c, rfl, hc⟩
  · rw [e, readField_cut (s := { s with qt := q, scr := c }) hcut]
    exact ⟨c, rfl, hc⟩

theorem readCoords_rel (at? : Option Coord) (h : SameBut q A s s') :
    (readCoords at? s).Rel (SameBut q A) (SameBut q A) (readCoords at? s') := by
  cases at? with
  | none => exact h
  | some x =>
    have e : s'.params = s.params := by obtain ⟨c, rfl, -⟩ := h; rfl
    rw [readCoords, readCoords, e]
    exact readField_rel _ h

theorem readSlotHead_rel (h : SameBut q A s s') :
    (readSlotHead s).Rel (SameBut q A) (SameBut q A) (readSlotHead s') := by
  have e : s'.params = s.params := by obtain ⟨c, rfl, -⟩ := h; rfl
  rw [readSlotHead, readSlotHead, e]
  cases s.params.slotOrder <;> exact (readField_rel _ h).bind fun _ _ ht => readField_rel _ ht

theorem readSlot_rel (j : BitVec 2) (sl : Slot) (h : SameBut q A s s') :
    (readSlot j sl s).Rel (SameBut q A) (SameBut q A) (readSlot j sl s') := by
  obtain ⟨idx, color⟩ := sl
  refine (readSlotHead_rel h).bind fun t t' ht => ?_
  have hmap : SameBut q A (State.setMap t j idx) (State.setMap t' j idx) := by
    obtain ⟨c, rfl, hc⟩ := ht
    exact ⟨c, rfl, hc⟩
  cases color with
  | none => exact hmap
  | some col =>
    refine (readField_rel 24 hmap).bind fun u u' hu => ?_
    obtain ⟨c, rfl, hc⟩ := hu
    exact ⟨c, rfl, hc⟩

theorem readGroup_rel (slots : List Slot) (j : BitVec 2) (h : SameBut q A s s') :
    (readGroup j slots s).Rel (SameBut q A) (SameBut q A) (readGroup j slots s') := by
  induction slots generalizing j s s' with
  | nil => exact h
  | cons sl rest ih => exact (readSlot_rel j sl h).bind fun t t' ht => ih (j + 1) ht

/-- `A` and the samples of the tile positions below `n`. -/
def withPut (n : Nat) (A : Nat → Prop) : Nat → Prop := fun x => A x ∨ (x < 192 ∧ x % 64 < n)

/-- A position put with the same color in both runs agrees from then on. -/
theorem SameBut.put {n : Nat} (hn : n < 64) (c : Color) (h : SameBut q (withPut n A) s s') :
    SameBut q (withPut (n + 1) A) { s with scr := putTile n c s.scr } { s' with scr := putTile n c s'.scr } := by
  obtain ⟨scr, rfl, hscr⟩ := h
  refine ⟨_, rfl, fun x hx => ?_⟩
  rw [scrAt_putTile n hn, scrAt_putTile n hn]
  by_cases h1 : x = n
  · rw [if_pos h1, if_pos h1]
  by_cases h2 : x = 64 + n
  · rw [if_neg h1, if_pos h2, if_neg h1, if_pos h2]
  by_cases h3 : x = 128 + n
  · rw [if_neg h1, if_neg h2, if_pos h3, if_neg h1, if_neg h2, if_pos h3]
  · rw [if_neg h1, if_neg h2, if_neg h3, if_neg h1, if_neg h2, if_neg h3]
    exact hscr x (hx.imp_right fun hput => ⟨hput.1, by omega⟩)

theorem SameBut.putMany {n : Nat} (hn : n ≤ 64) (color : Nat → Color) (h : SameBut q A s s') :
    SameBut q (withPut n A) { s with scr := putMany color n s.scr } { s' with scr := putMany color n s'.scr } := by
  induction n with
  | zero => exact h.mono fun p hp => hp.resolve_right fun hput => absurd hput.2 (Nat.not_lt_zero _)
  | succ n ih =>
    rw [putMany_succ, putMany_succ]
    exact (ih (by omega)).put hn (color n)

/-- What a field selects does not depend on the tables or the scratch buffer. -/
theorem SameBut.palAt_mapAt (h : SameBut q A s s') (v : BitVec 2) : s'.palAt (s'.mapAt v) = s.palAt (s.mapAt v) := by
  obtain ⟨c, rfl, -⟩ := h
  rfl

theorem fillBitmapFrom_rel (bits : Nat) (fields : List (BitVec 2)) (p : Nat) (hp : p + fields.length = 64)
    (h : SameBut q (withPut p A) s s') :
    (fillBitmapFrom bits p fields s).Rel (SameBut q (withPut 64 A)) (SameBut q A) (fillBitmapFrom bits p fields s') := by
  induction fields generalizing p s s' with
  | nil =>
    rw [List.length_nil, Nat.add_zero] at hp
    rw [hp] at h
    exact h
  | cons v rest ih =>
    rw [List.length_cons] at hp
    rw [fillBitmapFrom, fillBitmapFrom]
    rcases readField_cases bits s with ⟨hfits, e⟩ | ⟨hcut, e⟩ <;> have hr := readField_rel bits h <;> rw [e] at hr ⊢
    · cases e' : readField bits s' with
      | ended u' => rw [e'] at hr; exact hr.elim
      | go u' =>
        rw [e'] at hr
        have hput := SameBut.put (by omega) ((advanceCursor bits s).palAt ((advanceCursor bits s).mapAt v)) hr
        rw [Micro.bind_go, Micro.bind_go, SameBut.palAt_mapAt hr]
        exact ih (p + 1) (by omega) hput
    · cases e' : readField bits s' with
      | go u' => rw [e'] at hr; exact hr.elim
      | ended u' =>
        rw [e'] at hr
        exact SameBut.mono hr fun _ hx => .inl hx

/-- A tile fill leaves the 4:4:4 planes alike, whatever they held. -/
theorem fill_rel {bits : Nat} {fill : State → Micro} (hf : FillsTile bits fill) (h : SameBut q A s s') :
    (fill s).Rel (SameBut q (withPut 64 A)) (SameBut q A) (fill s') := by
  rcases hf with ⟨-, rfl⟩ | ⟨-, -, fields, hlen, rfl⟩
  · rw [fillSolid_eq, fillSolid_eq, h.palAt_mapAt]
    exact h.putMany (Nat.le_refl _) _
  · exact fillBitmapFrom_rel bits fields 0 (by omega)
      (h.mono fun p hp => hp.resolve_right fun hput => absurd hput.2 (Nat.not_lt_zero _))

theorem drawMany_congr (l : Latched) (X Y : Nat → Nat) {px px' : Nat → Pixel} {n : Nat} (h : ∀ p, p < n → px p = px' p)
    (b : Buffer) : drawMany l X Y px n b = drawMany l X Y px' n b := by
  refine List.foldl_ext _ _ _ fun b p hp => ?_
  rw [h p (List.mem_range.mp hp)]

/-- The conversion reads the three planes alone. -/
theorem SameBut.tile (h : SameBut q (withPut 64 A) s s') (x y : Nat) :
    SameBut q A (scannerAdvance (convert444 x y s)) (scannerAdvance (convert444 x y s')) := by
  obtain ⟨c, rfl, hc⟩ := h
  have hscr : ∀ p, p < 192 → scrAt c p = scrAt s.scr p := fun p hp => hc p (.inr ⟨hp, by omega⟩)
  have hwork : (convert444 x y { s with qt := q, scr := c }).work = (convert444 x y s).work := by
    rw [convert444_eq, convert444_eq]
    refine congrArg (Option.map · s.work) (funext fun b => drawMany_congr _ _ _ (fun p hp => ?_) b)
    rw [hscr p (by omega), hscr (64 + p) (by omega), hscr (128 + p) (by omega)]
  rw [tile_end, tile_end, hwork]
  refine ⟨c, ?_, fun p hp => hc p (.inl hp)⟩
  simp only [scannerAdvance_sx, scannerAdvance_sy]

theorem vqBlock_rel (at? : Option Coord) (slots : List Slot) {bits : Nat} {fill : State → Micro}
    (hf : FillsTile bits fill) (h : SameBut q A s s') :
    (vqBlock at? slots fill s).Rel (SameBut q A) (SameBut q A) (vqBlock at? slots fill s') := by
  have hpos : s'.pos = s.pos := by obtain ⟨c, rfl, -⟩ := h; rfl
  rw [vqBlock, vqBlock, hpos]
  refine (readField_rel 4 h).bind fun t t' ht => ?_
  have hm : t'.latched = t.latched := by obtain ⟨c, rfl, -⟩ := ht; rfl
  rw [hm]
  split
  · exact ht.takeFault _ _
  refine ((readCoords_rel at? ht).bind fun _ _ hu => readGroup_rel slots 0 hu).bind fun _ _ hu => ?_
  refine (fill_rel hf hu).bind fun v v' hv => ?_
  have hat : blockAt at? v' = blockAt at? v := by
    obtain ⟨c, rfl, -⟩ := hv
    exact blockAt_congr at? rfl rfl
  rw [hat]
  exact hv.tile _ _

theorem faultingTag_rel (code : ErrCode) (h : SameBut q A s s') :
    (faultingTag code s).Rel (SameBut q A) (SameBut q A) (faultingTag code s') := by
  have hpos : s'.pos = s.pos := by obtain ⟨c, rfl, -⟩ := h; rfl
  rw [faultingTag, faultingTag, hpos]
  exact (readField_rel 4 h).bind fun _ _ ht => ht.takeFault _ _

theorem endingTag_rel (h : SameBut q A s s') :
    (endingTag s).Rel (SameBut q A) (SameBut q A) (endingTag s') := by
  refine (readField_rel 4 h).bind fun t t' ht => ?_
  obtain ⟨c, rfl, hc⟩ := ht
  exact ⟨c, rfl, hc⟩

theorem Micro.Rel.state {P : State → State → Prop} {m m' : Micro} (h : m.Rel P P m') : P m.state m'.state := by
  cases m <;> cases m'
  case go.go => exact h
  case ended.ended => exact h
  all_goals exact h.elim

/-- A block makes of two states that differ in the tables and the scratch buffer two states that differ in no more. -/
theorem exec_rel (i : Instr) (h : SameBut q A s s') :
    ∃ t t', exec i s = .next t ∧ exec i s' = .next t' ∧ SameBut q A t t' := by
  cases hv : vqOperands i with
  | some o =>
    obtain ⟨fill, hf, e⟩ := exec_vq hv
    exact ⟨_, _, e s, e s', (vqBlock_rel _ _ hf h).state⟩
  | none =>
    rcases tag_of_vqOperands_none hv with hi | hi | hi
    · exact ⟨_, _, exec_transformTag hi s, exec_transformTag hi s', (faultingTag_rel _ h).state⟩
    · exact ⟨_, _, exec_unknownTag hi s, exec_unknownTag hi s', (faultingTag_rel _ h).state⟩
    · exact ⟨_, _, exec_endingTag hi s, exec_endingTag hi s', (endingTag_rel h).state⟩

end

/-- A scratch buffer is what its entries are. -/
theorem scr_eq_of_scrAt {a b : Vector Byte 768} (h : ∀ p, scrAt a p = scrAt b p) : a = b := by
  refine Vector.ext fun p hp => ?_
  simpa [scrAt, hp] using h p

theorem BlockLeaves.qt {s t : State} (h : BlockLeaves s t) : t.qt = s.qt := by
  cases h with
  | faulted code p u _ hu =>
    rcases hu with rfl | hu
    · rfl
    · exact hu.qt
  | finished => rfl
  | drawn u x y hu => simpa using hu.qt

end Sys2Proof.Machine

namespace Sys2Proof

open Machine Claims

/-- Settles O20: the frame is kept by a block's fields and by its ends. -/
theorem everyBlockTakesAStepWithinItsFrame : Obligations.EveryBlockTakesAStepWithinItsFrame := by
  intro i s hpos
  obtain ⟨t, e, h⟩ := exec_withinFrame i hpos
  exact ⟨t, e, h.forward, h.within, h.params, h.latched, h.qt, h.desc, h.payload, h.draws, h.host, h.rdata, h.scratch⟩

/-- Settles O21: each way into ERROR is an error taken within the payload, before the scanner moves. -/
theorem faultedBlocksPublishNothing : Obligations.FaultedBlocksPublishNothing := by
  intro i s t hb hpos e herr
  have h := exec_faultRecorded hb hpos e herr
  exact ⟨h.code, h.position, h.scanner, h.work, h.pub, h.endReason, h.sx, h.sy⟩

/-- Settles O22: two runs that differ in the tables alone go on to differ in the tables alone. -/
theorem noBlockReadsTheQuantizationTables : Obligations.NoBlockReadsTheQuantizationTables := by
  intro i s q
  obtain ⟨t, t', e, e', c, rfl, hc⟩ := exec_rel (q := q) (A := fun _ => True) i (s := s) ⟨s.scr, rfl, fun _ _ => rfl⟩
  have hscr : c = t.scr := scr_eq_of_scrAt fun p => hc p trivial
  subst hscr
  rw [e]
  exact e'

/-- Settles O23: two runs that differ in the scratch buffer go on to differ in the scratch buffer alone, since a fill
writes the planes before the conversion reads them. -/
theorem noBlockReadsStaleScratch : Obligations.NoBlockReadsStaleScratch := by
  intro i s scr
  obtain ⟨t, t', e, e', c, rfl, -⟩ := exec_rel (q := s.qt) (A := fun _ => False) i (s := s) ⟨scr, rfl, nofun⟩
  refine ⟨t, _, e, e', ?_⟩
  rw [← (exec_leaves e).qt]

end Sys2Proof
end

section
/-!
PROOFS. The family of spec 45_color_converter.md: the ROM (O24, O25), the clamp (O26), the sums (O27), the pixel (O28) and
the 4:2:0 conversion (O29).
-/

namespace Sys2Proof.Machine

open Claims

/-! ### The coefficient tables, entry by entry -/

theorem ytab_eq (i : Byte) :
    Rom.at Rom.ytab i = asr (roundRat (1164 * ((i.toNat : Int) - 16) * 65536) 1000) 16 ∧
      Rom.at Rom.ytab i = 1164 * ((i.toNat : Int) - 16) / 1000 := by
  revert i
  decide +kernel

theorem crToR_eq (i : Byte) :
    Rom.at Rom.crToR i = asr (roundRat (1597656 * ((i.toNat : Int) - 128) * 65536) 1000000) 16 ∧
      Rom.at Rom.crToR i = 1597656 * ((i.toNat : Int) - 128) / 1000000 := by
  revert i
  decide +kernel

theorem cbToB_eq (i : Byte) :
    Rom.at Rom.cbToB i = asr (roundRat (2015625 * ((i.toNat : Int) - 128) * 65536) 1000000) 16 ∧
      Rom.at Rom.cbToB i = 2015625 * ((i.toNat : Int) - 128) / 1000000 := by
  revert i
  decide +kernel

theorem crToG_eq (i : Byte) :
    Rom.at Rom.crToG i = asr (roundRat (-8125 * ((i.toNat : Int) - 128) * 65536) 10000) 16 ∧
      Rom.at Rom.crToG i = -8125 * ((i.toNat : Int) - 128) / 10000 := by
  revert i
  decide +kernel

theorem cbToG_eq (i : Byte) :
    Rom.at Rom.cbToG i = asr (roundRat (-390625 * ((i.toNat : Int) - 128) * 65536) 1000000) 16 ∧
      Rom.at Rom.cbToG i = -390625 * ((i.toNat : Int) - 128) / 1000000 := by
  revert i
  decide +kernel

/-! ### The range-limit table and the clamp -/

theorem rangeLimit_low {i : Nat} (h : i < 256) : Rom.rangeLimit i = 0 := if_pos h

theorem toNat_rangeLimit_ramp {i : Nat} (h : 256 ≤ i) (h' : i < 512) : (Rom.rangeLimit i).toNat = i - 256 := by
  rw [Rom.rangeLimit, if_neg (by omega), if_pos h', BitVec.toNat_ofNat]
  omega

theorem rangeLimit_high {i : Nat} (h : 512 ≤ i) (h' : i < 896) : Rom.rangeLimit i = 255 := by
  rw [Rom.rangeLimit, if_neg (by omega), if_neg (by omega), if_pos h']

theorem rangeLimit_zeros {i : Nat} (h : 896 ≤ i) (h' : i < 1280) : Rom.rangeLimit i = 0 := by
  rw [Rom.rangeLimit, if_neg (by omega), if_neg (by omega), if_neg (by omega), if_pos h']

theorem toNat_rangeLimit_second_ramp {i : Nat} (h : 1280 ≤ i) (h' : i < 1408) :
    (Rom.rangeLimit i).toNat = i - 1280 := by
  rw [Rom.rangeLimit, if_neg (by omega), if_neg (by omega), if_neg (by omega), if_neg (by omega), if_pos h',
    BitVec.toNat_ofNat]
  omega

/-- R202: a negative sum looks entry 0 up, a byte the ramp, and a larger sum the entries 255. -/
theorem limit_eq_clamp {v : Int} (h : v ≤ 639) : ((limit v).toNat : Int) = clampByte v := by
  unfold limit clampByte
  by_cases h0 : 0 ≤ v
  · rw [if_pos h0]
    by_cases h255 : v < 256
    · rw [toNat_rangeLimit_ramp (by omega) (by omega)]
      omega
    · rw [rangeLimit_high (by omega) (by omega)]
      show (255 : Int) = _
      omega
  · rw [if_neg h0, rangeLimit_low (by decide)]
    show (0 : Int) = _
    omega

/-! ### The sums -/

/-- The least and the largest entry of each table (R199). -/
theorem ytab_range (i : Byte) : -19 ≤ Rom.at Rom.ytab i ∧ Rom.at Rom.ytab i ≤ 278 := by
  have := i.isLt
  rw [(ytab_eq i).2]
  omega

theorem crToR_range (i : Byte) : -205 ≤ Rom.at Rom.crToR i ∧ Rom.at Rom.crToR i ≤ 202 := by
  have := i.isLt
  rw [(crToR_eq i).2]
  omega

theorem cbToB_range (i : Byte) : -258 ≤ Rom.at Rom.cbToB i ∧ Rom.at Rom.cbToB i ≤ 255 := by
  have := i.isLt
  rw [(cbToB_eq i).2]
  omega

theorem crToG_range (i : Byte) : -104 ≤ Rom.at Rom.crToG i ∧ Rom.at Rom.crToG i ≤ 104 := by
  have := i.isLt
  rw [(crToG_eq i).2]
  omega

theorem cbToG_range (i : Byte) : -50 ≤ Rom.at Rom.cbToG i ∧ Rom.at Rom.cbToG i ≤ 50 := by
  have := i.isLt
  rw [(cbToG_eq i).2]
  omega

theorem sumR_range (y cr : Byte) : -224 ≤ sumR y cr ∧ sumR y cr ≤ 480 := by
  have := ytab_range y
  have := crToR_range cr
  unfold sumR
  omega

theorem sumG_range (y cb cr : Byte) : -173 ≤ sumG y cb cr ∧ sumG y cb cr ≤ 432 := by
  have := ytab_range y
  have := cbToG_range cb
  have := crToG_range cr
  unfold sumG
  omega

theorem sumB_range (y cb : Byte) : -277 ≤ sumB y cb ∧ sumB y cb ≤ 533 := by
  have := ytab_range y
  have := cbToB_range cb
  unfold sumB
  omega

/-! ### The 4:2:0 conversion -/

/-- The pixels of a square tile in raster order are drawn, for any size of tile (R203, R204). -/
theorem tileDrawn_drawMany {l : Latched} (hb : l.bpp = 3 ∨ l.bpp = 4) (size bx byy : Nat) (px : Nat → Nat → Pixel)
    (b : Buffer) :
    TileDrawn l size bx byy px b
      (drawMany l (fun p => size * bx + p % size) (fun p => size * byy + p / size) (fun p => px (p / size) (p % size))
        (size * size) b) where
  draw := drawMany_draw ..
  drawn row col k hr hc hx hy hk := by
    have hmod : (size * row + col) % size = col := by rw [Nat.mul_add_mod, Nat.mod_eq_of_lt hc]
    have hdiv : (size * row + col) / size = row := by
      rw [Nat.mul_add_div (by omega), Nat.div_eq_of_lt hc, Nat.add_zero]
    have hp : size * row + col < size * size :=
      calc size * row + col < size * (row + 1) := by rw [Nat.mul_succ]; omega
        _ ≤ size * size := Nat.mul_le_mul_left size hr
    have hdrawn := byteAt_drawMany_same hb (X := fun p => size * bx + p % size) (Y := fun p => size * byy + p / size)
      (fun p => px (p / size) (p % size)) b
      (fun p q _ _ hX hY => by
        rw [← Nat.div_add_mod p size, ← Nat.div_add_mod q size, Nat.add_left_cancel hX, Nat.add_left_cancel hY])
      hp (by simpa only [hmod] using hx) (by simpa only [hdiv] using hy) hk
    simpa only [hmod, hdiv, pixelByte] using hdrawn
  others off h := byteAt_drawMany_other hb _ _ b fun p hp hx hy k hk =>
    h (p / size) (p % size) k (Nat.div_lt_of_lt_mul hp)
      (Nat.mod_lt p (Nat.pos_of_ne_zero (by rintro rfl; simp at hp))) hx hy hk

end Sys2Proof.Machine

namespace Sys2Proof

open Machine Claims

/-- Settles O24: the 256 entries of each table, one by one. -/
theorem coefficientTablesFollowTheirFormulas : Obligations.CoefficientTablesFollowTheirFormulas := fun i =>
  ⟨(ytab_eq i).1, (crToR_eq i).1, (cbToB_eq i).1, (crToG_eq i).1, (cbToG_eq i).1,
    (ytab_eq i).2, (crToR_eq i).2, (cbToB_eq i).2, (crToG_eq i).2, (cbToG_eq i).2⟩

/-- Settles O25: the branches of the table, range by range. -/
theorem rangeLimitTableHoldsItsRanges : Obligations.RangeLimitTableHoldsItsRanges := fun _ =>
  ⟨rangeLimit_low, toNat_rangeLimit_ramp, rangeLimit_high, rangeLimit_zeros, toNat_rangeLimit_second_ramp⟩

/-- Settles O26: the sums below 0, in a byte, and above it look up the table's first three ranges. -/
theorem limitIsTheClamp : Obligations.LimitIsTheClamp := fun _ _ h => limit_eq_clamp h

/-- Settles O27: the sums of the tables' least and largest entries. -/
theorem conversionSumsStayInRange : Obligations.ConversionSumsStayInRange := fun y cb cr =>
  ⟨sumR_range y cr, sumG_range y cb cr, sumB_range y cb⟩

/-- Settles O28: each sum is in the clamp's domain. -/
theorem pixelBytesAreTheClampedSums : Obligations.PixelBytesAreTheClampedSums := fun y cb cr =>
  ⟨limit_eq_clamp (by have := sumR_range y cr; omega), limit_eq_clamp (by have := sumG_range y cb cr; omega),
    limit_eq_clamp (by have := sumB_range y cb; omega)⟩

/-- Settles O29: the conversion is the 256 pixels of the tile in raster order, with the samples of its quadrants. -/
theorem convert420DrawsTheMacroblock : Obligations.Convert420DrawsTheMacroblock := by
  intro s bx byy b hbpp hwork
  refine ⟨_, ?_, tileDrawn_drawMany hbpp 16 bx byy _ b⟩
  rw [convert420_eq, hwork, Option.map_some]

end Sys2Proof
end

section
/-!
PROOFS. The family of spec 10_state.md and 47_frame_loop.md, the host's side: the commands (O39 to O44), and the host's
accesses (O45 to O51).
-/

namespace Sys2Proof.Machine

open Claims

/-! ### The command a step makes -/

theorem step_access {s : State} {a : HostAccess} {rest : List HostAction} (h : s.host = .access a :: rest) :
    step s = hostAccess a { s with host := rest } := by
  simp only [step, h]

theorem ne_busy_of_ready_or_error {s : State} (h : s.phase = .ready ∨ s.phase = .error) : s.phase ≠ .busy := by
  rcases h with h | h <;> simp [h]

/-- A step that writes CMD outside BUSY makes the command. -/
theorem step_command {s : State} {v : Word} {rest : List HostAction} (hp : s.phase ≠ .busy)
    (h : s.host = .access (.writeReg 0x00 v) :: rest) : step s = command v { s with host := rest, rdata := none } := by
  rw [step_access h, hostAccess_command (s := { s with host := rest }) v hp]

theorem command_reset (s : State) : command 1 s = resetCommand s := rfl

theorem command_decode (s : State) : command 2 s = decodeCommand s := rfl

theorem command_destroy (s : State) : command 3 s = destroyCommand s := rfl

theorem command_unknown {v : Word} (h1 : v ≠ 1) (h2 : v ≠ 2) (h3 : v ≠ 3) (s : State) :
    command v s = .refused (.unknownCommand v) := by
  rw [command, if_neg h1, if_neg h2, if_neg h3]

theorem destroyCommand_decoder {s : State} (h : s.phase = .ready ∨ s.phase = .error) :
    destroyCommand s = .next (destroyed s) := by
  rcases h with h | h <;> rw [destroyCommand, h]

/-- A DECODE's step with its five registers written (R233). -/
theorem step_decode {s : State} {w h c m g : Word} {rest : List HostAction} (hp : s.phase = .ready ∨ s.phase = .error)
    (hhost : s.host = .access (.writeReg 0x00 2) :: rest) (hd : Described w h c m g s) :
    step s = .next (startDecode (latchOf w h c m g) { s with host := rest, rdata := none }) := by
  rw [step_command (ne_busy_of_ready_or_error hp) hhost, command_decode]
  exact decodeCommand_written (s := { s with host := rest, rdata := none }) hp hd.width hd.height hd.compSize hd.mode
    hd.config

theorem headerOk_latchOf (p : Params) (w h c m g : Word) :
    headerOk p (latchOf w h c m g) = true ↔
      1 ≤ w.toNat ∧ 1 ≤ h.toNat ∧ w.toNat ≤ p.maxDim ∧ h.toNat ≤ p.maxDim := by
  simp [headerOk, latchOf, and_assoc]

/-- A DECODE with one of its registers unwritten (R42). -/
theorem decodeAccepted_unwritten {s : State}
    (h : s.desc.width = none ∨ s.desc.height = none ∨ s.desc.compSize = none ∨ s.desc.mode = none ∨
      s.desc.config = none) : decodeAccepted s = .refused .descriptorUnwritten := by
  unfold decodeAccepted
  split
  · next hw hh hc hm hg =>
    simp only [hw, hh, hc, hm, hg, reduceCtorEq, or_self] at h
  · rfl

end Sys2Proof.Machine

namespace Sys2Proof

open Machine Claims

/-- Settles O39: the command of value 1. -/
theorem resetCommandCreatesADecoder : Obligations.ResetCommandCreatesADecoder := by
  intro s rest hp h
  rw [step_command hp h, command_reset]
  rfl

/-- Settles O40: the command on the power-on state, and that state's registers. -/
theorem resetAtPowerOnGivesTheResetState : Obligations.ResetAtPowerOnGivesTheResetState := by
  refine ⟨?_, by decide, rfl, rfl, rfl⟩
  rw [hostAccess_command 1 (by decide), command_reset]
  rfl

/-- Settles O41: the command of value 3, in a state that has a decoder. -/
theorem destroyDiscardsTheDecoder : Obligations.DestroyDiscardsTheDecoder := by
  intro s rest hp h
  refine ⟨destroyed { s with host := rest, rdata := none }, ?_, rfl⟩
  rw [step_command (ne_busy_of_ready_or_error hp) h, command_destroy]
  exact destroyCommand_decoder hp

/-- Settles O43: the header check fails, so the DECODE faults with code 4. -/
theorem inconsistentHeaderEndsTheDecode : Obligations.InconsistentHeaderEndsTheDecode := by
  intro s w h c m g rest hp hhost hd hbad
  refine ⟨_, step_decode hp hhost hd, ?_⟩
  rcases startDecode_cases (latchOf w h c m g) { s with host := rest, rdata := none } with ⟨hok, -⟩ | ⟨-, e⟩
  · have := (headerOk_latchOf s.params w h c m g).mp hok
    omega
  · rw [e]
    rfl

/-- Settles O44: the command's branches outside BUSY. -/
theorem commandsAreRefusedByTheAcceptanceTable : Obligations.CommandsAreRefusedByTheAcceptanceTable := by
  intro s hp
  refine ⟨fun hu => ⟨?_, ?_⟩, fun hu hd => ?_, fun v h1 h2 h3 => ?_⟩ <;> rw [hostAccess_command _ hp]
  · rw [command_decode, decodeCommand, hu]
  · rw [command_destroy, destroyCommand, hu]
  · have hrefused := decodeAccepted_unwritten (s := { s with rdata := none }) hd
    rw [command_decode, decodeCommand]
    cases hphase : s.phase
    · exact absurd hphase hu
    · exact hrefused
    · exact absurd hphase hp
    · exact hrefused
  · exact command_unknown h1 h2 h3 _

end Sys2Proof

namespace Sys2Proof.Machine

open Claims

/-! ### The set-up, field by field -/

/-- WORK of a new frame (R238): PUB's bytes if its geometry is the latched one, else all drawn. -/
def initialWork (s : State) : Buffer := (matchingPub s).getD { draw := s.draws, cells := [] }

theorem initWork_eq (s : State) :
    initWork s = { s with work := some (initialWork s), draws := (initWork s).draws } := by
  rw [initialWork, ← initWork_work]
  unfold initWork
  split <;> rfl

theorem initialWork_of_match {s : State} {p : Published} (h : s.pub = some p)
    (hg : p.w = s.latched.w ∧ p.h = s.latched.h ∧ p.bpp = s.latched.bpp) : initialWork s = p.buf := by
  simp only [initialWork, matchingPub, h, if_pos hg, Option.getD_some]

theorem initialWork_of_no_match {s : State}
    (h : ∀ p, s.pub = some p → ¬ (p.w = s.latched.w ∧ p.h = s.latched.h ∧ p.bpp = s.latched.bpp)) :
    initialWork s = { draw := s.draws, cells := [] } := by
  cases hp : s.pub with
  | none => simp only [initialWork, matchingPub, hp, Option.getD_none]
  | some p => simp only [initialWork, matchingPub, hp, if_neg (h p hp), Option.getD_none]

/-- A DECODE's step whose header is consistent (R233 to R239). -/
theorem step_decode_setUp {s : State} {w h c m g : Word} {rest : List HostAction}
    (hp : s.phase = .ready ∨ s.phase = .error) (hhost : s.host = .access (.writeReg 0x00 2) :: rest)
    (hd : Described w h c m g s) (hok : headerOk s.params (latchOf w h c m g) = true) :
    step s = .next (frameSetUp rest (latchOf w h c m g) s) := by
  rw [step_decode hp hhost hd]
  rcases startDecode_cases (latchOf w h c m g) { s with host := rest, rdata := none } with ⟨-, e⟩ | ⟨hbad, -⟩
  · rw [e]
    rfl
  · exact absurd hok (by simp [hbad])

end Sys2Proof.Machine

namespace Sys2Proof

open Machine Claims

/-- Settles O42: the header check passes, and each part of the set-up writes its fields. -/
theorem decodeSetsUpTheFrame : Obligations.DecodeSetsUpTheFrame := by
  intro s w h c m g rest hp hhost hd hw hh hw' hh'
  have hok := (headerOk_latchOf s.params w h c m g).mpr ⟨hw, hh, hw', hh'⟩
  refine ⟨_, initialWork (buildAllQt (latching rest (latchOf w h c m g) s)), step_decode_setUp hp hhost hd hok, ?_,
    fun p hpub h1 h2 h3 => initialWork_of_match hpub ⟨h1, h2, h3⟩, fun hno => ?_⟩
  · rw [frameSetUp, initWork_eq]
    rfl
  · rw [initialWork_of_no_match hno]

end Sys2Proof
end

section
/-!
PROOFS. The family of spec 10_state.md, the host's accesses: while BUSY (O45), the STATUS word (O46), the registers (O47,
O48), PUB and PAYLOAD (O49, O50), and what no access reaches (O51).
-/

namespace Sys2Proof.Machine

open Claims

/-! ### The accesses outside BUSY -/

section

variable {s : State}

theorem hostAccess_readReg {off : Nat} (h : s.phase ≠ .busy) :
    hostAccess (.readReg off) s = answer (readReg off s) s := hostAccess_idle _ h

theorem hostAccess_writeReg {off : Nat} {v : Word} (h : s.phase ≠ .busy) :
    hostAccess (.writeReg off v) s = writeReg off v { s with rdata := none } := hostAccess_idle _ h

theorem hostAccess_readPub {off : Nat} (h : s.phase ≠ .busy) :
    hostAccess (.readPub off) s = answer (readPub off s) s := hostAccess_idle _ h

/-- A STATUS read is answered in every state (R244). -/
theorem hostAccess_readStatus (s : State) :
    hostAccess (.readReg 0x04) s = .next { s with rdata := some (statusWord s) } := by
  rw [hostAccess, if_neg (by simp)]
  rfl

end

/-! ### The STATUS word -/

/-- The fields of a packed STATUS word, by their values (R31). -/
theorem packed_status_fields : ∀ (a : BitVec 2) (b : BitVec 3) (c d : BitVec 1),
    let v : Word := a.zeroExtend 32 ||| b.zeroExtend 32 <<< 4 ||| c.zeroExtend 32 <<< 8 ||| d.zeroExtend 32 <<< 9
    v.extractLsb' 0 2 = a ∧ v.extractLsb' 4 3 = b ∧ v.getLsbD 8 = (c == 1) ∧ v.getLsbD 9 = (d == 1) ∧
      v.getLsbD 2 = false ∧ v.getLsbD 3 = false ∧ v.getLsbD 7 = false ∧ v.toNat < 2 ^ 10 := by
  decide

/-- The STATUS word is packed from the codes of its fields, PUB_VALID among them. -/
theorem status_fields (s : State) :
    (statusWord s).extractLsb' 0 2 = s.phase.code ∧ (statusWord s).extractLsb' 4 3 = s.errCode.code ∧
      (statusWord s).getLsbD 8 = (s.endReason.code == 1) ∧ (statusWord s).getLsbD 9 = (s.pubValid == 1) ∧
      (statusWord s).getLsbD 2 = false ∧ (statusWord s).getLsbD 3 = false ∧ (statusWord s).getLsbD 7 = false ∧
      (statusWord s).toNat < 2 ^ 10 :=
  packed_status_fields s.phase.code s.errCode.code s.endReason.code s.pubValid

/-! ### The register map -/

/-- The offsets of CMD, STATUS and the error registers (R27). -/
def specialOffsets : List Nat := [0x00, 0x04, 0x08, 0x0C, 0x10]

/-- The offsets of the model's descriptor registers are those of R27's table. -/
theorem map_offset_allDescs : allDescs.map Desc.offset = descriptorMap.map Prod.snd := rfl

theorem offset_of_mem_descriptorMap {d : Desc} {off : Nat} (h : (d, off) ∈ descriptorMap) : off = d.offset := by
  have all : ∀ e ∈ descriptorMap, e.2 = e.1.offset := by decide
  exact all _ h

theorem descAt_offset (d : Desc) : descAt d.offset = some d := by
  cases d <;> rfl

theorem offset_not_special (d : Desc) : d.offset ∉ specialOffsets := by
  cases d <;> decide

theorem descAt_none {off : Nat} (h : off ∉ descriptorMap.map Prod.snd) : descAt off = none := by
  rw [← map_offset_allDescs] at h
  exact List.find?_eq_none.mpr fun d hd he => h (List.mem_map.mpr ⟨d, hd, by simpa using he⟩)

/-- A register holds what was written, and the others what they held (R28, R29). -/
theorem get_set (ds : Descriptors) (d e : Desc) (v : Word) :
    (ds.set d v).get e = if e = d then some v else ds.get e := by
  cases d <;> cases e <;> rfl

section

variable {off : Nat} {s : State}

/-- A read at an offset of no other register reads the descriptor register there, if there is one and it was written. -/
theorem readReg_of_not_special (h : off ∉ specialOffsets) :
    readReg off s = (descAt off).elim (.error (.unknownRegister off))
      fun d => (s.desc.get d).elim (.error (.registerUnwritten off)) .ok := by
  simp only [specialOffsets, List.mem_cons, List.not_mem_nil, or_false, not_or] at h
  obtain ⟨h0, h1, h2, h3, h4⟩ := h
  rw [readReg, if_neg h0, if_neg h1, if_neg h2, if_neg h3, if_neg h4]
  cases descAt off with
  | none => rfl
  | some d => cases hv : s.desc.get d <;> simp [hv]

/-- A write at an offset of no other register writes the descriptor register there, if there is one. -/
theorem writeReg_of_not_special (h : off ∉ specialOffsets) (v : Word) :
    writeReg off v s = (descAt off).elim (.refused (.unknownRegister off))
      fun d => .next { s with desc := s.desc.set d v } := by
  simp only [specialOffsets, List.mem_cons, List.not_mem_nil, or_false, not_or] at h
  obtain ⟨h0, h1, h2, h3, h4⟩ := h
  rw [writeReg, if_neg h0, if_neg (by simp only [h1, h2, h3, h4, or_self, not_false_eq_true])]
  cases descAt off <;> rfl

end

/-! ### PUB and PAYLOAD -/

theorem readPub_none (off : Nat) {s : State} (h : s.pub = none) : readPub off s = .error .noPublishedBuffer := by
  rw [readPub, h]

theorem readPub_within {off : Nat} {s : State} {p : Published} (h : s.pub = some p) (hlt : off < p.size) :
    readPub off s = .ok ((p.buf.byteAt off).zeroExtend 32) := by
  rw [readPub, h]
  exact if_pos hlt

theorem readPub_beyond {off : Nat} {s : State} {p : Published} (h : s.pub = some p) (hge : p.size ≤ off) :
    readPub off s = .error (.beyondPublishedBuffer off) := by
  rw [readPub, h]
  exact if_neg (Nat.not_lt.mpr hge)

/-- A written payload byte reads back, and the others read as they did (R61). -/
theorem payloadByte_store (s : State) (a c : Nat) (v : Byte) :
    payloadByte { s with payload := Memory.store s.payload a v, rdata := none } c = if c = a then v else payloadByte s c := by
  unfold payloadByte
  by_cases h : c = a
  · subst h
    rw [if_pos rfl, Memory.read_store_same, Option.getD_some]
  · rw [if_neg h, Memory.read_store_other _ _ h]

end Sys2Proof.Machine

namespace Sys2Proof

open Machine Claims

/-- Settles O45: the guard of every access, and the last branch of a command. -/
theorem busyRefusesAllButStatusReads : Obligations.BusyRefusesAllButStatusReads := by
  refine ⟨fun s a hb => ⟨fun ha => if_pos ⟨hb, ha⟩, hostAccess_readStatus s⟩, fun s v h1 h2 h3 => ?_⟩
  by_cases hb : s.phase = .busy
  · exact ⟨_, if_pos ⟨hb, by simp⟩⟩
  · exact ⟨_, (hostAccess_command v hb).trans (command_unknown h1 h2 h3 _)⟩

/-- Settles O46: each field is the code of its flag. -/
theorem statusWordFieldsAreTheFlags : Obligations.StatusWordFieldsAreTheFlags := by
  intro s
  obtain ⟨hphase, herr, hreason, hpub, h2, h3, h7, hlt⟩ := status_fields s
  refine ⟨?_, ?_, ?_, ?_, h2, h3, h7, fun k hk => ?_⟩
  · rw [hphase]
    cases s.phase <;> rfl
  · rw [herr]
    cases s.errCode <;> rfl
  · rw [hreason]
    cases s.endReason <;> rfl
  · rw [hpub, State.pubValid]
    cases s.pub <;> rfl
  · exact Nat.testBit_lt_two_pow (hlt.trans_le (Nat.pow_le_pow_right (by decide) hk))

/-- Settles O47: the offsets find their registers, and a register holds what was written. -/
theorem descriptorRegistersHoldWhatIsWritten : Obligations.DescriptorRegistersHoldWhatIsWritten := by
  refine ⟨fun s d off v hmem hp => ?_, fun ds => rfl, fun s off v hp hspecial hmap => ?_⟩
  · obtain rfl := offset_of_mem_descriptorMap hmem
    have hread : ∀ u : State, readReg d.offset u = (u.desc.get d).elim (.error (.registerUnwritten d.offset)) .ok := by
      intro u
      rw [readReg_of_not_special (offset_not_special d), descAt_offset]
      rfl
    refine ⟨⟨{ s with desc := s.desc.set d v, rdata := none }, ?_, rfl, fun e => get_set s.desc d e v, ?_⟩, fun hnone => ?_⟩
    · rw [hostAccess_writeReg hp, writeReg_of_not_special (offset_not_special d), descAt_offset]
      rfl
    · rw [hostAccess_readReg (s := { s with desc := s.desc.set d v, rdata := none }) hp, hread]
      simp only [get_set, if_true]
      rfl
    · rw [hostAccess_readReg hp, hread, hnone]
      rfl
  · have hnone := descAt_none hmap
    constructor
    · rw [hostAccess_readReg hp, readReg_of_not_special hspecial, hnone]
      rfl
    · rw [hostAccess_writeReg hp, writeReg_of_not_special hspecial, hnone]
      rfl

/-- Settles O48: the branches of a register read and of a register write. -/
theorem errorRegistersAreReadOnly : Obligations.ErrorRegistersAreReadOnly := by
  intro s v hp
  refine ⟨hostAccess_readStatus s, ?_, ?_, ?_, ?_, fun off hoff => ?_⟩
  · exact hostAccess_readReg hp
  · exact hostAccess_readReg hp
  · exact hostAccess_readReg hp
  · exact hostAccess_readReg hp
  · rw [hostAccess_writeReg hp, writeReg, if_neg (by omega), if_pos hoff]

/-- Settles O49: the branches of a PUB read. -/
theorem publishedBytesAreReadWithinTheirBounds : Obligations.PublishedBytesAreReadWithinTheirBounds := by
  intro s off hp
  rw [hostAccess_readPub hp]
  refine ⟨fun hnone => ?_, fun p hpub => ⟨fun hlt => ⟨_, by rw [readPub_within hpub hlt]; rfl, ?_⟩, fun hge => ?_⟩⟩
  · rw [readPub_none off hnone]
    rfl
  · exact BitVec.toNat_setWidth_of_le (by decide)
  · rw [readPub_beyond hpub hge]
    rfl

/-- Settles O50: the write is one store, and a payload byte is one read. -/
theorem payloadWritesChangeOneByte : Obligations.PayloadWritesChangeOneByte := by
  intro s a v hp
  refine ⟨{ s with payload := Memory.store s.payload a.toNat v, rdata := none }, hostAccess_idle _ hp, rfl, ?_,
    fun c hc => ?_⟩
  · rw [payloadByte_store, if_pos rfl]
  · rw [payloadByte_store, if_neg hc]

/-- Settles O51: of what an access can do, only the commands reach the core. -/
theorem hostAccessesLeaveTheCoreAlone : Obligations.HostAccessesLeaveTheCoreAlone := by
  intro a s t hno h
  rcases hostAccess_cases h with ⟨r, rfl⟩ | ⟨-, d, rfl⟩ | ⟨-, off, v, rfl⟩ | ⟨-, ha, -⟩ | ⟨-, ha, -⟩ | ⟨-, ha, -⟩
  · rfl
  · rfl
  · rfl
  · exact absurd ha (hno 1)
  · exact absurd ha (hno 2)
  · exact absurd ha (hno 3)

end Sys2Proof
end

section
/-!
PROOFS. The family of spec 47_frame_loop.md: the block a step runs (O34, O35), the payload bound (O36), and the bound on a
DECODE's turns (O38).
-/

namespace Sys2Proof.Machine

open Claims

/-! ### The core's move under each host -/

section

variable {s : State}

theorem step_silent (h : s.host = []) : step s = coreStep s := by simp only [step, h]

theorem step_pause {more : List HostAction} (h : s.host = .pause :: more) :
    step s = coreStep { s with host := more } := by
  simp only [step, h]

theorem step_poll {more : List HostAction} (hb : s.phase = .busy) (h : s.host = .awaitIdle :: more) :
    step s = coreStep s := by
  simp only [step, h]
  exact if_pos hb

theorem coreStep_busy (hb : s.phase = .busy) : coreStep s = frameTurn s := if_pos hb

/-- While BUSY with payload left, the core's move is the block at the cursor. -/
theorem coreStep_block {i : Instr} (hb : s.phase = .busy) (hpos : s.pos < s.latched.bitEnd) (hi : decodeAt s = .ok i) :
    coreStep s = exec i s := by
  rw [coreStep_busy hb, frameTurn_block hpos hi]

/-- While BUSY at the payload bound, it is the successful end. -/
theorem coreStep_bound (hb : s.phase = .busy) (hpos : s.latched.bitEnd ≤ s.pos) :
    coreStep s = .next (finished .payloadBound s) := by
  rw [coreStep_busy hb, frameTurn_bound hpos, endSuccess_eq_finished]

theorem decodeAt_of_decode {i : Instr} {rest : List Bool} (h : decode s.params (fetchBits s) = .ok (i, rest)) :
    decodeAt s = .ok i := by
  rw [decodeAt, h]

/-- A stream that goes on with a block's encoding is fetched as that encoding and what follows it (R80): a fetch is as
long as the longest block. -/
theorem fetchBits_eq_encode_append {i : Instr}
    (h : ∀ k (hk : k < (encode s.params i).length), streamBit s (s.pos + k) = (encode s.params i)[k]) :
    ∃ rest, fetchBits s = encode s.params i ++ rest := by
  have hlen : (encode s.params i).length ≤ maxBlockBits := (blockLengthsAreTheTables s.params i).2.2
  refine ⟨(fetchBits s).drop (encode s.params i).length, ?_⟩
  have htake : (fetchBits s).take (encode s.params i).length = encode s.params i := by
    refine List.ext_getElem (by simp [fetchBits, hlen]) fun k h1 h2 => ?_
    rw [← h k h2]
    simp [fetchBits]
  calc fetchBits s = (fetchBits s).take _ ++ (fetchBits s).drop _ := (List.take_append_drop _ _).symm
    _ = encode s.params i ++ _ := by rw [htake]

/-! ### The bound on a DECODE's turns -/

/-- A turn of a running DECODE with payload left ends it, or moves the cursor by a tag at least, within the payload. -/
theorem turn_ends_or_advances (hb : s.phase = .busy) (hpos : s.pos < s.latched.bitEnd) (hh : s.host = []) :
    ∃ t, step s = .next t ∧ t.host = [] ∧ ((t.phase = .ready ∨ t.phase = .error) ∨
      (t.phase = .busy ∧ t.latched = s.latched ∧ s.pos + 4 ≤ t.pos)) := by
  obtain ⟨i, hi⟩ := decodeAt_total s
  obtain ⟨t, ht⟩ := exec_next i s
  refine ⟨t, by rw [step_silent hh, coreStep_block hb hpos hi, ht], ?_⟩
  cases exec_leaves ht with
  | faulted code p u _ hu =>
    rcases hu with rfl | hu
    · exact ⟨hh, .inl (.inr rfl)⟩
    · exact ⟨hu.host.trans hh, .inl (.inr rfl)⟩
  | finished => exact ⟨hh, .inl (.inl rfl)⟩
  | drawn u x y hu =>
    exact ⟨by simp [hu.host, hh], .inr ⟨by simp [hu.phase, hb], by simp [hu.latched], by simpa using hu.forward⟩⟩

/-- R289: with at most `4 * k` bits left, `k + 1` turns end a running DECODE. -/
theorem run_ends (k : Nat) {s : State} (hb : s.phase = .busy) (hh : s.host = [])
    (hk : s.latched.bitEnd ≤ s.pos + 4 * k) :
    ∃ t, Host.Core.run core (k + 1) s = .next t ∧ (t.phase = .ready ∨ t.phase = .error) := by
  induction k generalizing s with
  | zero =>
    exact ⟨finished .payloadBound s, run_succ 0 ((step_silent hh).trans (coreStep_bound hb (by omega))), .inl rfl⟩
  | succ k ih =>
    rcases Nat.lt_or_ge s.pos s.latched.bitEnd with hpos | hpos
    · obtain ⟨t, hstep, hth, hend | ⟨hbusy, hlatched, hforward⟩⟩ := turn_ends_or_advances hb hpos hh
      · refine ⟨t, ?_, hend⟩
        rw [run_succ _ hstep, run_idle _ hth (ne_busy_of_ready_or_error hend)]
      · rw [run_succ _ hstep]
        exact ih hbusy hth (by rw [hlatched]; omega)
    · exact ⟨finished .payloadBound s, (run_succ _ ((step_silent hh).trans (coreStep_bound hb hpos))).trans
        (run_idle _ hh nofun), .inl rfl⟩

end

end Sys2Proof.Machine

namespace Sys2Proof

open Machine Claims

/-- Settles O34: the three hosts under which the core moves. -/
theorem stepRunsTheDecodedBlock : Obligations.StepRunsTheDecodedBlock := by
  intro s i rest hb hpos hdecode
  have hi := decodeAt_of_decode hdecode
  refine ⟨fun h => ?_, fun more h => ?_, fun more h => ?_⟩
  · rw [step_silent h, coreStep_block hb hpos hi]
  · rw [step_pause h]
    exact coreStep_block hb hpos hi
  · rw [step_poll hb h, coreStep_block hb hpos hi]

/-- Settles O35: the fetch begins with the encoding, which decoding inverts. -/
theorem stepRunsTheEncodedBlock : Obligations.StepRunsTheEncodedBlock := by
  intro s i hb hpos hh hwf hstream
  obtain ⟨rest, hfetch⟩ := fetchBits_eq_encode_append hstream
  have hdecode : decode s.params (fetchBits s) = .ok (i, rest) := by rw [hfetch, decode_encode _ _ _ hwf]
  rw [step_silent hh, coreStep_block hb hpos (decodeAt_of_decode hdecode)]

/-- Settles O36: the three hosts under which the core moves. -/
theorem payloadBoundFinishesTheFrame : Obligations.PayloadBoundFinishesTheFrame := by
  intro s hb hpos
  refine ⟨fun h => ?_, fun more h => ?_, fun more h => ?_⟩
  · rw [step_silent h, coreStep_bound hb hpos]
  · rw [step_pause h]
    exact coreStep_bound hb hpos
  · rw [step_poll hb h, coreStep_bound hb hpos]

/-- Settles O38: a turn takes 4 bits at least, of which there are `32 * N`, and one more turn meets the bound. -/
theorem everyDecodeEndsWithinItsBound : Obligations.EveryDecodeEndsWithinItsBound := by
  intro s _ hb hh
  exact run_ends (8 * s.latched.n) hb hh (by unfold Latched.bitEnd; omega)

end Sys2Proof
end

section
/-!
PROOFS. Decode-then-execute against the spec's field-by-field reader (O37). Both sides are put in terms of the fields that
stand in the stream of one state: the decoder reads them off a bit sequence, the reader as its cursor reaches them.
-/

namespace Sys2Proof.Machine

open Claims

/-! ### The stream as a bit sequence, and the decoder on it -/

/-- `m` stream bits from bit `p` on. -/
def streamBits (s : State) (p m : Nat) : List Bool := (List.range m).map fun k => streamBit s (p + k)

theorem fetchBits_eq_streamBits (s : State) : fetchBits s = streamBits s s.pos maxBlockBits := rfl

@[simp] theorem length_streamBits (s : State) (p m : Nat) : (streamBits s p m).length = m := by simp [streamBits]

theorem getElem_streamBits (s : State) (p m k : Nat) (h : k < (streamBits s p m).length) :
    (streamBits s p m)[k] = streamBit s (p + k) := by simp [streamBits]

/-- A field taken from the stream is the stream's field. -/
theorem takeField_streamBits {n m : Nat} (e : DecodeError) (s : State) (p : Nat) (h : n ≤ m) :
    takeField n e (streamBits s p m) = .ok (streamField s p n, streamBits s (p + n) (m - n)) := by
  have htake : (streamBits s p m).take n = streamBits s p n := by
    refine List.ext_getElem (by simp [h]) fun k h1 h2 => ?_
    rw [List.getElem_take, getElem_streamBits, getElem_streamBits]
  have hdrop : (streamBits s p m).drop n = streamBits s (p + n) (m - n) := by
    refine List.ext_getElem (by simp) fun k h1 h2 => ?_
    rw [List.getElem_drop, getElem_streamBits, getElem_streamBits, Nat.add_assoc]
  rw [takeField, if_neg (by simpa using h), htake, hdrop]
  rfl

/-- The slot at bit `p` of the stream (R84, R143). -/
def slotAt (s : State) (p : Nat) : Slot :=
  match s.params.slotOrder with
  | .indexFirst =>
    { idx := streamField s p 2, color := if streamField s (p + 2) 1 = 1#1 then some (streamField s (p + 3) 24) else none }
  | .flagFirst =>
    { idx := streamField s (p + 1) 2, color := if streamField s p 1 = 1#1 then some (streamField s (p + 3) 24) else none }

/-- The bit after the slot at bit `p`. -/
def nextSlot (s : State) (p : Nat) : Nat := p + slotBits (slotAt s p)

theorem decodeSlot_streamBits (s : State) (p : Nat) {m : Nat} (h : 27 ≤ m) :
    ∃ m', m ≤ m' + 27 ∧ decodeSlot s.params (streamBits s p m) = .ok (slotAt s p, streamBits s (nextSlot s p) m') := by
  refine ⟨m - slotBits (slotAt s p), by have := slotBits_le (slotAt s p); omega, ?_⟩
  have head2 := takeField_streamBits .cutSlot s p (n := 2) (m := m) (by omega)
  have head1 := takeField_streamBits .cutSlot s p (n := 1) (m := m) (by omega)
  have tail1 := takeField_streamBits .cutSlot s (p + 2) (n := 1) (m := m - 2) (by omega)
  have tail2 := takeField_streamBits .cutSlot s (p + 1) (n := 2) (m := m - 1) (by omega)
  have color := takeField_streamBits .cutSlot s (p + 3) (n := 24) (m := m - 3) (by omega)
  unfold decodeSlot decodeSlotHead nextSlot slotAt slotBits
  cases s.params.slotOrder
  · by_cases hu : streamField s (p + 2) 1 = 1#1 <;>
      simp [head2, tail1, color, hu, bind, Except.bind, pure, Except.pure, Nat.sub_sub, Nat.add_assoc]
  · by_cases hu : streamField s p 1 = 1#1 <;>
      simp [head1, tail2, color, hu, bind, Except.bind, pure, Except.pure, Nat.sub_sub, Nat.add_assoc]

/-- The coordinate field at bit `p` of the stream (R83). -/
def coordAt (s : State) (p : Nat) : Coord :=
  { bx := streamField s p 8
    byy := streamField s (p + 8) 8
    ignored := if s.params.coordBits = .bits24 then streamField s (p + 16) 8 else 0 }

theorem decodeCoord_streamBits (s : State) (p : Nat) {m : Nat} (h : 24 ≤ m) :
    ∃ m', m ≤ m' + 24 ∧
      decodeCoord s.params (streamBits s p m) = .ok (coordAt s p, streamBits s (p + coordWidth s.params) m') := by
  refine ⟨m - coordWidth s.params, by unfold coordWidth; split <;> omega, ?_⟩
  have hx := takeField_streamBits .cutCoordinates s p (n := 8) (m := m) (by omega)
  have hy := takeField_streamBits .cutCoordinates s (p + 8) (n := 8) (m := m - 8) (by omega)
  have hg := takeField_streamBits .cutCoordinates s (p + 16) (n := 8) (m := m - 16) (by omega)
  unfold decodeCoord coordAt coordWidth
  cases s.params.coordBits <;>
    simp [hx, hy, hg, bind, Except.bind, pure, Except.pure, Nat.sub_sub, Nat.add_assoc]

/-- `g` slots in a row from bit `p` of the stream on (R85). -/
def slotsAt (s : State) (p : Nat) : Nat → List Slot
  | 0 => []
  | g + 1 => slotAt s p :: slotsAt s (nextSlot s p) g

/-- The bit after `g` slots from bit `p` on. -/
def afterSlots (s : State) (p : Nat) : Nat → Nat
  | 0 => p
  | g + 1 => afterSlots s (nextSlot s p) g

/-- The operands of kind 110 at bit `p` of the stream (R85, R86). -/
theorem decodeVq2_streamBits (s : State) (p : Nat) {m : Nat} (h : 118 ≤ m) :
    ∃ a b rest, slotsAt s p 2 = [a, b] ∧
      decodeVq2 s.params (streamBits s p m) = .ok ((a, b, streamField s (afterSlots s p 2) 64), rest) := by
  obtain ⟨m1, l1, e1⟩ := decodeSlot_streamBits s p (m := m) (by omega)
  obtain ⟨m2, l2, e2⟩ := decodeSlot_streamBits s (nextSlot s p) (m := m1) (by omega)
  have e3 := takeField_streamBits (n := 64) .cutBitmap s (nextSlot s (nextSlot s p)) (m := m2) (by omega)
  exact ⟨_, _, _, rfl, by simp only [decodeVq2, e1, e2, e3, bind, Except.bind, pure, Except.pure]; rfl⟩

/-- The operands of kind 111 at bit `p` of the stream (R85, R86). -/
theorem decodeVq4_streamBits (s : State) (p : Nat) {m : Nat} (h : 236 ≤ m) :
    ∃ a b c d rest, slotsAt s p 4 = [a, b, c, d] ∧
      decodeVq4 s.params (streamBits s p m) = .ok ((a, b, c, d, streamField s (afterSlots s p 4) 128), rest) := by
  obtain ⟨m1, l1, e1⟩ := decodeSlot_streamBits s p (m := m) (by omega)
  obtain ⟨m2, l2, e2⟩ := decodeSlot_streamBits s (nextSlot s p) (m := m1) (by omega)
  obtain ⟨m3, l3, e3⟩ := decodeSlot_streamBits s (nextSlot s (nextSlot s p)) (m := m2) (by omega)
  obtain ⟨m4, l4, e4⟩ := decodeSlot_streamBits s (nextSlot s (nextSlot s (nextSlot s p))) (m := m3) (by omega)
  have e5 := takeField_streamBits (n := 128) .cutBitmap s (nextSlot s (nextSlot s (nextSlot s (nextSlot s p)))) (m := m4)
    (by omega)
  exact ⟨_, _, _, _, _, rfl, by simp only [decodeVq4, e1, e2, e3, e4, e5, bind, Except.bind, pure, Except.pure]; rfl⟩

/-! ### The reader, field by field -/

/-- `t` is a state within a block that began at `s`, its cursor at bit `p`. -/
structure AtPos (s : State) (p : Nat) (t : State) : Prop where
  params  : t.params = s.params
  latched : t.latched = s.latched
  payload : t.payload = s.payload
  pos     : t.pos = p
  sx      : t.sx = s.sx
  sy      : t.sy = s.sy

/-- The field a read at the cursor returns. -/
theorem AtPos.streamField {s t : State} {p : Nat} (h : AtPos s p t) (n : Nat) :
    streamField t t.pos n = Machine.streamField s p n := by
  rw [h.pos]
  exact streamField_congr h.params (by rw [h.latched]) h.payload p n

/-- Two ways on from a part of a block are the same if they agree wherever the part can lead. -/
theorem Micro.bind_congr {P Q : State → Prop} {m : Micro} {f g : State → Micro} (h : m.All P Q)
    (hf : ∀ t, P t → f t = g t) : m.bind f = m.bind g := by
  cases m with
  | go t => exact hf t h
  | ended t => rfl

/-- A read whose value is used is the read whose value the block carries, and then the use. -/
theorem withRead_eq (n : Nat) (s : State) (f : BitVec n → State → Micro) :
    withRead n s f = (readField n s).bind (f (streamField s s.pos n)) := by
  rcases Nat.lt_or_ge s.latched.bitEnd (s.pos + n) with hcut | hfits
  · rw [withRead, read_cut hcut, readField_cut hcut]
    rfl
  · rw [withRead, read_ok hfits, readField_ok hfits]
    rfl

variable {s t : State} {p : Nat}

/-- Nothing is asked of a state that a block has ended in. -/
def anyEnd : State → Prop := fun _ => True

theorem readField_atPos (n : Nat) (h : AtPos s p t) : (readField n t).All (AtPos s (p + n)) anyEnd := by
  rcases readField_cases n t with ⟨-, e⟩ | ⟨-, e⟩ <;> rw [e]
  · exact ⟨h.params, h.latched, h.payload, congrArg (· + n) h.pos, h.sx, h.sy⟩
  · trivial

theorem withRead_atPos (n : Nat) (h : AtPos s p t) (f : BitVec n → State → Micro) :
    withRead n t f = (readField n t).bind (f (streamField s p n)) := by
  rw [withRead_eq, h.streamField]

theorem readSlotHead_atPos (h : AtPos s p t) : (readSlotHead t).All (AtPos s (p + 3)) anyEnd := by
  unfold readSlotHead
  cases t.params.slotOrder <;>
    exact (readField_atPos _ h).bind fun u hu => readField_atPos _ hu

theorem readSlot_atPos (j : BitVec 2) (sl : Slot) (h : AtPos s p t) :
    (readSlot j sl t).All (AtPos s (p + slotBits sl)) anyEnd := by
  obtain ⟨idx, color⟩ := sl
  refine (readSlotHead_atPos h).bind fun u hu => ?_
  cases color with
  | none => exact { hu with }
  | some c =>
    exact (readField_atPos 24 (t := State.setMap u j idx) { hu with }).bind fun v hv => { hv with }

/-- The reader's index and flag are those of the slot that stands in the stream. -/
theorem readerSlotHead_eq (h : AtPos s p t) (f : BitVec 2 → BitVec 1 → State → Micro) :
    readerSlotHead t f = (readSlotHead t).bind (f (slotAt s p).idx (slotFlag (slotAt s p))) := by
  have hbit : ∀ u : BitVec 1, (if (if u = 1#1 then some (streamField s (p + 3) 24) else none).isSome then 1 else 0) = u := by
    intro u
    by_cases hu : u = 1#1
    · rw [if_pos hu, hu]
      rfl
    · rw [if_neg hu, eq_comm]
      revert u
      decide
  unfold readerSlotHead readSlotHead slotAt slotFlag
  rw [h.params]
  cases s.params.slotOrder <;> simp only [hbit, withRead_eq, Micro.bind_assoc]
  · rw [h.streamField]
    refine Micro.bind_congr (readField_atPos 2 h) fun u hu => ?_
    rw [hu.streamField]
  · rw [h.streamField]
    refine Micro.bind_congr (readField_atPos 1 h) fun u hu => ?_
    rw [hu.streamField]

theorem slotAt_color (s : State) (p : Nat) :
    (slotAt s p).color = if slotFlag (slotAt s p) = 1#1 then some (streamField s (p + 3) 24) else none := by
  unfold slotAt slotFlag
  cases s.params.slotOrder <;> simp only <;> split <;> rfl

/-- The reader's slot (R142) is the slot that stands in the stream. -/
theorem readerSlot_eq (j : BitVec 2) (h : AtPos s p t) : readerSlot j t = readSlot j (slotAt s p) t := by
  rw [readerSlot, readerSlotHead_eq h, readSlot]
  refine Micro.bind_congr (readSlotHead_atPos h) fun v hv => ?_
  have hcolor := slotAt_color s p
  by_cases hu : slotFlag (slotAt s p) = 1#1
  · rw [if_pos hu] at hcolor
    simp only [hu, hcolor, if_true]
    exact withRead_atPos 24 (t := v.setMap j (slotAt s p).idx) { hv with } _
  · rw [if_neg hu] at hcolor
    simp only [hu, hcolor, if_false]

/-- The reader's group (R142) is the slots that stand in the stream. -/
theorem readerGroup_eq (g : Nat) (j : BitVec 2) (h : AtPos s p t) :
    readerGroup g j t = readGroup j (slotsAt s p g) t := by
  induction g generalizing p t j with
  | zero => rfl
  | succ g ih =>
    rw [readerGroup, slotsAt, readGroup, readerSlot_eq j h]
    exact Micro.bind_congr (readSlot_atPos j (slotAt s p) h) fun u hu => ih (j + 1) hu

theorem readGroup_atPos (g : Nat) (j : BitVec 2) (h : AtPos s p t) :
    (readGroup j (slotsAt s p g) t).All (AtPos s (afterSlots s p g)) anyEnd := by
  induction g generalizing p t j with
  | zero => exact h
  | succ g ih => exact (readSlot_atPos j (slotAt s p) h).bind fun u hu => ih (j + 1) hu

/-- `m` fields of `bits` bits in a row from bit `p` on (R86). -/
def fieldsAt (s : State) (bits : Nat) : Nat → Nat → List (BitVec 2)
  | _, 0 => []
  | p, m + 1 => (streamField s p bits).setWidth 2 :: fieldsAt s bits (p + bits) m

/-- The reader's bitmap (R147) is the fields that stand in the stream. -/
theorem readerBitmap_eq (bits m q : Nat) (h : AtPos s p t) :
    readerBitmap bits m q t = fillBitmapFrom bits q (fieldsAt s bits p m) t := by
  induction m generalizing p q t with
  | zero => rfl
  | succ m ih =>
    rw [readerBitmap, fieldsAt, fillBitmapFrom, withRead_atPos bits h]
    exact Micro.bind_congr (readField_atPos bits h) fun u hu => ih (q + 1) { hu with }

@[simp] theorem length_fieldsAt (s : State) (bits p m : Nat) : (fieldsAt s bits p m).length = m := by
  induction m generalizing p with
  | zero => rfl
  | succ m ih => rw [fieldsAt, List.length_cons, ih]

theorem getElem_fieldsAt (s : State) (bits p m k : Nat) (hk : k < (fieldsAt s bits p m).length) :
    (fieldsAt s bits p m)[k] = (streamField s (p + bits * k) bits).setWidth 2 := by
  induction m generalizing p k with
  | zero => exact absurd hk (by simp)
  | succ m ih =>
    cases k with
    | zero => rfl
    | succ k =>
      simp only [fieldsAt, List.getElem_cons_succ]
      rw [ih, Nat.mul_succ, show p + bits + bits * k = p + (bits * k + bits) by omega]

/-- A stream field within a stream field (R88). -/
theorem extractLsb'_streamField (s : State) (p : Nat) {n a b c : Nat} (h : n = c + b + a) :
    (streamField s p n).extractLsb' a b = streamField s (p + c) b := by
  refine BitVec.eq_of_getMsbD_eq fun k hk => ?_
  rw [BitVec.getMsbD_extractLsb', getMsbD_streamField s _ _ _ hk, getMsbD_streamField s _ _ _ (by omega)]
  simp [hk, show a + b - k ≤ n by omega, show p + (n - (a + b - k)) = p + c + k by omega]

/-- The bitmap of a block (R86, R92), read as one field of the stream, has as its fields those that stand there. -/
theorem bitmapFields_streamField {bits n : Nat} (hn : n = 64 * bits) (s : State) (p : Nat) :
    bitmapFields bits (streamField s p n) = fieldsAt s bits p 64 := by
  refine List.ext_getElem (by simp [bitmapFields]) fun k h1 h2 => ?_
  have hk : k < 64 := by simpa using h2
  have hsplit : bits * k + bits * (63 - k) = bits * 63 := by rw [← Nat.mul_add, show k + (63 - k) = 63 by omega]
  rw [getElem_fieldsAt, ← extractLsb'_streamField s p (n := n) (a := bits * (63 - k)) (by omega)]
  refine BitVec.eq_of_toNat_eq ?_
  simp [bitmapFields, BitVec.extractLsb'_toNat, Nat.shiftRight_eq_div_pow]

/-- The reader's coordinates (R162) are those that stand in the stream. -/
theorem readerCoords_eq (h : AtPos s p t) (f : Nat × Nat → State → Micro) :
    readerCoords t f = (readCoords (some (coordAt s p)) t).bind
      (f ((coordAt s p).bx.toNat, (coordAt s p).byy.toNat)) := by
  unfold readerCoords readCoords coordWidth coordAt
  rw [h.params]
  cases s.params.coordBits
  · simp only [withRead_atPos 24 h]
    rw [extractLsb'_streamField s p (c := 0) (by decide), extractLsb'_streamField s p (c := 8) (by decide), Nat.add_zero]
  · simp only [withRead_atPos 16 h]
    rw [extractLsb'_streamField s p (c := 0) (by decide), extractLsb'_streamField s p (c := 8) (by decide), Nat.add_zero]

/-! ### The reader's blocks -/

theorem atPos_self (s : State) : AtPos s s.pos s := ⟨rfl, rfl, rfl, rfl, rfl, rfl⟩

/-- The reader's tile fill is `fill` at bit `p` of the stream. -/
def ReaderFills (s : State) (p : Nat) (k : BitVec 3) (fill : State → Micro) : Prop :=
  ∀ t, AtPos s p t → (if bitMapBits k = 0 then fillSolid t else readerBitmap (bitMapBits k) 64 0 t) = fill t

/-- A reader's bitmap is the fill from the block's bitmap operand. -/
theorem readerFills_bitmap {k : BitVec 3} {bits n : Nat} (hk : bitMapBits k = bits) (hb : bits ≠ 0) (hn : n = 64 * bits)
    (s : State) (p : Nat) : ReaderFills s p k (fillBitmap bits (bitmapFields bits (streamField s p n))) := by
  intro t ht
  rw [hk, if_neg hb, readerBitmap_eq bits 64 0 ht, bitmapFields_streamField hn]
  rfl

/-- The reader from the palette group on (R163). -/
theorem readerTile_eq {k : BitVec 3} {fill : State → Micro} (hf : ReaderFills s (afterSlots s p (groupSize k)) k fill)
    (at_ : Nat × Nat) (h : AtPos s p t) :
    readerTile k at_ t = (readGroup 0 (slotsAt s p (groupSize k)) t).bind fun u =>
      (fill u).bind fun v => .go (scannerAdvance (convert444 at_.1 at_.2 v)) := by
  rw [readerTile, readerGroup_eq _ 0 h, Micro.bind_assoc]
  refine Micro.bind_congr (readGroup_atPos _ 0 h) fun u hu => ?_
  rw [hf u hu]

/-- A block's fields do not move the scanner. -/
theorem scannerAt_kept (x y : Nat) : KeptByFields fun s => s.sx = x ∧ s.sy = y :=
  ⟨fun _ _ _ _ h => h, fun _ _ _ h => h, fun _ _ _ h => h, fun _ _ _ h => h⟩

theorem fill_all {P Q : State → Prop} (k : KeptByFields P) (c : CutGives P Q) {bits : Nat} {fill : State → Micro}
    (hf : FillsTile bits fill) (h : P t) : (fill t).All P Q := by
  rcases hf with ⟨-, rfl⟩ | ⟨-, hb, fields, -, rfl⟩
  · exact fillSolid_all k h
  · exact fillBitmap_all k c (by omega) fields h

/-- The reader's VQ block (R163) without coordinates. -/
theorem readerVq_scanner {k : BitVec 3} {bits : Nat} {fill : State → Micro} (hfill : FillsTile bits fill)
    (hf : ReaderFills s (afterSlots s (s.pos + 4) (groupSize k)) k fill) :
    (readTag s).bind (readerVq false k s.pos) = vqBlock none (slotsAt s (s.pos + 4) (groupSize k)) fill s := by
  rw [vqBlock]
  refine Micro.bind_congr (readField_atPos 4 (atPos_self s)) fun t ht => ?_
  rw [readerVq]
  split
  · rfl
  rw [if_neg (by decide), readerTile_eq hf _ ht]
  refine Micro.bind_congr (readGroup_atPos _ 0 ht) fun u hu => ?_
  refine Micro.bind_congr (fill_all (scannerAt_kept s.sx s.sy) (Q := anyEnd) (fun _ _ => trivial) hfill ⟨hu.sx, hu.sy⟩)
    fun v hv => ?_
  rw [blockAt, hv.1, hv.2, ht.sx, ht.sy]

/-- The reader's VQ block (R163) with coordinates (R162). -/
theorem readerVq_coords {k : BitVec 3} {fill : State → Micro}
    (hf : ReaderFills s (afterSlots s (s.pos + 4 + coordWidth s.params) (groupSize k)) k fill) :
    (readTag s).bind (readerVq true k s.pos) =
      vqBlock (some (coordAt s (s.pos + 4))) (slotsAt s (s.pos + 4 + coordWidth s.params) (groupSize k)) fill s := by
  rw [vqBlock]
  refine Micro.bind_congr (readField_atPos 4 (atPos_self s)) fun t ht => ?_
  rw [readerVq]
  split
  · rfl
  rw [if_pos rfl, readerCoords_eq ht, Micro.bind_assoc, readCoords, ht.params]
  refine Micro.bind_congr (readField_atPos _ ht) fun u hu => ?_
  exact readerTile_eq hf _ hu

/-- The reader's dispatch (R160, R161): by the low three bits of the tag, and, for a VQ kind, by its S bit. -/
theorem blockReader_transform
    (hk : (streamField s s.pos 4).extractLsb' 0 3 = 0 ∨ (streamField s s.pos 4).extractLsb' 0 3 = 2 ∨
      (streamField s s.pos 4).extractLsb' 0 3 = 4) : blockReader s = faultingTag .unsupportedBlockKind s := by
  rw [blockReader, withRead_eq]
  rcases hk with hk | hk | hk <;> simp only [hk] <;> rfl

theorem blockReader_unknown (hk : (streamField s s.pos 4).extractLsb' 0 3 = 3) :
    blockReader s = faultingTag .unknownBlockTag s := by
  rw [blockReader, withRead_eq]
  simp only [hk]
  rfl

theorem blockReader_end (hk : (streamField s s.pos 4).extractLsb' 0 3 = 1) : blockReader s = endingTag s := by
  rw [blockReader, withRead_eq]
  simp only [hk]
  rfl

theorem blockReader_vq {k : BitVec 3} {skip : Bool} (hvq : k = 5 ∨ k = 6 ∨ k = 7)
    (hk : (streamField s s.pos 4).extractLsb' 0 3 = k ∧ (streamField s s.pos 4).getLsbD 3 = skip) :
    blockReader s = (readTag s).bind (readerVq skip k s.pos) := by
  rw [blockReader, withRead_eq]
  rcases hvq with rfl | rfl | rfl <;> simp only [hk] <;> rfl

/-- The kind and the S bit of a tag, by its number (R81). -/
theorem kind_of_toNat {v : BitVec 4} {n : Nat} (h : v.toNat = n) :
    v.extractLsb' 0 3 = BitVec.ofNat 3 n ∧ v.getLsbD 3 = decide (8 ≤ n) := by
  subst h
  revert v
  decide

/-- The reader's solid fill reads nothing. -/
theorem readerFills_solid (s : State) (p : Nat) : ReaderFills s p 5 fillSolid := fun _ _ => if_pos rfl

/-- The reader's block of each VQ tag (R163, R173 to R175, R181 to R183), by the tag's kind and S bit. -/
theorem blockReader_vq1 (hk : (streamField s s.pos 4).extractLsb' 0 3 = 5 ∧ (streamField s s.pos 4).getLsbD 3 = false) :
    blockReader s = vqBlock none [slotAt s (s.pos + 4)] fillSolid s :=
  (blockReader_vq (.inl rfl) hk).trans (readerVq_scanner (.inl ⟨rfl, rfl⟩) (readerFills_solid s _))

theorem blockReader_vq2 (hk : (streamField s s.pos 4).extractLsb' 0 3 = 6 ∧ (streamField s s.pos 4).getLsbD 3 = false) :
    blockReader s = vqBlock none (slotsAt s (s.pos + 4) 2)
      (fillBitmap 1 (bitmapFields 1 (streamField s (afterSlots s (s.pos + 4) 2) 64))) s :=
  (blockReader_vq (.inr (.inl rfl)) hk).trans (readerVq_scanner (fillsTile_bitmap (by decide) _)
    (readerFills_bitmap (k := 6) rfl (by decide) rfl s _))

theorem blockReader_vq4 (hk : (streamField s s.pos 4).extractLsb' 0 3 = 7 ∧ (streamField s s.pos 4).getLsbD 3 = false) :
    blockReader s = vqBlock none (slotsAt s (s.pos + 4) 4)
      (fillBitmap 2 (bitmapFields 2 (streamField s (afterSlots s (s.pos + 4) 4) 128))) s :=
  (blockReader_vq (.inr (.inr rfl)) hk).trans (readerVq_scanner (fillsTile_bitmap (by decide) _)
    (readerFills_bitmap (k := 7) rfl (by decide) rfl s _))

theorem blockReader_vq1S (hk : (streamField s s.pos 4).extractLsb' 0 3 = 5 ∧ (streamField s s.pos 4).getLsbD 3 = true) :
    blockReader s = vqBlock (some (coordAt s (s.pos + 4))) [slotAt s (s.pos + 4 + coordWidth s.params)] fillSolid s :=
  (blockReader_vq (.inl rfl) hk).trans (readerVq_coords (readerFills_solid s _))

theorem blockReader_vq2S (hk : (streamField s s.pos 4).extractLsb' 0 3 = 6 ∧ (streamField s s.pos 4).getLsbD 3 = true) :
    blockReader s = vqBlock (some (coordAt s (s.pos + 4))) (slotsAt s (s.pos + 4 + coordWidth s.params) 2)
      (fillBitmap 1 (bitmapFields 1 (streamField s (afterSlots s (s.pos + 4 + coordWidth s.params) 2) 64))) s :=
  (blockReader_vq (.inr (.inl rfl)) hk).trans
    (readerVq_coords (readerFills_bitmap (k := 6) rfl (by decide) rfl s _))

theorem blockReader_vq4S (hk : (streamField s s.pos 4).extractLsb' 0 3 = 7 ∧ (streamField s s.pos 4).getLsbD 3 = true) :
    blockReader s = vqBlock (some (coordAt s (s.pos + 4))) (slotsAt s (s.pos + 4 + coordWidth s.params) 4)
      (fillBitmap 2 (bitmapFields 2 (streamField s (afterSlots s (s.pos + 4 + coordWidth s.params) 4) 128))) s :=
  (blockReader_vq (.inr (.inr rfl)) hk).trans
    (readerVq_coords (readerFills_bitmap (k := 7) rfl (by decide) rfl s _))

/-- The block that decodes at the cursor runs as the reader's block does. One case per row of the opcode table. -/
theorem decode_exec_reader (s : State) :
    ∃ i rest, decode s.params (fetchBits s) = .ok (i, rest) ∧ exec i s = (blockReader s).outcome := by
  have etag := takeField_streamBits (n := 4) .cutTag s s.pos (m := maxBlockBits) (by decide)
  obtain ⟨m, hm, ecoord⟩ := decodeCoord_streamBits s (s.pos + 4) (m := 260) (by omega)
  simp only [fetchBits_eq_streamBits, decode, etag, decodeVq1, bind, Except.bind, pure, Except.pure]
  rw [show maxBlockBits - 4 = 260 from rfl, ecoord]
  split
  case h_1 ht => exact ⟨_, _, rfl, by rw [blockReader_transform (.inl (kind_of_toNat ht).1)]; rfl⟩
  case h_2 ht => exact ⟨_, _, rfl, by rw [blockReader_end (kind_of_toNat ht).1]; rfl⟩
  case h_3 ht => exact ⟨_, _, rfl, by rw [blockReader_transform (.inr (.inl (kind_of_toNat ht).1))]; rfl⟩
  case h_4 ht => exact ⟨_, _, rfl, by rw [blockReader_unknown (kind_of_toNat ht).1]; rfl⟩
  case h_5 ht => exact ⟨_, _, rfl, by rw [blockReader_transform (.inr (.inr (kind_of_toNat ht).1))]; rfl⟩
  case h_6 ht =>
    obtain ⟨_, -, e⟩ := decodeSlot_streamBits s (s.pos + 4) (m := 260) (by omega)
    exact ⟨.vq1 _, _, by rw [e], by rw [blockReader_vq1 (kind_of_toNat ht)]; rfl⟩
  case h_7 ht =>
    obtain ⟨a, b, _, hslots, e⟩ := decodeVq2_streamBits s (s.pos + 4) (m := 260) (by omega)
    exact ⟨.vq2 a b _, _, by rw [e], by rw [blockReader_vq2 (kind_of_toNat ht), hslots]; rfl⟩
  case h_8 ht =>
    obtain ⟨a, b, c, d, _, hslots, e⟩ := decodeVq4_streamBits s (s.pos + 4) (m := 260) (by omega)
    exact ⟨.vq4 a b c d _, _, by rw [e], by rw [blockReader_vq4 (kind_of_toNat ht), hslots]; rfl⟩
  case h_9 ht => exact ⟨_, _, rfl, by rw [blockReader_transform (.inl (kind_of_toNat ht).1)]; rfl⟩
  case h_10 ht => exact ⟨_, _, rfl, by rw [blockReader_end (kind_of_toNat ht).1]; rfl⟩
  case h_11 ht => exact ⟨_, _, rfl, by rw [blockReader_transform (.inr (.inl (kind_of_toNat ht).1))]; rfl⟩
  case h_12 ht => exact ⟨_, _, rfl, by rw [blockReader_unknown (kind_of_toNat ht).1]; rfl⟩
  case h_13 ht => exact ⟨_, _, rfl, by rw [blockReader_transform (.inr (.inr (kind_of_toNat ht).1))]; rfl⟩
  case h_14 ht =>
    obtain ⟨_, -, e⟩ := decodeSlot_streamBits s (s.pos + 4 + coordWidth s.params) (m := m) (by omega)
    exact ⟨.vq1S (coordAt s (s.pos + 4)) _, _, by simp only [e]; rfl, by rw [blockReader_vq1S (kind_of_toNat ht)]; rfl⟩
  case h_15 ht =>
    obtain ⟨a, b, _, hslots, e⟩ := decodeVq2_streamBits s (s.pos + 4 + coordWidth s.params) (m := m) (by omega)
    exact ⟨.vq2S (coordAt s (s.pos + 4)) a b _, _, by simp only [e]; rfl,
      by rw [blockReader_vq2S (kind_of_toNat ht), hslots]; rfl⟩
  case h_16 =>
    have ht : (streamField s s.pos 4).toNat = 15 := by
      have := (streamField s s.pos 4).isLt
      simp only [imp_false] at *
      omega
    obtain ⟨a, b, c, d, _, hslots, e⟩ := decodeVq4_streamBits s (s.pos + 4 + coordWidth s.params) (m := m) (by omega)
    exact ⟨.vq4S (coordAt s (s.pos + 4)) a b c d _, _, by simp only [e]; rfl,
      by rw [blockReader_vq4S (kind_of_toNat ht), hslots]; rfl⟩

end Sys2Proof.Machine

namespace Sys2Proof

open Machine Claims

/-- Settles O37: outside the payload bound, by the reader's block at the cursor against the decoded one. -/
theorem decodedBlocksAreTheFieldByFieldReader : Obligations.DecodedBlocksAreTheFieldByFieldReader := by
  intro s
  rw [readerTurn]
  split
  case isTrue h => exact frameTurn_bound h
  case isFalse h =>
    obtain ⟨i, rest, hdecode, hexec⟩ := decode_exec_reader s
    rw [frameTurn_block (by omega) (decodeAt_of_decode hdecode), hexec]

end Sys2Proof
end
